-- ==== Sys2Proof/Word.lean ====
section
/-! DEFINITION. The word types: registers are 32 bits (10_state.md R20), symbols and memory cells 8 bits (00_scope.md R8). -/

namespace Sys2Proof

/-- A 32-bit register, command word, bus address or bus datum (10_state.md R20, 20_memory.md R60). -/
abbrev Word := BitVec 32

/-- A byte of IN_MEM or OUT_MEM, or a symbol (00_scope.md R8). -/
abbrev Byte := BitVec 8

end Sys2Proof
end

