-- ==== Sys2Proof/Config.lean ====
section
/-! DEFINITION. What an implementation fixes (the parameters of 00_scope.md R7 and the block base of 20_memory.md R60)
and the FREE VALUES: constants with no body, for what the spec calls unspecified. -/

namespace Sys2Proof

/-- How the trie builder breaks frequency ties (00_scope.md R7, 42_trie_builder.md R154, R155). -/
inductive TiePolicy where
  | index
  | any
  deriving DecidableEq, Repr

/-- The implementation parameters (00_scope.md R7; `blockBase`: 20_memory.md R60, 92_eei_decisions.md D3). -/
structure Params where
  inCap : Nat
  outCap : Nat
  nodeCap : Nat
  placeholderSym : Byte
  tiePolicy : TiePolicy
  blockBase : Word
  deriving DecidableEq, Repr

/-- The default of every parameter (00_scope.md R7). `blockBase` has no default in the spec: 0 is a DESIGN CHOICE
(notes/assumptions/3.md, unsafe for a claim that rests on it). -/
def Params.default : Params where
  inCap := 65536
  outCap := 65536
  nodeCap := 511
  placeholderSym := 0
  tiePolicy := .index
  blockBase := 0

namespace Config

/-- `CODE_MAX`, fixed (00_scope.md R7). -/
def codeMax : Nat := 255

/-- The value of `ID` (10_state.md R21). -/
def idWord : Word := 0x48554631

/-- FREE VALUE (notes/assumptions/4.md): byte `k` of a memory filled by draw number `fill`
(10_state.md R47, 70_reset_and_hazards.md R280, 60_exceptions.md R246). -/
opaque freeByte : (fill k : Nat) → Byte

/-- FREE VALUE (notes/assumptions/6.md): the data of draw number `d` that a host read returns where the spec says
"an unspecified value" (10_state.md R45, 20_memory.md R62, R65, R67, R83). -/
opaque freeWord : (d : Nat) → Word

/-- FREE VALUE (notes/assumptions/7.md): counter `v` of a FREQ table that nothing has written. -/
opaque freeCount : (d v : Nat) → Word

/-- FREE VALUE (notes/assumptions/7.md): PRESENT and BITS of entry `v` of a CODE table that nothing has written. -/
opaque freeCode : (d v : Nat) → Bool × List Bool

/-- FREE VALUE (notes/assumptions/9.md): which of the least-frequency candidates a pop takes under
`TIE_POLICY` = `ANY` (42_trie_builder.md R155). -/
opaque freePick : (d pop : Nat) → Nat

/-- FREE VALUE (notes/assumptions/9.md): whether a merge swaps its children under `TIE_POLICY` = `ANY` (R155). -/
opaque freeSwap : (d merge : Nat) → Bool

/-- FREE VALUE (notes/assumptions/10.md): whether a BUSY write that touches only IN_MEM-window bytes past `IN_CAP`
sets OVR (20_memory.md R64, R82 leave it open). -/
opaque freeOvr : (d : Nat) → Bool

/-- FREE VALUE (notes/assumptions/21.md): whether a misaligned write to the OUT_MEM window is answered OKAY (20_memory.md
R65) or SLVERR (93_implementation_defined.md I-SIZE). -/
opaque freeOkay : (d : Nat) → Bool

end Config

end Sys2Proof
end

