-- ==== Sys2Proof/Syntax.lean ====
section
/-! DEFINITION. The 18 commands of 30_encoding.md R95, one constructor per row of spec/opcode_table.json. -/

namespace Sys2Proof

/-- A decoded command word. `n` is the field N (30_encoding.md R92), `imm8` the field IMM8 with its don't-care
bits (R93, R99), kept so that encoding gives the word back. -/
inductive Instr where
  | rdInit
  | rdBit
  | rdBits (n : BitVec 4)
  | rdU32be
  | wrInit
  | wrBit (imm8 : Byte)
  | wrBits (n : BitVec 4) (imm8 : Byte)
  | wrU32be
  | wrDump
  | freqCount
  | trieBuild
  | trieSer
  | trieDeser
  | codeBuild
  | payloadEnc
  | payloadDec
  | compress
  | extract
  deriving DecidableEq, Repr

end Sys2Proof
end

