-- ==== Sys2Proof/WellFormed.lean ====
section
/-! DEFINITION. Which commands are well formed (30_encoding.md R92, R98) and which parameters are in range (00_scope.md R7). -/

namespace Sys2Proof

/-- N is legal only in 0..8 (30_encoding.md R92). -/
def countLegal (n : BitVec 4) : Bool := decide (n.toNat ≤ 8)

/-- The operands a command word may hold (30_encoding.md R92, R93, R98). -/
def Instr.wf : Instr → Bool
  | .rdBits n => countLegal n
  | .wrBits n _ => countLegal n
  | .rdInit | .rdBit | .rdU32be | .wrInit | .wrBit _ | .wrU32be | .wrDump | .freqCount | .trieBuild | .trieSer
  | .trieDeser | .codeBuild | .payloadEnc | .payloadDec | .compress | .extract => true

/-- The parameter ranges of 00_scope.md R7, and a base that is a multiple of 16 MiB (92_eei_decisions.md D3). -/
def Params.wf (p : Params) : Bool :=
  decide (1 ≤ p.inCap) && decide (p.inCap ≤ 2 ^ 24) && decide (1 ≤ p.outCap) && decide (p.outCap ≤ 2 ^ 24)
    && decide (511 ≤ p.nodeCap) && decide (p.nodeCap ≤ 2048) && decide (p.blockBase.toNat % 2 ^ 24 = 0)

end Sys2Proof
end

