-- ==== Sys2Proof/Decode.lean ====
section
/-! DEFINITION. Decoding by the match/mask table of 30_encoding.md R96 and R97, the encoder of R100 beside it, and the
pseudo-commands of R101. -/

namespace Sys2Proof

/-- Why a word is illegal (30_encoding.md R98). The block itself reports one code, ILLEGAL_CMD, for all of them;
the names are the model's (notes/assumptions/16.md). -/
inductive Illegal where
  | undefinedOpc
  | reservedField
  | strayOperand
  | countOver8
  deriving DecidableEq, Repr

/-- The fields of the format CMDW (30_encoding.md R91). -/
def fieldOpc (w : Word) : BitVec 8 := w.extractLsb' 0 8

/-- Field N (R91). -/
def fieldN (w : Word) : BitVec 4 := w.extractLsb' 8 4

/-- Field RSV0 (R91). -/
def fieldRsv0 (w : Word) : BitVec 4 := w.extractLsb' 12 4

/-- Field IMM8 (R91). -/
def fieldImm8 (w : Word) : BitVec 8 := w.extractLsb' 16 8

/-- Field RSV1 (R91). -/
def fieldRsv1 (w : Word) : BitVec 8 := w.extractLsb' 24 8

/-- One row of the table of R96: the word is the command when `w &&& mask = pattern` and `extra` holds. -/
structure Row where
  pattern : Word
  mask : Word
  extra : Word → Bool
  make : Word → Instr

/-- A row with no operand field: every bit is fixed (R96). -/
def plainRow (pattern : Word) (i : Instr) : Row := ⟨pattern, 0xFFFFFFFF, fun _ => true, fun _ => i⟩

/-- The table of 30_encoding.md R96, row for row. -/
def opcodeTable : List Row :=
  [ plainRow 0x00000010 .rdInit,
    plainRow 0x00000011 .rdBit,
    ⟨0x00000012, 0xFFFFF0FF, fun w => countLegal (fieldN w), fun w => .rdBits (fieldN w)⟩,
    plainRow 0x00000013 .rdU32be,
    plainRow 0x00000020 .wrInit,
    ⟨0x00000021, 0xFF00FFFF, fun _ => true, fun w => .wrBit (fieldImm8 w)⟩,
    ⟨0x00000022, 0xFF00F0FF, fun w => countLegal (fieldN w), fun w => .wrBits (fieldN w) (fieldImm8 w)⟩,
    plainRow 0x00000023 .wrU32be,
    plainRow 0x00000024 .wrDump ]
  ++
  [ plainRow 0x00000030 .freqCount,
    plainRow 0x00000040 .trieBuild,
    plainRow 0x00000050 .trieSer,
    plainRow 0x00000051 .trieDeser,
    plainRow 0x00000060 .codeBuild,
    plainRow 0x00000070 .payloadEnc,
    plainRow 0x00000071 .payloadDec,
    plainRow 0x00000080 .compress,
    plainRow 0x00000081 .extract ]

/-- Whether a row's mask, pattern and extra condition select it (R97). -/
def Row.selects (r : Row) (w : Word) : Bool := w &&& r.mask == r.pattern && r.extra w

/-- The name of the reason a word is illegal (R98): OPC first, then the reserved fields, then N over 8, then a
nonzero field the command does not use. -/
def whyIllegal (w : Word) : Illegal :=
  if opcodeTable.all (fun r => r.pattern.extractLsb' 0 8 != fieldOpc w) then .undefinedOpc
  else if fieldRsv0 w != 0 || fieldRsv1 w != 0 then .reservedField
  else if (fieldOpc w == 0x12 || fieldOpc w == 0x22) && !countLegal (fieldN w) then .countOver8
  else .strayOperand

/-- `decode(w)` of 30_encoding.md R97: total, the one row that matches or the name of the refusal. -/
def decode (w : Word) : Except Illegal Instr :=
  match opcodeTable.find? (fun r => r.selects w) with
  | some r => .ok (r.make w)
  | none => .error (whyIllegal w)

/-- A command word from its fields (R91); the reserved fields are 0. -/
def packWord (opc : BitVec 8) (n : BitVec 4) (imm8 : BitVec 8) : Word :=
  opc.setWidth 32 ||| (n.setWidth 32 <<< 8) ||| (imm8.setWidth 32 <<< 16)

/-- The encodings of 30_encoding.md R100 and R95. -/
def encode : Instr → Word
  | .rdInit => packWord 0x10 0 0
  | .rdBit => packWord 0x11 0 0
  | .rdBits n => packWord 0x12 n 0
  | .rdU32be => packWord 0x13 0 0
  | .wrInit => packWord 0x20 0 0
  | .wrBit imm8 => packWord 0x21 0 imm8
  | .wrBits n imm8 => packWord 0x22 n imm8
  | .wrU32be => packWord 0x23 0 0
  | .wrDump => packWord 0x24 0 0
  | .freqCount => packWord 0x30 0 0
  | .trieBuild => packWord 0x40 0 0
  | .trieSer => packWord 0x50 0 0
  | .trieDeser => packWord 0x51 0 0
  | .codeBuild => packWord 0x60 0 0
  | .payloadEnc => packWord 0x70 0 0
  | .payloadDec => packWord 0x71 0 0
  | .compress => packWord 0x80 0 0
  | .extract => packWord 0x81 0 0

/-- The instruction the decoder reads from a table row's word: a command is one 32-bit word (R90), so bits at and
above `nbits` are 0 and nothing follows it. -/
def decodeTableWord (nbits w : Nat) : Option Instr :=
  match decode (BitVec.ofNat 32 (w % 2 ^ nbits)) with
  | .ok i => some i
  | .error _ => none

/-- The assembler's source forms with operands as numbers (30_encoding.md R100), and the pseudo-commands that are one
word (R101). `WR_U32 v` of R101 is a bus write and a command: Machine/HostProgram.lean. -/
inductive Asm where
  | rdBits (n : Nat)
  | wrBit (b : Nat)
  | wrBits (n v : Nat)
  | rdByte
  | wrByte (v : Nat)
  | rdSkip (n : Nat)
  | plain (i : Instr)
  deriving DecidableEq, Repr

/-- Whether a command takes no operand, so that its mnemonic alone is its source form (R100). -/
def Instr.noOperand : Instr → Bool
  | .rdBits _ | .wrBit _ | .wrBits _ _ => false
  | .rdInit | .rdBit | .rdU32be | .wrInit | .wrU32be | .wrDump | .freqCount | .trieBuild | .trieSer
  | .trieDeser | .codeBuild | .payloadEnc | .payloadDec | .compress | .extract => true

/-- The assembler of 30_encoding.md R100 and R101: it rejects n > 8, b > 1 and v > 255. -/
def assemble : Asm → Option Word
  | .rdBits n => if n ≤ 8 then some (encode (.rdBits (BitVec.ofNat 4 n))) else none
  | .wrBit b => if b ≤ 1 then some (encode (.wrBit (BitVec.ofNat 8 b))) else none
  | .wrBits n v =>
    if n ≤ 8 ∧ v ≤ 255 then some (encode (.wrBits (BitVec.ofNat 4 n) (BitVec.ofNat 8 v))) else none
  | .rdByte => some (encode (.rdBits 8))
  | .wrByte v => if v ≤ 255 then some (encode (.wrBits 8 (BitVec.ofNat 8 v))) else none
  | .rdSkip n => if n ≤ 8 then some (encode (.rdBits (BitVec.ofNat 4 n))) else none
  | .plain i => if i.noOperand then some (encode i) else none

end Sys2Proof
end

