-- ==== Sys2Proof/Machine/State.lean ====
section
/-! DEFINITION. The state of the block as plain data (10_state.md R20 to R47), the host's accesses still to come, and the
reset state (R47). -/

namespace Sys2Proof.Machine

/-- The error codes of 60_exceptions.md R243; codes 9 to 15 are never produced, so they have no constructor. -/
inductive ErrCode where
  | none
  | corruptStream
  | illegalCmd
  | badState
  | inRange
  | outOverflow
  | nodeOverflow
  | codeTooLong
  | missingCode
  deriving DecidableEq, Repr

/-- The fields of `STATUS` (10_state.md R23). Reserved bits read 0 and ignore writes, so they hold nothing. -/
structure Status where
  busy : Bool
  done : Bool
  err : Bool
  exh : Bool
  ovr : Bool
  errcode : ErrCode
  deriving DecidableEq, Repr

/-- The six flags of `VALID` (10_state.md R31). -/
structure Valid where
  freq : Bool
  trie : Bool
  code : Bool
  rd : Bool
  wr : Bool
  wrDumped : Bool
  deriving DecidableEq, Repr

/-- The two enables of `IRQ_EN` (10_state.md R34). -/
structure IrqEn where
  doneIe : Bool
  ovrIe : Bool
  deriving DecidableEq, Repr

/-- A node of the arena (00_scope.md R15): `left` is taken on bit 0, `right` on bit 1. -/
inductive Node where
  | leaf (sym : Byte) (freq : Word)
  | internal (freq : Word) (left right : Nat)
  deriving DecidableEq, Repr

/-- An entry of CODE (10_state.md R39). LEN is the length of `bits`; `bits` starts with the choice at the root. -/
structure CodeEntry where
  present : Bool
  bits : List Bool
  deriving DecidableEq, Repr

/-- A trie read off the arena (00_scope.md R16): the tree below `NODE[ROOT]` without its indices. -/
inductive Trie where
  | leaf (sym : Byte)
  | node (left right : Trie)
  deriving DecidableEq, Repr

/-- A byte memory: the bytes that hold a defined value, by rising address. An unlisted byte holds the unspecified
value that draw number `fill` gave it (notes/assumptions/4.md). -/
structure Memory where
  cells : List Host.Cell
  fill : Nat
  deriving DecidableEq, Repr

/-- The writer's cursor and buffer while a command writes (10_state.md R30, R43). -/
structure Writer where
  pos : Word
  mem : Memory
  deriving DecidableEq, Repr

/-- The width of a host access (20_memory.md R62, R64). -/
inductive Size where
  | byte
  | half
  | word
  deriving DecidableEq, Repr

/-- A bus response (20_memory.md R62, R63, R67). -/
inductive Resp where
  | okay
  | slverr
  | decerr
  deriving DecidableEq, Repr

/-- What the bus answered to a host access; `data` is there for a read. -/
structure Reply where
  resp : Resp
  data : Option Word
  deriving DecidableEq, Repr

/-- One move of the world outside the Core (notes/assumptions/1.md): a bus access at an absolute bus address, RESET
(70_reset_and_hazards.md R280), the host holding still while the Core has its turn, or the polling loop `WAIT` of
30_encoding.md R102. -/
inductive HostEvent where
  | read (size : Size) (addr : Word)
  | write (size : Size) (addr : Word) (data : Word)
  | reset
  | coreTurn
  | wait
  deriving DecidableEq, Repr

/-- The whole state. The registers of 10_state.md R20 stand under their own names; `OUT_LEN`, `ID` and the capacity
registers are views (R28, R21, R35). `params` is the configuration, which no step changes. `host`, `reply` and
`draws` are the model's own. -/
structure State where
  params : Params
  cmd : Word
  status : Status
  arg : Word
  result : Word
  inLen : Word
  rdPos : Word
  rdEnd : Word
  wrPos : Word
  decLen : Word
  valid : Valid
  nodeCount : Word
  root : Word
  irqEn : IrqEn
  freq : List Word
  code : List CodeEntry
  node : List Node
  inMem : Memory
  outMem : Memory
  host : List HostEvent
  reply : Option Reply
  draws : Nat
  deriving DecidableEq, Repr

/-- The reasons the machine can stop. -/
inductive Fault where
  /-- Raised by TRIE_SER, CODE_BUILD and PAYLOAD_DEC, and by COMPRESS and EXTRACT which run their bodies, when the
  entries below `NODE[ROOT]` are no trie although `TRIE_VALID` = 1. 10_state.md R41 says every command that makes a
  trie makes a proper one, so no run reaches it. Safe (notes/assumptions/8.md). -/
  | arenaNotTrie
  deriving DecidableEq, Repr

/-- The reasons the model can refuse an instruction. -/
inductive Refusal where
  /-- Raised by exec's arm of an instruction that has no meaning yet; no arm raises it. Safe. -/
  | notModelled (mnemonic : String)
  deriving DecidableEq, Repr

/-- The state right after reset (10_state.md R47): every register 0, no flag set, FREQ, CODE and NODE unspecified (empty
tables), both memories unspecified (nothing listed), with the default parameters of 00_scope.md R7. `host`, `reply`
and `draws` are DESIGN CHOICE (notes/assumptions/1.md, 5.md, 13.md). -/
def State.reset : State where
  params := Params.default
  cmd := 0
  status := ⟨false, false, false, false, false, .none⟩
  arg := 0
  result := 0
  inLen := 0
  rdPos := 0
  rdEnd := 0
  wrPos := 0
  decLen := 0
  valid := ⟨false, false, false, false, false, false⟩
  nodeCount := 0
  root := 0
  irqEn := ⟨false, false⟩
  freq := []
  code := []
  node := []
  inMem := ⟨[], 0⟩
  outMem := ⟨[], 1⟩
  host := []
  reply := none
  draws := 1

end Sys2Proof.Machine
end

