-- ==== Sys2Proof/Machine/Flags.lean ====
section
/-! DEFINITION. The words of STATUS, VALID and IRQ_EN, every flag update (10_state.md R23, R31, R34, R46;
60_exceptions.md R240, R241, R245) and the interrupt output (R251). -/

namespace Sys2Proof.Machine

/-- The number of an error code (60_exceptions.md R243). -/
def ErrCode.number : ErrCode → BitVec 4
  | .none => 0
  | .corruptStream => 1
  | .illegalCmd => 2
  | .badState => 3
  | .inRange => 4
  | .outOverflow => 5
  | .nodeOverflow => 6
  | .codeTooLong => 7
  | .missingCode => 8

/-- A flag as bit `i` of a register word. -/
def flagBit (b : Bool) (i : Nat) : Word := if b then 1#32 <<< i else 0#32

/-- `STATUS` as the host reads it (10_state.md R23). -/
def Status.word (st : Status) : Word :=
  flagBit st.busy 0 ||| flagBit st.done 1 ||| flagBit st.err 2 ||| flagBit st.exh 3 ||| flagBit st.ovr 4
    ||| (st.errcode.number.setWidth 32 <<< 8)

/-- `VALID` as the host reads it (10_state.md R31). -/
def Valid.word (v : Valid) : Word :=
  flagBit v.freq 0 ||| flagBit v.trie 1 ||| flagBit v.code 2 ||| flagBit v.rd 3 ||| flagBit v.wr 4
    ||| flagBit v.wrDumped 5

/-- `IRQ_EN` as the host reads it (10_state.md R34). -/
def IrqEn.word (e : IrqEn) : Word := flagBit e.doneIe 0 ||| flagBit e.ovrIe 1

/-- A host write to `IRQ_EN`: bits [31:2] are ignored (10_state.md R34). -/
def IrqEn.ofWord (w : Word) : IrqEn := ⟨w.getLsbD 0, w.getLsbD 1⟩

/-- A host write of `w` to `STATUS` (10_state.md R23): bit 1 clears DONE, bit 4 clears OVR, nothing else changes. -/
def Status.writeOneToClear (st : Status) (w : Word) : Status :=
  { st with done := st.done && !w.getLsbD 1, ovr := st.ovr && !w.getLsbD 4 }

/-- The issue of a command (60_exceptions.md R240): OVR is not changed. -/
def Status.issued (st : Status) : Status :=
  { st with busy := true, done := false, err := false, exh := false, errcode := .none }

/-- The completion of a command (60_exceptions.md R241). -/
def Status.completed (st : Status) : Status := { st with busy := false, done := true }

/-- `ERR` and `ERRCODE` of an error (60_exceptions.md R245). -/
def Status.failed (st : Status) (c : ErrCode) : Status := { st with err := true, errcode := c }

/-- The interrupt output (60_exceptions.md R251), a view of STATUS and IRQ_EN. -/
def State.irq (s : State) : Bool := (s.status.done && s.irqEn.doneIe) || (s.status.ovr && s.irqEn.ovrIe)

end Sys2Proof.Machine
end

