-- ==== Sys2Proof/Machine/Operands.lean ====
section
/-! DEFINITION. The operand forms: N and IMM8 of the word (30_encoding.md R92, R93), ARG (R94), IN_LEN (10_state.md
R27), and the order of bits inside a byte of a stream (00_scope.md R12). -/

namespace Sys2Proof.Machine

/-- The operand N (30_encoding.md R92): an unsigned count, not scaled. -/
def operandCount (n : BitVec 4) : Nat := n.toNat

/-- The operand b of WR_BIT (30_encoding.md R93): IMM8[0]; IMM8[7:1] is don't-care. -/
def operandBit (imm8 : Byte) : Bool := imm8.getLsbD 0

/-- The operand ARG of WR_U32BE (30_encoding.md R94). -/
def State.operandArg (s : State) : Word := s.arg

/-- The check `x[IN_LEN]` ≤ `IN_CAP` (10_state.md R27). -/
def State.inLenInRange (s : State) : Bool := decide (s.inLen.toNat ≤ s.params.inCap)

/-- Stream bit `i` of a byte, 0 ≤ i < 8 (00_scope.md R12): the first is bit 7. -/
def byteStreamBit (b : Byte) (i : Nat) : Bool := b.getLsbD (7 - i)

/-- A byte with its stream bit `i` set to `v` (00_scope.md R12, 40_bitstream.md R113). -/
def setByteStreamBit (b : Byte) (i : Nat) (v : Bool) : Byte :=
  if v then b ||| (1#8 <<< (7 - i)) else b &&& ~~~(1#8 <<< (7 - i))

/-- Byte `j` of a 32-bit value counted from the most significant (20_memory.md R71, 40_bitstream.md R115). -/
def bigEndianByte (v : Word) (j : Nat) : Byte := v.extractLsb' (24 - 8 * j) 8

/-- One bit as the low bit of a byte (40_bitstream.md R111). -/
def bitAsByte (b : Bool) : Byte := if b then 1 else 0

end Sys2Proof.Machine
end

