-- ==== Sys2Proof/Machine/Ops.lean ====
section
/-! DEFINITION. The shared operations: byte memories, the reader and writer primitives of 40_bitstream.md R110 to R115,
the tables and the trie, and the life of a command: issue (60_exceptions.md R240), checks (R249), completion (R241),
error (R245, R246) and RESET (70_reset_and_hazards.md R280). -/

namespace Sys2Proof.Machine

/-! ### Byte memories -/

/-- The defined byte at address `k`, if one is listed. -/
def cellsFind : List Host.Cell → Nat → Option Byte
  | [], _ => none
  | (a, b) :: rest, k => if a = k then some b else cellsFind rest k

/-- The cells with the byte `b` at address `k`, kept in rising order. -/
def cellsPut : List Host.Cell → Nat → Byte → List Host.Cell
  | [], k, b => [(k, b)]
  | (a, c) :: rest, k, b =>
    if k < a then (k, b) :: (a, c) :: rest
    else if k = a then (k, b) :: rest
    else (a, c) :: cellsPut rest k b

/-- Whether every address is greater than `lo` (when there is one) and the addresses rise strictly. -/
def cellsRise : Option Nat → List Host.Cell → Bool
  | _, [] => true
  | none, (a, _) :: rest => cellsRise (some a) rest
  | some lo, (a, _) :: rest => decide (lo < a) && cellsRise (some a) rest

/-- The ONE canonical form (notes/assumptions/4.md): addresses strictly rising. An unlisted byte holds no defined
value, so no entry can equal it. -/
def Memory.wf (m : Memory) : Bool := cellsRise none m.cells

/-- Whether every listed address is below `cap` (10_state.md R42, R43). -/
def Memory.below (m : Memory) (cap : Nat) : Bool := m.cells.all (fun c => decide (c.1 < cap))

/-- What an unlisted address reads as: the unspecified value its fill gave it (10_state.md R47,
70_reset_and_hazards.md R280). -/
def Memory.unlisted (m : Memory) (k : Nat) : Byte := Config.freeByte m.fill k

/-- Byte `k` of a memory. -/
def Memory.read (m : Memory) (k : Nat) : Byte := (cellsFind m.cells k).getD (m.unlisted k)

/-- Byte `k` becomes `b`. -/
def Memory.write (m : Memory) (k : Nat) (b : Byte) : Memory := { m with cells := cellsPut m.cells k b }

/-- Stream bit `p` of a memory (00_scope.md R12): bit 7 - (p mod 8) of byte p div 8. -/
def Memory.streamBit (m : Memory) (p : Nat) : Bool := byteStreamBit (m.read (p / 8)) (p % 8)

/-! ### Reader primitives. `none` is the mark EXHAUSTED (00_scope.md R14); the second component is RD_POS after. -/

/-- `rd_bit()` (40_bitstream.md R110). -/
def rdBit (m : Memory) (rdEnd pos : Word) : Option Bool × Word :=
  if pos = rdEnd then (none, pos) else (some (m.streamBit pos.toNat), pos + 1)

/-- The loop of `rd_bits(n)` (40_bitstream.md R111) with `n` bits to go and the value `v` so far. -/
def rdBitsFrom (m : Memory) (rdEnd : Word) : Nat → Byte → Word → Option Byte × Word
  | 0, v, pos => (some v, pos)
  | n + 1, v, pos =>
    match rdBit m rdEnd pos with
    | (none, p) => (none, p)
    | (some b, p) => rdBitsFrom m rdEnd n ((v <<< 1) ||| bitAsByte b) p

/-- `rd_bits(n)` (40_bitstream.md R111). -/
def rdBits (m : Memory) (rdEnd : Word) (n : Nat) (pos : Word) : Option Byte × Word := rdBitsFrom m rdEnd n 0 pos

/-- The loop of `rd_u32be()` (40_bitstream.md R112) with `n` bytes to go and the value `v` so far. -/
def rdBytesFrom (m : Memory) (rdEnd : Word) : Nat → Word → Word → Option Word × Word
  | 0, v, pos => (some v, pos)
  | n + 1, v, pos =>
    match rdBits m rdEnd 8 pos with
    | (none, p) => (none, p)
    | (some c, p) => rdBytesFrom m rdEnd n ((v <<< 8) ||| c.setWidth 32) p

/-- `rd_u32be()` (40_bitstream.md R112). -/
def rdU32be (m : Memory) (rdEnd pos : Word) : Option Word × Word := rdBytesFrom m rdEnd 4 0 pos

/-! ### Writer primitives. `none` is OUT_OVERFLOW: the writer is then emptied (60_exceptions.md R246), so no partial
writer is kept. -/

/-- `wr_bit(b)` (40_bitstream.md R113): a byte is cleared when its first bit is written. -/
def wrBit (outCap : Nat) (b : Bool) (w : Writer) : Option Writer :=
  if w.pos.toNat = 8 * outCap then none
  else
    let p := w.pos.toNat
    let old := if p % 8 = 0 then 0 else w.mem.read (p / 8)
    some ⟨w.pos + 1, w.mem.write (p / 8) (setByteStreamBit old (p % 8) b)⟩

/-- `wr_bits(n, v)` (40_bitstream.md R114): v[n-1] first, v[0] last. -/
def wrBits (outCap : Nat) : Nat → Byte → Writer → Option Writer
  | 0, _, w => some w
  | n + 1, v, w =>
    match wrBit outCap (v.getLsbD n) w with
    | none => none
    | some w' => wrBits outCap n v w'

/-- The loop of `wr_u32be(v)` (40_bitstream.md R115) with `n` bytes to go. -/
def wrBytesFrom (outCap : Nat) (v : Word) : Nat → Writer → Option Writer
  | 0, w => some w
  | n + 1, w =>
    match wrBits outCap 8 (bigEndianByte v (3 - n)) w with
    | none => none
    | some w' => wrBytesFrom outCap v n w'

/-- `wr_u32be(v)` (40_bitstream.md R115): four big-endian bytes. -/
def wrU32be (outCap : Nat) (v : Word) (w : Writer) : Option Writer := wrBytesFrom outCap v 4 w

/-- A sequence of `wr_bit` calls, first bit first (the code bits of 45_payload_codec.md R200). -/
def wrSeq (outCap : Nat) : List Bool → Writer → Option Writer
  | [], w => some w
  | b :: bs, w =>
    match wrBit outCap b w with
    | none => none
    | some w' => wrSeq outCap bs w'

/-- The writer as the state holds it. -/
def State.writer (s : State) : Writer := ⟨s.wrPos, s.outMem⟩

/-- The state with the writer `w`. -/
def State.setWriter (s : State) (w : Writer) : State := { s with wrPos := w.pos, outMem := w.mem }

/-! ### Tables and trie -/

/-- `FREQ[v]` as the Core reads it; a counter nothing has written is a free value (10_state.md R38). -/
def State.freqAt (s : State) (v : Nat) : Word := s.freq[v]?.getD (Config.freeCount s.draws v)

/-- `CODE[v]` as the Core reads it; an entry nothing has written is a free value (10_state.md R39). -/
def State.codeAt (s : State) (v : Nat) : CodeEntry :=
  s.code[v]?.getD ⟨(Config.freeCode s.draws v).1, (Config.freeCode s.draws v).2⟩

/-- `freq(i)` (00_scope.md R15). -/
def Node.freq : Node → Word
  | .leaf _ f => f
  | .internal f _ _ => f

/-- The tree below arena index `i` (10_state.md R41), with `depth` levels allowed; `none` when an index leaves the
arena or the levels run out, which a proper trie never does. -/
def readTrie : (depth : Nat) → List Node → Nat → Option Trie
  | 0, _, _ => none
  | depth + 1, ns, i =>
    match ns[i]? with
    | none => none
    | some (.leaf s _) => some (.leaf s)
    | some (.internal _ l r) =>
      match readTrie depth ns l with
      | none => none
      | some a =>
        match readTrie depth ns r with
        | none => none
        | some b => some (.node a b)

/-- The current trie: the tree below `NODE[ROOT]` (10_state.md R41). A trie of n nodes has fewer than n + 1 levels. -/
def State.trie? (s : State) : Option Trie := readTrie s.node.length s.node s.root.toNat

/-- The number of nodes of a trie. -/
def Trie.size : Trie → Nat
  | .leaf _ => 1
  | .node l r => 1 + l.size + r.size

/-- The number of leaves of a trie. -/
def Trie.leaves : Trie → Nat
  | .leaf _ => 1
  | .node l r => l.leaves + r.leaves

/-! ### The life of a command -/

/-- What a command's body ends in: its effect, a raised error with the state so far (60_exceptions.md R245), or a
broken arena. -/
inductive Ran where
  | ok (s : State)
  | error (c : ErrCode) (s : State)
  | stuck (f : Fault)
  deriving DecidableEq, Repr

/-- One body after another (46_orchestrator.md R220, R222): a raise ends the command at once (R245). -/
def Ran.andThen (r : Ran) (k : State → Ran) : Ran :=
  match r with
  | .ok s => k s
  | .error c s => .error c s
  | .stuck f => .stuck f

/-- The issue of command word `w` (60_exceptions.md R240). -/
def State.issue (s : State) (w : Word) : State := { s with cmd := w, status := s.status.issued }

/-- The completion of a command (60_exceptions.md R241). The draw counter moves on (notes/assumptions/5.md). -/
def State.complete (s : State) : State := { s with status := s.status.completed, draws := s.draws + 1 }

/-- `raise Error(c)` and the completion that follows (60_exceptions.md R245). It takes the place of an exception entry:
nothing is saved and control goes nowhere (R254). -/
def State.raise (s : State) (c : ErrCode) : State := ({ s with status := s.status.failed c }).complete

/-- The writer emptied after an execution error (60_exceptions.md R246): OUT_MEM holds unspecified values. -/
def State.emptyWriter (s : State) : State :=
  { s with wrPos := 0, valid := { s.valid with wr := true, wrDumped := false }, outMem := ⟨[], 2 * s.draws + 1⟩ }

/-- The start-time checks in the order of 60_exceptions.md R249: the valid flags (BAD_STATE), then IN_RANGE where the
command has it. A failed check changes only STATUS. -/
def guarded (s : State) (flags : List Bool) (range : Bool) (body : Host.Outcome State Fault Refusal) :
    Host.Outcome State Fault Refusal :=
  if flags.all id then
    if range then body else .next (s.raise .inRange)
  else .next (s.raise .badState)

/-- The end of a command that does not write the writer (60_exceptions.md R244, last column). -/
def Ran.finish : Ran → Host.Outcome State Fault Refusal
  | .ok s => .next s.complete
  | .error c s => .next (s.raise c)
  | .stuck f => .fault f

/-- The end of a command that writes the writer: an execution error empties it (60_exceptions.md R246). -/
def Ran.finishWriter : Ran → Host.Outcome State Fault Refusal
  | .ok s => .next s.complete
  | .error c s => .next (s.emptyWriter.raise c)
  | .stuck f => .fault f

/-- `STATUS.EXH <- 1` when a read was exhausted (40_bitstream.md R110). -/
def State.noteExhausted (s : State) (exhausted : Bool) : State :=
  { s with status := { s.status with exh := s.status.exh || exhausted } }

/-- RESET (70_reset_and_hazards.md R280, R281): every register takes its reset value, every memory and table is
unspecified by a fresh draw. The parameters and the host's further moves stay (notes/assumptions/14.md). -/
def State.applyReset (s : State) : State :=
  { State.reset with
    params := s.params
    inMem := ⟨[], 2 * s.draws⟩
    outMem := ⟨[], 2 * s.draws + 1⟩
    host := s.host
    draws := s.draws + 1 }

end Sys2Proof.Machine
end

