-- ==== Sys2Proof/Machine/CodeTable.lean ====
section
/-! DEFINITION. The code-table builder (44_code_table.md R190 to R192). -/

namespace Sys2Proof.Machine

/-- The table of 256 absent entries (44_code_table.md R190). -/
def absentCodes : List CodeEntry := List.replicate 256 ⟨false, []⟩

/-- `walk(i, path)` (44_code_table.md R190): depth first, left before right, so the last leaf of a repeated byte value
wins (R192); `none` is CODE_TOO_LONG. -/
def walkCodes : Trie → List Bool → List CodeEntry → Option (List CodeEntry)
  | .leaf sym, path, t => if path.length > Config.codeMax then none else some (t.set sym.toNat ⟨true, path⟩)
  | .node l r, path, t =>
    match walkCodes l (path ++ [false]) t with
    | none => none
    | some t1 => walkCodes r (path ++ [true]) t1

/-- Body of CODE_BUILD (44_code_table.md R190); after CODE_TOO_LONG CODE is unspecified (60_exceptions.md R247). -/
def codeBuildBody (s : State) : Ran :=
  match s.trie? with
  | none => .stuck .arenaNotTrie
  | some t =>
    match walkCodes t [] absentCodes with
    | none => .error .codeTooLong { s with code := [], valid := { s.valid with code := false } }
    | some c => .ok { s with code := c, valid := { s.valid with code := true } }

/-- CODE_BUILD (44_code_table.md R190). -/
def execCodeBuild (s : State) : Host.Outcome State Fault Refusal :=
  guarded s [s.valid.trie] true (codeBuildBody s).finish

end Sys2Proof.Machine
end

