-- ==== Sys2Proof/Machine/Frequency.lean ====
section
/-! DEFINITION. The frequency analyzer (41_frequency.md R140). -/

namespace Sys2Proof.Machine

/-- `FREQ[b] <- FREQ[b] + 1` (41_frequency.md R140), 32-bit counters. -/
def bumpCount (t : List Word) (b : Byte) : List Word := t.modify b.toNat (· + 1)

/-- The counting loop (41_frequency.md R140): `n` bytes to go, the next one `IN[k]`. -/
def countFrom (m : Memory) : (n k : Nat) → List Word → List Word
  | 0, _, t => t
  | n + 1, k, t => countFrom m n (k + 1) (bumpCount t (m.read k))

/-- The table of 256 zero counters (41_frequency.md R140). -/
def zeroCounts : List Word := List.replicate 256 0

/-- Body of FREQ_COUNT (41_frequency.md R140). -/
def freqCountBody (s : State) : Ran :=
  .ok { s with
    freq := countFrom s.inMem s.inLen.toNat 0 zeroCounts
    valid := { s.valid with freq := true } }

/-- FREQ_COUNT (41_frequency.md R140). -/
def execFreqCount (s : State) : Host.Outcome State Fault Refusal :=
  guarded s [] s.inLenInRange (freqCountBody s).finish

end Sys2Proof.Machine
end

