-- ==== Sys2Proof/Machine/BitStream.lean ====
section
/-! DEFINITION. The nine commands of the bit-stream reader and writer (40_bitstream.md R118 to R126). A "body" is the
rule's pseudocode without its checks, as 46_orchestrator.md uses the word. -/

namespace Sys2Proof.Machine

/-- Body of RD_INIT (40_bitstream.md R118). -/
def rdInitBody (s : State) : Ran :=
  .ok { s with rdPos := 0, rdEnd := 8 * s.inLen, valid := { s.valid with rd := true } }

/-- RD_INIT (40_bitstream.md R118). -/
def execRdInit (s : State) : Host.Outcome State Fault Refusal :=
  guarded s [] s.inLenInRange (rdInitBody s).finish

/-- What RD_BIT, RD_BITS and RD_U32BE leave (40_bitstream.md R117, R119 to R121; 10_state.md R26): the value read or 0
in RESULT, the cursor where the reads stopped, EXH on exhaustion. -/
def State.deliver (s : State) (value : Option Word) (pos : Word) : State :=
  { s.noteExhausted value.isNone with result := value.getD 0, rdPos := pos }

/-- Body of RD_BIT (40_bitstream.md R119). -/
def rdBitBody (s : State) : Ran :=
  let r := rdBit s.inMem s.rdEnd s.rdPos
  .ok (s.deliver (r.1.map fun b => (bitAsByte b).setWidth 32) r.2)

/-- RD_BIT (40_bitstream.md R119). -/
def execRdBit (s : State) : Host.Outcome State Fault Refusal :=
  guarded s [s.valid.rd] true (rdBitBody s).finish

/-- Body of RD_BITS n (40_bitstream.md R120). -/
def rdBitsBody (n : BitVec 4) (s : State) : Ran :=
  let r := rdBits s.inMem s.rdEnd (operandCount n) s.rdPos
  .ok (s.deliver (r.1.map fun v => v.setWidth 32) r.2)

/-- RD_BITS n (40_bitstream.md R120). -/
def execRdBits (n : BitVec 4) (s : State) : Host.Outcome State Fault Refusal :=
  guarded s [s.valid.rd] true (rdBitsBody n s).finish

/-- Body of RD_U32BE (40_bitstream.md R121). -/
def rdU32beBody (s : State) : Ran :=
  let r := rdU32be s.inMem s.rdEnd s.rdPos
  .ok (s.deliver r.1 r.2)

/-- RD_U32BE (40_bitstream.md R121). -/
def execRdU32be (s : State) : Host.Outcome State Fault Refusal :=
  guarded s [s.valid.rd] true (rdU32beBody s).finish

/-- Body of WR_INIT (40_bitstream.md R122): OUT_MEM is not cleared. -/
def wrInitBody (s : State) : Ran :=
  .ok { s with wrPos := 0, valid := { s.valid with wr := true, wrDumped := false } }

/-- WR_INIT (40_bitstream.md R122): no check. -/
def execWrInit (s : State) : Host.Outcome State Fault Refusal :=
  guarded s [] true (wrInitBody s).finish

/-- The end of a body that only writes bits (40_bitstream.md R123 to R125, 43_trie_codec.md R171). -/
def State.wrote (s : State) (w : Option Writer) : Ran :=
  match w with
  | none => .error .outOverflow s
  | some w' => .ok (s.setWriter w')

/-- Body of WR_BIT b (40_bitstream.md R123). -/
def wrBitBody (imm8 : Byte) (s : State) : Ran :=
  s.wrote (wrBit s.params.outCap (operandBit imm8) s.writer)

/-- WR_BIT b (40_bitstream.md R123). -/
def execWrBit (imm8 : Byte) (s : State) : Host.Outcome State Fault Refusal :=
  guarded s [s.valid.wr] true (wrBitBody imm8 s).finishWriter

/-- Body of WR_BITS n, v (40_bitstream.md R124). -/
def wrBitsBody (n : BitVec 4) (imm8 : Byte) (s : State) : Ran :=
  s.wrote (wrBits s.params.outCap (operandCount n) imm8 s.writer)

/-- WR_BITS n, v (40_bitstream.md R124). -/
def execWrBits (n : BitVec 4) (imm8 : Byte) (s : State) : Host.Outcome State Fault Refusal :=
  guarded s [s.valid.wr] true (wrBitsBody n imm8 s).finishWriter

/-- Body of WR_U32BE (40_bitstream.md R125). -/
def wrU32beBody (s : State) : Ran :=
  s.wrote (wrU32be s.params.outCap s.operandArg s.writer)

/-- WR_U32BE (40_bitstream.md R125). -/
def execWrU32be (s : State) : Host.Outcome State Fault Refusal :=
  guarded s [s.valid.wr] true (wrU32beBody s).finishWriter

/-- Body of WR_DUMP (40_bitstream.md R126): it writes no bits. -/
def wrDumpBody (s : State) : Ran :=
  .ok { s with valid := { s.valid with wr := false, wrDumped := true } }

/-- WR_DUMP (40_bitstream.md R126). -/
def execWrDump (s : State) : Host.Outcome State Fault Refusal :=
  guarded s [s.valid.wr] true (wrDumpBody s).finish

end Sys2Proof.Machine
end

