-- ==== Sys2Proof/Machine/Payload.lean ====
section
/-! DEFINITION. The payload codec (45_payload_codec.md R200 to R204). -/

namespace Sys2Proof.Machine

/-- What the encoding loop ends in (45_payload_codec.md R200). -/
inductive Enc where
  | done (w : Writer)
  | fail (c : ErrCode)
  deriving DecidableEq, Repr

/-- The loop of PAYLOAD_ENC (45_payload_codec.md R200): `n` bytes to go, the next one `IN[k]`. -/
def encFrom (m : Memory) (codeAt : Nat → CodeEntry) (outCap : Nat) : (n k : Nat) → Writer → Enc
  | 0, _, w => .done w
  | n + 1, k, w =>
    if (codeAt (m.read k).toNat).present then
      match wrSeq outCap (codeAt (m.read k).toNat).bits w with
      | none => .fail .outOverflow
      | some w1 => encFrom m codeAt outCap n (k + 1) w1
    else .fail .missingCode

/-- Body of PAYLOAD_ENC (45_payload_codec.md R200). -/
def payloadEncBody (s : State) : Ran :=
  match wrU32be s.params.outCap s.inLen s.writer with
  | none => .error .outOverflow s
  | some w =>
    match encFrom s.inMem s.codeAt s.params.outCap s.inLen.toNat 0 w with
    | .fail c => .error c s
    | .done w1 => .ok (s.setWriter w1)

/-- PAYLOAD_ENC (45_payload_codec.md R200). -/
def execPayloadEnc (s : State) : Host.Outcome State Fault Refusal :=
  guarded s [s.valid.wr, s.valid.code] s.inLenInRange (payloadEncBody s).finishWriter

/-- One walk from a node to a leaf (45_payload_codec.md R202): "bit 0 → left, bit 1 → right". A leaf reads no bit (R203). -/
def walkDown (m : Memory) (rdEnd : Word) : Trie → Word → Option Byte × Word
  | .leaf sym, pos => (some sym, pos)
  | .node l r, pos =>
    match rdBit m rdEnd pos with
    | (none, p) => (none, p)
    | (some false, p) => walkDown m rdEnd l p
    | (some true, p) => walkDown m rdEnd r p

/-- What the decoding loop ends in (45_payload_codec.md R202), with RD_POS. -/
inductive Dec where
  | done (pos : Word) (w : Writer)
  | fail (c : ErrCode) (pos : Word)
  deriving DecidableEq, Repr

/-- The loop of PAYLOAD_DEC (45_payload_codec.md R202) with `n` symbols to go. -/
def decFrom (m : Memory) (rdEnd : Word) (outCap : Nat) (t : Trie) : (n : Nat) → Word → Writer → Dec
  | 0, pos, w => .done pos w
  | n + 1, pos, w =>
    match walkDown m rdEnd t pos with
    | (none, p) => .fail .corruptStream p
    | (some sym, p) =>
      match wrBits outCap 8 sym w with
      | none => .fail .outOverflow p
      | some w1 => decFrom m rdEnd outCap t n p w1

/-- Body of PAYLOAD_DEC (45_payload_codec.md R202): DEC_LEN is 0 until the length is read (10_state.md R32). -/
def payloadDecBody (s : State) : Ran :=
  match rdU32be s.inMem s.rdEnd s.rdPos with
  | (none, p) => .error .corruptStream { s.noteExhausted true with decLen := 0, rdPos := p }
  | (some len, p) =>
    match s.trie? with
    | none => .stuck .arenaNotTrie
    | some t =>
      match decFrom s.inMem s.rdEnd s.params.outCap t len.toNat p s.writer with
      | .fail c p1 => .error c { s.noteExhausted (decide (c = .corruptStream)) with decLen := len, rdPos := p1 }
      | .done p1 w => .ok { s.setWriter w with decLen := len, rdPos := p1 }

/-- PAYLOAD_DEC (45_payload_codec.md R202). -/
def execPayloadDec (s : State) : Host.Outcome State Fault Refusal :=
  guarded s [s.valid.wr, s.valid.rd, s.valid.trie] true (payloadDecBody s).finishWriter

end Sys2Proof.Machine
end

