-- ==== Sys2Proof/Machine/TrieBuilder.lean ====
section
/-! DEFINITION. The priority-queue trie builder (42_trie_builder.md R150 to R155). -/

namespace Sys2Proof.Machine

/-- An element of the priority queue: an arena index with its frequency (42_trie_builder.md R153). -/
structure QItem where
  freq : Word
  idx : Nat
  deriving DecidableEq, Repr

/-- `make_leaves()` (42_trie_builder.md R151): one leaf per non-zero counter, in ascending byte order. -/
def makeLeaves (freqAt : Nat → Word) : List Node :=
  (List.range 256).filterMap fun v => if freqAt v = 0 then none else some (.leaf (BitVec.ofNat 8 v) (freqAt v))

/-- Whether `a` comes before `b` under `INDEX` (42_trie_builder.md R154): by frequency, then by arena index. -/
def QItem.before (a b : QItem) : Bool :=
  decide (a.freq.toNat < b.freq.toNat) || (decide (a.freq = b.freq) && decide (a.idx < b.idx))

/-- The least element of `x :: xs` under `INDEX` (42_trie_builder.md R154). -/
def leastItem (x : QItem) : List QItem → QItem
  | [] => x
  | y :: ys => leastItem (if y.before x then y else x) ys

/-- The queue without the element of arena index `i`. -/
def dropItem (i : Nat) : List QItem → List QItem
  | [] => []
  | y :: ys => if y.idx = i then ys else y :: dropItem i ys

/-- The element a pop takes from the non-empty queue `x :: xs`. Under `INDEX` the least (R154); under `ANY` any element
of least frequency, chosen by the free value of draw `d` and pop number `pop` (R155). -/
def choose (policy : TiePolicy) (d pop : Nat) (x : QItem) (xs : List QItem) : QItem :=
  match policy with
  | .index => leastItem x xs
  | .any =>
    let cands := (x :: xs).filter fun y => decide (y.freq = (leastItem x xs).freq)
    (cands[Config.freePick d pop % cands.length]?).getD (leastItem x xs)

/-- `pop_min(Q)` (42_trie_builder.md R153 to R155). -/
def popMin (policy : TiePolicy) (d pop : Nat) : List QItem → Option (QItem × List QItem)
  | [] => none
  | x :: xs => let y := choose policy d pop x xs; some (y, dropItem y.idx (x :: xs))

/-- Whether a merge takes the first popped node as its RIGHT child: never under `INDEX`, either way under `ANY` (R155). -/
def swaps (policy : TiePolicy) (d merge : Nat) : Bool :=
  match policy with
  | .index => false
  | .any => Config.freeSwap d merge

/-- The internal node of a merge of `a`, popped first, and `b` (42_trie_builder.md R153, R156). -/
def mergeNode (swap : Bool) (a b : QItem) : Node :=
  if swap then .internal (a.freq + b.freq) b.idx a.idx else .internal (a.freq + b.freq) a.idx b.idx

/-- The loop of `merge_all` (42_trie_builder.md R153): at most `k` merges on the queue `q` and the arena `ns`, whose
length is the next free index m. -/
def mergeFrom (policy : TiePolicy) (d : Nat) : (k : Nat) → List QItem → List Node → List Node
  | 0, _, ns => ns
  | k + 1, q, ns =>
    match popMin policy d (2 * ns.length) q with
    | none => ns
    | some (a, q1) =>
      match popMin policy d (2 * ns.length + 1) q1 with
      | none => ns
      | some (b, q2) =>
        mergeFrom policy d k (q2 ++ [⟨a.freq + b.freq, ns.length⟩])
          (ns ++ [mergeNode (swaps policy d ns.length) a b])

/-- The queue of the leaves `ns`, whose first has arena index `i`: `{0, 1, ..., n-1}` for `i` = 0 (42_trie_builder.md R153). -/
def leafQueue : (i : Nat) → List Node → List QItem
  | _, [] => []
  | i, n :: ns => ⟨n.freq, i⟩ :: leafQueue (i + 1) ns

/-- `merge_all(n)` (42_trie_builder.md R153): n leaves need n - 1 merges. -/
def mergeAll (policy : TiePolicy) (d : Nat) (leaves : List Node) : List Node :=
  mergeFrom policy d (leaves.length - 1) (leafQueue 0 leaves) leaves

/-- The arena TRIE_BUILD makes (42_trie_builder.md R150 to R153): the placeholder leaf when every counter is 0. -/
def buildArena (p : Params) (d : Nat) (freqAt : Nat → Word) : List Node :=
  match makeLeaves freqAt with
  | [] => [.leaf p.placeholderSym 0]
  | n :: ns => mergeAll p.tiePolicy d (n :: ns)

/-- Body of TRIE_BUILD (42_trie_builder.md R150): the root is the last node made (R153, R157). -/
def trieBuildBody (s : State) : Ran :=
  let ns := buildArena s.params s.draws s.freqAt
  .ok { s with
    node := ns
    nodeCount := BitVec.ofNat 32 ns.length
    root := BitVec.ofNat 32 (ns.length - 1)
    valid := { s.valid with trie := true, code := false } }

/-- TRIE_BUILD (42_trie_builder.md R150). -/
def execTrieBuild (s : State) : Host.Outcome State Fault Refusal :=
  guarded s [s.valid.freq] true (trieBuildBody s).finish

end Sys2Proof.Machine
end

