-- ==== Sys2Proof/Machine/TrieCodec.lean ====
section
/-! DEFINITION. The trie codec (43_trie_codec.md R170 to R175). -/

namespace Sys2Proof.Machine

/-- `ser(i)` (43_trie_codec.md R171): pre-order, a leaf as bit 1 and its 8-bit value, an internal node as bit 0. -/
def serTrie (outCap : Nat) : Trie → Writer → Option Writer
  | .leaf sym, w =>
    match wrBit outCap true w with
    | none => none
    | some w1 => wrBits outCap 8 sym w1
  | .node l r, w =>
    match wrBit outCap false w with
    | none => none
    | some w1 =>
      match serTrie outCap l w1 with
      | none => none
      | some w2 => serTrie outCap r w2

/-- Body of TRIE_SER (43_trie_codec.md R171). -/
def trieSerBody (s : State) : Ran :=
  match s.trie? with
  | none => .stuck .arenaNotTrie
  | some t => s.wrote (serTrie s.params.outCap t s.writer)

/-- TRIE_SER (43_trie_codec.md R171). -/
def execTrieSer (s : State) : Host.Outcome State Fault Refusal :=
  guarded s [s.valid.wr, s.valid.trie] true (trieSerBody s).finishWriter

/-- What `des()` ends in (43_trie_codec.md R172): the nodes of the subtree in pre-order and RD_POS, or the error and
RD_POS where the reads stopped (60_exceptions.md R248). -/
inductive Des where
  | done (nodes : List Node) (pos : Word)
  | fail (c : ErrCode) (pos : Word)
  deriving DecidableEq, Repr

/-- `des()` (43_trie_codec.md R172) with `cnt` nodes allocated before it; the subtree takes the indices from `cnt` on, in
pre-order (R173). Each level allocates a node before it goes down, so `depth` = NODE_CAP + 1 levels never run out
before the capacity check (notes/assumptions/17.md). -/
def desTrie (m : Memory) (rdEnd : Word) (nodeCap : Nat) : (depth cnt : Nat) → (pos : Word) → Des
  | 0, _, pos => .fail .nodeOverflow pos
  | depth + 1, cnt, pos =>
    match rdBit m rdEnd pos with
    | (none, p) => .fail .corruptStream p
    | (some t, p) =>
      if cnt = nodeCap then .fail .nodeOverflow p
      else if t then
        match rdBits m rdEnd 8 p with
        | (none, p1) => .fail .corruptStream p1
        | (some sym, p1) => .done [.leaf sym 0] p1
      else
        match desTrie m rdEnd nodeCap depth (cnt + 1) p with
        | .fail c p1 => .fail c p1
        | .done ls p1 =>
          match desTrie m rdEnd nodeCap depth (cnt + 1 + ls.length) p1 with
          | .fail c p2 => .fail c p2
          | .done rs p2 => .done (.internal 0 (cnt + 1) (cnt + 1 + ls.length) :: (ls ++ rs)) p2

/-- The state TRIE_DESER and EXTRACT start a trie from (43_trie_codec.md R172): flags and counts cleared, NODE
unspecified until it is complete (60_exceptions.md R247). -/
def State.beginTrie (s : State) : State :=
  { s with node := [], nodeCount := 0, root := 0, valid := { s.valid with trie := false, code := false } }

/-- Body of TRIE_DESER (43_trie_codec.md R172): EXH is set exactly when the error is the exhausted reader (40_bitstream.md R110).
It writes no DEC_LEN, neither in TRIE_DESER nor in EXTRACT (notes/assumptions/22.md). -/
def trieDeserBody (s : State) : Ran :=
  match desTrie s.inMem s.rdEnd s.params.nodeCap (s.params.nodeCap + 1) 0 s.rdPos with
  | .fail c pos => .error c { s.beginTrie.noteExhausted (decide (c = .corruptStream)) with rdPos := pos }
  | .done ns pos =>
    .ok { s with
      node := ns
      nodeCount := BitVec.ofNat 32 ns.length
      root := 0
      rdPos := pos
      valid := { s.valid with trie := true, code := false } }

/-- TRIE_DESER (43_trie_codec.md R172). -/
def execTrieDeser (s : State) : Host.Outcome State Fault Refusal :=
  guarded s [s.valid.rd] true (trieDeserBody s).finish

end Sys2Proof.Machine
end

