-- ==== Sys2Proof/Machine/Orchestrator.lean ====
section
/-! DEFINITION. COMPRESS and EXTRACT (46_orchestrator.md R220, R222): the bodies of the component commands in a fixed
order, without their checks. -/

namespace Sys2Proof.Machine

/-- Body of COMPRESS (46_orchestrator.md R220). -/
def compressBody (s : State) : Ran :=
  (((((((freqCountBody s).andThen trieBuildBody).andThen codeBuildBody).andThen wrInitBody).andThen
    trieSerBody).andThen payloadEncBody).andThen wrDumpBody)

/-- COMPRESS (46_orchestrator.md R220). -/
def execCompress (s : State) : Host.Outcome State Fault Refusal :=
  guarded s [] s.inLenInRange (compressBody s).finishWriter

/-- Body of EXTRACT (46_orchestrator.md R222). Only its PAYLOAD_DEC body writes DEC_LEN (45_payload_codec.md R202), so an
error inside the trie leaves DEC_LEN as it was: the pseudocode decides (60_exceptions.md R248; 90_conflicts.md C9;
92_eei_decisions.md D21). DEDUCED, because R32 and a clause of R248 can be read as 0 (notes/assumptions/22.md). -/
def extractBody (s : State) : Ran :=
  (((((rdInitBody s).andThen wrInitBody).andThen trieDeserBody).andThen payloadDecBody).andThen wrDumpBody)

/-- EXTRACT (46_orchestrator.md R222). -/
def execExtract (s : State) : Host.Outcome State Fault Refusal :=
  guarded s [] s.inLenInRange (extractBody s).finishWriter

end Sys2Proof.Machine
end

