-- ==== Sys2Proof/Machine/Dispatch.lean ====
section
/-! DEFINITION. One arm per command (30_encoding.md R95): exec i s is the Core's completion step of the decoded command
i (60_exceptions.md R241). -/

namespace Sys2Proof.Machine

def exec (i : Instr) (s : State) : Host.Outcome State Fault Refusal :=
  match i with
  | .rdInit => Sys2Proof.Machine.execRdInit s
  | .rdBit => Sys2Proof.Machine.execRdBit s
  | .rdBits n => Sys2Proof.Machine.execRdBits n s
  | .rdU32be => Sys2Proof.Machine.execRdU32be s
  | .wrInit => Sys2Proof.Machine.execWrInit s
  | .wrBit imm8 => Sys2Proof.Machine.execWrBit imm8 s
  | .wrBits n imm8 => Sys2Proof.Machine.execWrBits n imm8 s
  | .wrU32be => Sys2Proof.Machine.execWrU32be s
  | .wrDump => Sys2Proof.Machine.execWrDump s
  | .freqCount => Sys2Proof.Machine.execFreqCount s
  | .trieBuild => Sys2Proof.Machine.execTrieBuild s
  | .trieSer => Sys2Proof.Machine.execTrieSer s
  | .trieDeser => Sys2Proof.Machine.execTrieDeser s
  | .codeBuild => Sys2Proof.Machine.execCodeBuild s
  | .payloadEnc => Sys2Proof.Machine.execPayloadEnc s
  | .payloadDec => Sys2Proof.Machine.execPayloadDec s
  | .compress => Sys2Proof.Machine.execCompress s
  | .extract => Sys2Proof.Machine.execExtract s

end Sys2Proof.Machine
end

