-- ==== Sys2Proof/Machine/HostPort.lean ====
section
/-! DEFINITION. The host bus port (20_memory.md R60 to R83; 10_state.md R20 to R45): the address map, access checks, reads
and writes, and whose turn the next step is. -/

namespace Sys2Proof.Machine

/-! ### Address map and responses -/

/-- The regions of the address map (20_memory.md R61). -/
inductive Region where
  | regs
  | freqWindow
  | codeWindow
  | nodeWindow
  | reserved
  | inWindow
  | outWindow
  | unmapped
  deriving DecidableEq, Repr

/-- The region of an offset (20_memory.md R61). -/
def regionOf (off : Nat) : Region :=
  if off < 0x1000 then .regs
  else if off < 0x1400 then .freqWindow
  else if off < 0x2000 then .reserved
  else if off < 0x6000 then .codeWindow
  else if off < 0x8000 then .reserved
  else if off < 0x10000 then .nodeWindow
  else if off < 0x1000000 then .unmapped
  else if off < 0x2000000 then .inWindow
  else if off < 0x3000000 then .outWindow
  else .unmapped

/-- The number of bytes of an access. -/
def Size.bytes : Size → Nat
  | .byte => 1
  | .half => 2
  | .word => 4

/-- The response to an access of `size` at `off` (20_memory.md R62, R64, R65, R67). -/
def respOf (size : Size) (off : Nat) : Resp :=
  match regionOf off with
  | .unmapped => .decerr
  | .inWindow | .outWindow => if off % size.bytes = 0 then .okay else .slverr
  | .regs | .freqWindow | .codeWindow | .nodeWindow | .reserved =>
    if size = .word ∧ off % 4 = 0 then .okay else .slverr

/-- The offset of a bus address from `BLOCK_BASE` (20_memory.md R60, R61; notes/assumptions/20.md). -/
def State.offset (s : State) (addr : Word) : Nat := (addr - s.params.blockBase).toNat

/-! ### Registers -/

/-- The registers of 10_state.md R20. -/
inductive RegName where
  | id
  | cmd
  | status
  | arg
  | result
  | inLen
  | outLen
  | rdPos
  | rdEnd
  | wrPos
  | decLen
  | valid
  | nodeCount
  | root
  | irqEn
  | inCap
  | outCap
  | nodeCap
  deriving DecidableEq, Repr

/-- The registers in the order of 10_state.md R20, one every 4 bytes from offset 0. -/
def regOrder : List RegName :=
  [.id, .cmd, .status, .arg, .result, .inLen, .outLen, .rdPos, .rdEnd, .wrPos, .decLen, .valid, .nodeCount, .root,
   .irqEn, .inCap, .outCap, .nodeCap]

/-- The register at an aligned offset below 0x1000 (10_state.md R20); `none` is reserved (R36). -/
def regAt (off : Nat) : Option RegName := regOrder[off / 4]?

/-- `OUT_LEN` (10_state.md R28): the bytes the writer has begun. -/
def State.outLen (s : State) : Nat := (s.wrPos.toNat + 7) / 8

/-- The value of a register (10_state.md R20 to R35). -/
def State.regValue (s : State) : RegName → Word
  | .id => Config.idWord
  | .cmd => s.cmd
  | .status => s.status.word
  | .arg => s.arg
  | .result => s.result
  | .inLen => s.inLen
  | .outLen => BitVec.ofNat 32 s.outLen
  | .rdPos => s.rdPos
  | .rdEnd => s.rdEnd
  | .wrPos => s.wrPos
  | .decLen => s.decLen
  | .valid => s.valid.word
  | .nodeCount => s.nodeCount
  | .root => s.root
  | .irqEn => s.irqEn.word
  | .inCap => BitVec.ofNat 32 s.params.inCap
  | .outCap => BitVec.ofNat 32 s.params.outCap
  | .nodeCap => BitVec.ofNat 32 s.params.nodeCap

/-- The registers that read unspecified values while BUSY = 1 (20_memory.md R83, first group). -/
def RegName.coreWritten : RegName → Bool
  | .result | .outLen | .rdPos | .rdEnd | .wrPos | .decLen | .valid | .nodeCount | .root => true
  | .id | .cmd | .status | .arg | .inLen | .irqEn | .inCap | .outCap | .nodeCap => false

/-- A fresh unspecified word (notes/assumptions/6.md). -/
def State.freeRead (s : State) : Word := Config.freeWord s.draws

/-- A register read (20_memory.md R83; 10_state.md R36). -/
def State.readReg (s : State) (off : Nat) : Word :=
  match regAt off with
  | none => 0
  | some r => if s.status.busy && r.coreWritten then s.freeRead else s.regValue r

/-! ### Windows -/

/-- A word of the FREQ window (10_state.md R38, R45; 20_memory.md R83). -/
def State.readFreqWindow (s : State) (off : Nat) : Word :=
  if s.status.busy || !s.valid.freq then s.freeRead else s.freqAt ((off - 0x1000) / 4)

/-- Word `j` (0..7) of the code bits (10_state.md R39): code bit i is bit 31 - (i mod 32) of word i div 32; `n` bits of
the word are still to be placed. -/
def codeBitsWord (bits : List Bool) (j : Nat) : (n : Nat) → Word
  | 0 => 0
  | n + 1 => flagBit (bits.getD (32 * j + n) false) (31 - n) ||| codeBitsWord bits j n

/-- Word `j` of a CODE entry (10_state.md R39). -/
def codeEntryWord (e : CodeEntry) (j : Nat) : Word :=
  if j = 0 then flagBit e.present 31 ||| (BitVec.ofNat 8 e.bits.length).setWidth 32
  else if j ≤ 8 then codeBitsWord e.bits (j - 1) 32
  else 0

/-- A word of the CODE window (10_state.md R39, R45; 20_memory.md R83). -/
def State.readCodeWindow (s : State) (off : Nat) : Word :=
  if s.status.busy || !s.valid.code then s.freeRead
  else codeEntryWord (s.codeAt ((off - 0x2000) / 64)) ((off - 0x2000) % 64 / 4)

/-- Word `j` of a NODE entry (10_state.md R40). -/
def nodeWord (n : Node) (j : Nat) : Word :=
  match n, j with
  | .leaf _ _, 0 => 1
  | .internal _ _ _, 0 => 0
  | .leaf _ f, 1 => f
  | .internal f _ _, 1 => f
  | .leaf sym _, 2 => sym.setWidth 32
  | .internal _ l _, 2 => BitVec.ofNat 32 l
  | .leaf _ _, _ => 0
  | .internal _ _ r, _ => BitVec.ofNat 32 r

/-- A word of the NODE window (10_state.md R40, R45; 20_memory.md R83): entries past `NODE_CAP` read 0, entries at or
past NODE_COUNT and entries of an invalid trie are unspecified. -/
def State.readNodeWindow (s : State) (off : Nat) : Word :=
  let i := (off - 0x8000) / 16
  if s.status.busy then s.freeRead
  else if s.params.nodeCap ≤ i then 0
  else if !s.valid.trie || decide (s.nodeCount.toNat ≤ i) then s.freeRead
  else
    match s.node[i]? with
    | none => s.freeRead
    | some n => nodeWord n ((off - 0x8000) % 16 / 4)

/-! ### Memories -/

/-- A byte of the IN_MEM window (20_memory.md R64): exact while BUSY too (R83). -/
def State.readIn (s : State) (k : Nat) : Byte := if k < s.params.inCap then s.inMem.read k else 0

/-- Byte `lane` of a fresh unspecified word. -/
def State.freeLane (s : State) (lane : Nat) : Byte := s.freeRead.extractLsb' (8 * lane) 8

/-- A byte of the OUT_MEM window in byte lane `lane` (20_memory.md R65, R83). -/
def State.readOut (s : State) (lane k : Nat) : Byte :=
  if s.status.busy then s.freeLane lane
  else if s.params.outCap ≤ k then 0
  else if s.outLen ≤ k then s.freeLane lane
  else s.outMem.read k

/-- `n` byte lanes assembled little-endian (20_memory.md R69); lane `j` is data bits [8j+7:8j]. -/
def gatherLanes (lane : Nat → Byte) : (n : Nat) → Word
  | 0 => 0
  | n + 1 => gatherLanes lane n ||| ((lane n).setWidth 32 <<< (8 * n))

/-- Byte lane `j` of bus data (20_memory.md R69). -/
def dataLane (v : Word) (j : Nat) : Byte := v.extractLsb' (8 * j) 8

/-- The data of an unspecified read of `size`: the low bytes of a fresh word (notes/assumptions/6.md). -/
def State.freeData (s : State) (size : Size) : Word := gatherLanes s.freeLane size.bytes

/-- The data of a read of `size` at `off` (20_memory.md R61 to R67). -/
def State.readData (s : State) (size : Size) (off : Nat) : Word :=
  match respOf size off with
  | .slverr | .decerr => s.freeData size
  | .okay =>
    match regionOf off with
    | .regs => s.readReg off
    | .freqWindow => s.readFreqWindow off
    | .codeWindow => s.readCodeWindow off
    | .nodeWindow => s.readNodeWindow off
    | .reserved => 0
    | .inWindow => gatherLanes (fun j => s.readIn (off - 0x1000000 + j)) size.bytes
    | .outWindow => gatherLanes (fun j => s.readOut j (off - 0x2000000 + j)) size.bytes
    | .unmapped => s.freeData size

/-! ### Host reads and writes -/

/-- The host takes one bus answer; the draw counter moves on. -/
def State.answered (s : State) (r : Reply) : State := { s with reply := some r, draws := s.draws + 1 }

/-- A host read (20_memory.md R73): nothing of the block changes. -/
def State.hostRead (s : State) (size : Size) (addr : Word) : State :=
  s.answered ⟨respOf size (s.offset addr), some (s.readData size (s.offset addr))⟩

/-- `STATUS.OVR <- 1` (20_memory.md R82). -/
def State.overrun (s : State) : State := { s with status := { s.status with ovr := true } }

/-- `n` bytes stored into IN_MEM from offset `k` (20_memory.md R64, R69): bytes past `IN_CAP` are ignored. -/
def storeIn (cap : Nat) (v : Word) (k : Nat) : (n : Nat) → Memory → Memory
  | 0, m => m
  | n + 1, m =>
    let m1 := storeIn cap v k n m
    if k + n < cap then m1.write (k + n) (dataLane v n) else m1

/-- A write to IN_MEM while BUSY = 1 (20_memory.md R82): dropped, OVR set. Where it touches only window bytes past
`IN_CAP` the spec does not say whether OVR is set: a free value (notes/assumptions/10.md). -/
def State.dropInWrite (s : State) (k : Nat) : State :=
  if k < s.params.inCap || Config.freeOvr s.draws then s.overrun else s

/-- A write to a register (10_state.md R20 to R36; 20_memory.md R63, R82). -/
def State.writeReg (s : State) (off : Nat) (v : Word) : State :=
  match regAt off with
  | some .cmd => if s.status.busy then s.overrun else s.issue v
  | some .status => { s with status := s.status.writeOneToClear v }
  | some .arg => if s.status.busy then s.overrun else { s with arg := v }
  | some .inLen => if s.status.busy then s.overrun else { s with inLen := v }
  | some .irqEn => { s with irqEn := IrqEn.ofWord v }
  | some .id | some .result | some .outLen | some .rdPos | some .rdEnd | some .wrPos | some .decLen | some .valid
  | some .nodeCount | some .root | some .inCap | some .outCap | some .nodeCap => s
  | none => s

/-- The effect of an accepted write (20_memory.md R63 to R65, R82). -/
def State.writeData (s : State) (size : Size) (off : Nat) (v : Word) : State :=
  match regionOf off with
  | .regs => s.writeReg off v
  | .inWindow =>
    if s.status.busy then s.dropInWrite (off - 0x1000000)
    else { s with inMem := storeIn s.params.inCap v (off - 0x1000000) size.bytes s.inMem }
  | .freqWindow | .codeWindow | .nodeWindow | .reserved | .outWindow | .unmapped => s

/-- The response to a write. R62, R64 and R67 give it, but for a misaligned write to OUT_MEM: R65 says a write there is
ignored "with OKAY" and gives SLVERR to misaligned reads only, while 93_implementation_defined.md I-SIZE gives SLVERR
to every misaligned access there, so that one response is a free value (notes/assumptions/21.md). -/
def State.writeResp (s : State) (size : Size) (off : Nat) : Resp :=
  if regionOf off = .outWindow && respOf size off = .slverr && Config.freeOkay s.draws then .okay else respOf size off

/-- A host write: SLVERR and DECERR change nothing (20_memory.md R62, R67, R68). -/
def State.hostWrite (s : State) (size : Size) (addr v : Word) : State :=
  match s.writeResp size (s.offset addr) with
  | .okay => (s.writeData size (s.offset addr) v).answered ⟨.okay, none⟩
  | .slverr => s.answered ⟨.slverr, none⟩
  | .decerr => s.answered ⟨.decerr, none⟩

/-! ### Whose turn it is -/

/-- What the next step is: a move already made outside the Core, or a decoded command to run. -/
inductive Turn where
  | moved (s : State)
  | run (i : Instr) (s : State)
  deriving DecidableEq, Repr

/-- The Core's turn (60_exceptions.md R241): the completion step of an issued command, with ILLEGAL_CMD for an illegal
word (30_encoding.md R97); with BUSY = 0 the block is idle and keeps all its state (R261). -/
def coreTurn (s : State) : Turn :=
  if s.status.busy then
    match decode s.cmd with
    | .ok i => .run i s
    | .error _ => .moved (s.raise .illegalCmd)
  else .moved s

/-- The next move (notes/assumptions/1.md): the host's next event, or the Core's turn when there is none. `wait` is the
polling loop WAIT of 30_encoding.md R102: it gives the Core its turn while BUSY = 1 and ends with the read of STATUS
that sees BUSY = 0. -/
def turn (s : State) : Turn :=
  match s.host with
  | [] => coreTurn s
  | .read size addr :: rest => .moved ({ s with host := rest }.hostRead size addr)
  | .write size addr v :: rest => .moved ({ s with host := rest }.hostWrite size addr v)
  | .reset :: rest => .moved ({ s with host := rest }.applyReset)
  | .coreTurn :: rest => coreTurn { s with host := rest }
  | .wait :: rest =>
    if s.status.busy then coreTurn s
    else .moved ({ s with host := rest }.hostRead .word (s.params.blockBase + 8))

end Sys2Proof.Machine
end

