-- ==== Sys2Proof/Machine/Step.lean ====
section
/-! DEFINITION. One step of the block and its host: the next move of `turn`, a command running through `exec`. -/

namespace Sys2Proof.Machine

/-- One step (00_scope.md R17, 60_exceptions.md R241): one host event or one completion step. -/
def step (s : State) : Host.Outcome State Fault Refusal :=
  match turn s with
  | .moved s' => .next s'
  | .run i s' => exec i s'

/-- The state in which the command word `w` has just been issued (60_exceptions.md R240) and the next move is the
Core's completion step, so that the very next step decodes and runs exactly it (notes/assumptions/2.md). A command is
one 32-bit word (30_encoding.md R90). -/
def State.withFetchWord (s : State) (nbits w : Nat) : State :=
  { s.issue (BitVec.ofNat 32 (w % 2 ^ nbits)) with host := .coreTurn :: s.host }

end Sys2Proof.Machine
end

