-- ==== Sys2Proof/Machine/HostProgram.lean ====
section
/-! DEFINITION. The host-program notation of 30_encoding.md R102 and the pseudo-command WR_U32 of R101, as lists of host
events. -/

namespace Sys2Proof.Machine

/-- A line of a host program (30_encoding.md R101, R102). -/
inductive HostLine where
  | st (size : Size) (off : Word) (v : Word)
  | ld (size : Size) (off : Word)
  | cmd (a : Asm)
  | wait
  | loadIn (bytes : List Byte)
  | wrU32 (v : Word)
  deriving DecidableEq, Repr

/-- `ST off, v` (30_encoding.md R102). -/
def storeEvent (base : Word) (size : Size) (off v : Word) : HostEvent := .write size (base + off) v

/-- The byte stores of `LOADIN` from offset `k` of IN_MEM (30_encoding.md R102). -/
def loadInStores (base : Word) : (k : Nat) → List Byte → List HostEvent
  | _, [] => []
  | k, b :: bs => storeEvent base .byte (0x01000000 + BitVec.ofNat 32 k) (b.setWidth 32) :: loadInStores base (k + 1) bs

/-- The host events of a line (30_encoding.md R101, R102); `none` where the assembler rejects the command. -/
def HostLine.events (base : Word) : HostLine → Option (List HostEvent)
  | .st size off v => some [storeEvent base size off v]
  | .ld size off => some [.read size (base + off)]
  | .cmd a => (assemble a).map fun w => [storeEvent base .word 0x004 w]
  | .wait => some [.wait]
  | .loadIn bytes =>
    some (loadInStores base 0 bytes ++ [storeEvent base .word 0x014 (BitVec.ofNat 32 bytes.length)])
  | .wrU32 v =>
    (assemble (.plain .wrU32be)).map fun w => [storeEvent base .word 0x00C v, storeEvent base .word 0x004 w]

/-- The host events of a program, lines in order (20_memory.md R75). -/
def programEvents (base : Word) : List HostLine → Option (List HostEvent)
  | [] => some []
  | l :: ls =>
    match l.events base with
    | none => none
    | some es => (programEvents base ls).map fun rest => es ++ rest

end Sys2Proof.Machine
end

