-- ==== Sys2Proof/Safety.lean ====
section
/-! DEFINITION. The terms claims use: bit strings of bytes, words and tries, what a write appends, and the invariants a run
keeps (10_state.md R29, R30, R31, R41; 40_bitstream.md R116). -/

namespace Sys2Proof.Machine

/-! ### Bit strings, first bit first (00_scope.md R11, R12) -/

/-- The low `n` bits of a byte, most significant first (40_bitstream.md R114). -/
def lowBits (n : Nat) (v : Byte) : List Bool := (List.range n).map fun i => v.getLsbD (n - 1 - i)

/-- The 8 bits of a byte in stream order (20_memory.md R70). -/
def byteBits (v : Byte) : List Bool := lowBits 8 v

/-- The 32 bits of a big-endian word in stream order (20_memory.md R71). -/
def wordBits (v : Word) : List Bool := (List.range 32).map fun i => v.getLsbD (31 - i)

/-- The `n` stream bits of a memory from position `p` (00_scope.md R12). -/
def Memory.stream (m : Memory) (p n : Nat) : List Bool := (List.range n).map fun i => m.streamBit (p + i)

/-- The serialized form of a trie (43_trie_codec.md R170). -/
def Trie.bits : Trie → List Bool
  | .leaf sym => true :: byteBits sym
  | .node l r => false :: (l.bits ++ r.bits)

/-- Where the tag bit of node number `k`, counted from 0, stands when serialized nodes follow one another from stream position
`p`: a leaf takes its tag 1 and 8 bits, an internal node its tag 0 alone (43_trie_codec.md R170). -/
def Memory.tagPos (m : Memory) (p : Nat) : (k : Nat) → Nat
  | 0 => p
  | k + 1 => m.tagPos (if m.streamBit p then p + 9 else p + 1) k

/-- The leaves of a trie with their paths, left first (44_code_table.md R190). -/
def Trie.paths : Trie → List (Byte × List Bool)
  | .leaf sym => [(sym, [])]
  | .node l r => (l.paths.map fun x => (x.1, false :: x.2)) ++ r.paths.map fun x => (x.1, true :: x.2)

/-- The longest path of a trie. -/
def Trie.depth : Trie → Nat
  | .leaf _ => 0
  | .node l r => 1 + max l.depth r.depth

/-- The code-table entry of byte `v` for a trie (44_code_table.md R190 to R192): the path of the last leaf of that byte
in left-first order, or absent. -/
def Trie.codeOf (t : Trie) (v : Byte) : CodeEntry :=
  match (t.paths.filter fun x => decide (x.1 = v)).getLast? with
  | some x => ⟨true, x.2⟩
  | none => ⟨false, []⟩

/-- The arena of a trie in pre-order from index `i`, every frequency 0 (43_trie_codec.md R172, R173). -/
def Trie.preorder : Trie → Nat → List Node
  | .leaf sym, _ => [.leaf sym 0]
  | .node l r, i =>
    .internal 0 (i + 1) (i + 1 + l.size) :: (l.preorder (i + 1) ++ r.preorder (i + 1 + l.size))

/-- The number of input bytes equal to `v` (41_frequency.md R140). -/
def State.inputCount (s : State) (v : Nat) : Nat :=
  ((List.range s.inLen.toNat).filter fun k => decide ((s.inMem.read k).toNat = v)).length

/-- The trie COMPRESS builds for the input (46_orchestrator.md R220): the tree below the last node of the arena built
from the input's counts. -/
def State.inputTrie (s : State) : Option Trie :=
  let ns := buildArena s.params s.draws fun v => BitVec.ofNat 32 (s.inputCount v)
  readTrie ns.length ns (ns.length - 1)

/-- The bits of a finished COMPRESS buffer before the padding (46_orchestrator.md R221). -/
def State.wireBits (s : State) (t : Trie) : List Bool :=
  t.bits ++ (wordBits s.inLen ++ (List.range s.inLen.toNat).flatMap fun k => (t.codeOf (s.inMem.read k)).bits)

/-- What appending `bits` at stream position `p` does to a memory (40_bitstream.md R113 to R116): the bits stand there,
the bits before them stay, every byte outside the bytes from p div 8 to the last one begun reads as before, and zero
padding stays zero padding. -/
def Appended (old new : Memory) (p : Nat) (bits : List Bool) : Prop :=
  new.stream p bits.length = bits ∧ (∀ q < p, new.streamBit q = old.streamBit q)
    ∧ (∀ k, k < p / 8 ∨ (p + bits.length + 7) / 8 ≤ k → new.read k = old.read k)
    ∧ ((∀ q, p ≤ q → q < 8 * ((p + 7) / 8) → old.streamBit q = false) →
        ∀ q, p + bits.length ≤ q → q < 8 * ((p + bits.length + 7) / 8) → new.streamBit q = false)

/-- The frequency of arena entry `i` (00_scope.md R15). -/
def freqOf (ns : List Node) (i : Nat) : Word :=
  match ns[i]? with
  | some n => n.freq
  | none => 0

/-- Arena index `i` is in the priority queue when node `m` is made (42_trie_builder.md R153): made before, and the child
of no node made before. -/
def queuedAt (ns : List Node) (m i : Nat) : Prop :=
  i < m ∧ ∀ k < m, ∀ f l r, ns[k]? = some (.internal f l r) → i ≠ l ∧ i ≠ r

/-- Index `i` comes before index `j` under `INDEX` (42_trie_builder.md R154). -/
def comesBefore (ns : List Node) (i j : Nat) : Prop :=
  (freqOf ns i).toNat < (freqOf ns j).toNat ∨ (freqOf ns i = freqOf ns j ∧ i < j)

/-! ### Which checks and errors each command has (60_exceptions.md R244) -/

/-- The valid flags a command needs (60_exceptions.md R244). -/
def needs (s : State) : Instr → List Bool
  | .rdBit | .rdBits _ | .rdU32be | .trieDeser => [s.valid.rd]
  | .wrBit _ | .wrBits _ _ | .wrU32be | .wrDump => [s.valid.wr]
  | .trieBuild => [s.valid.freq]
  | .trieSer => [s.valid.wr, s.valid.trie]
  | .codeBuild => [s.valid.trie]
  | .payloadEnc => [s.valid.wr, s.valid.code]
  | .payloadDec => [s.valid.wr, s.valid.rd, s.valid.trie]
  | .rdInit | .wrInit | .freqCount | .compress | .extract => []

/-- Whether a command checks IN_LEN (60_exceptions.md R244). -/
def checksInLen : Instr → Bool
  | .rdInit | .freqCount | .payloadEnc | .compress | .extract => true
  | .rdBit | .rdBits _ | .rdU32be | .wrInit | .wrBit _ | .wrBits _ _ | .wrU32be | .wrDump | .trieBuild | .trieSer
  | .trieDeser | .codeBuild | .payloadDec => false

/-- The execution errors of a command (60_exceptions.md R244). -/
def executionErrors : Instr → List ErrCode
  | .wrBit _ | .wrBits _ _ | .wrU32be | .trieSer | .compress => [.outOverflow]
  | .trieDeser => [.corruptStream, .nodeOverflow]
  | .codeBuild => [.codeTooLong]
  | .payloadEnc => [.outOverflow, .missingCode]
  | .payloadDec => [.corruptStream, .outOverflow]
  | .extract => [.corruptStream, .nodeOverflow, .outOverflow]
  | .rdInit | .rdBit | .rdBits _ | .rdU32be | .wrInit | .wrDump | .freqCount | .trieBuild => []

/-- The commands whose execution error empties the writer (60_exceptions.md R246). -/
def writesWriter : Instr → Bool
  | .wrBit _ | .wrBits _ _ | .wrU32be | .trieSer | .payloadEnc | .payloadDec | .compress | .extract => true
  | .rdInit | .rdBit | .rdBits _ | .rdU32be | .wrInit | .wrDump | .freqCount | .trieBuild | .trieDeser
  | .codeBuild => false

/-! ### Invariants -/

/-- STATUS while busy is BUSY alone but for OVR (60_exceptions.md R241), and ERR goes with a nonzero ERRCODE (R245). -/
def Status.wf (st : Status) : Bool :=
  (!st.busy || (!st.done && !st.err && !st.exh)) && (st.err == decide (st.errcode ≠ .none))

/-- The cursors stay in their streams (10_state.md R29, R30), with the parameters in their ranges. -/
def State.cursorsOk (s : State) : Bool :=
  s.params.wf && decide (s.rdPos.toNat ≤ s.rdEnd.toNat) && decide (s.rdEnd.toNat ≤ 8 * s.params.inCap)
    && decide (s.wrPos.toNat ≤ 8 * s.params.outCap)

/-- Both memories are canonical and hold only their own addresses (10_state.md R42, R43). -/
def State.memoriesOk (s : State) : Bool :=
  s.inMem.wf && s.inMem.below s.params.inCap && s.outMem.wf && s.outMem.below s.params.outCap

/-- Every byte the writer has begun is defined, and its unwritten bits are 0 (10_state.md R28, 40_bitstream.md R116). -/
def State.bufferOk (s : State) : Bool :=
  ((List.range s.outLen).all fun k => (cellsFind s.outMem.cells k).isSome)
    && (List.range (8 * s.outLen - s.wrPos.toNat)).all fun i => !s.outMem.streamBit (s.wrPos.toNat + i)

/-- The arena indices below index `i`, in pre-order. -/
def arenaVisit : (depth : Nat) → List Node → Nat → Option (List Nat)
  | 0, _, _ => none
  | depth + 1, ns, i =>
    match ns[i]? with
    | none => none
    | some (.leaf _ _) => some [i]
    | some (.internal _ l r) =>
      match arenaVisit depth ns l with
      | none => none
      | some a =>
        match arenaVisit depth ns r with
        | none => none
        | some b => some (i :: (a ++ b))

/-- The arena below ROOT is a trie (10_state.md R41): every index below it is inside the arena and met once, and the
nodes are the NODE_COUNT entries of the arena (R33), at most NODE_CAP. -/
def State.arenaOk (s : State) : Bool :=
  match arenaVisit s.node.length s.node s.root.toNat with
  | none => false
  | some is =>
    decide is.Nodup && decide (is.length = s.node.length) && decide (s.node.length = s.nodeCount.toNat)
      && decide (s.node.length ≤ s.params.nodeCap)

/-- TRIE_VALID = 1 means NODE, NODE_COUNT and ROOT hold a complete trie (10_state.md R31, R41). -/
def State.trieOk (s : State) : Bool := !s.valid.trie || s.arenaOk

/-- FREQ_VALID = 1 means FREQ holds the counts of some input (10_state.md R31, 41_frequency.md R141). -/
def State.freqOk (s : State) : Bool :=
  !s.valid.freq || (decide (s.freq.length = 256) && decide ((s.freq.map BitVec.toNat).sum ≤ s.params.inCap))

/-- CODE_VALID = 1 means CODE holds the code table of the current trie (10_state.md R31). -/
def State.codeOk (s : State) : Bool :=
  !s.valid.code || (s.valid.trie &&
    match s.trie? with
    | none => false
    | some t =>
      decide (t.depth ≤ Config.codeMax) && decide (s.code = (List.range 256).map fun v => t.codeOf (BitVec.ofNat 8 v)))

/-- The whole invariant. -/
def State.Inv (s : State) : Bool :=
  s.status.wf && s.cursorsOk && s.memoriesOk && s.bufferOk && s.trieOk && s.freqOk && s.codeOk

end Sys2Proof.Machine
end

