-- ==== Sys2Proof/Certificates/Slice0/Obligations.lean ====
section
/-! DEFINITION. The statements for the provers. In every one, `draws`, `host` and `reply` are the model's own fields
(notes/assumptions/1.md, 5.md, 13.md). -/

open Sys2Proof Sys2Proof.Machine

/-! ### Encoding -/

/-- Decoding an encoded well-formed command gives it back, every operand at every legal value (30_encoding.md R96, R100). -/
def Obligations.DecodeEncodeRoundTrip : Prop :=
  ∀ i : Instr, i.wf = true → decode (encode i) = .ok i

/-- Each legal word has one meaning, and no bit of it is lost (30_encoding.md R96, R97). -/
def Obligations.EncodeOfDecodeIsTheWord : Prop :=
  ∀ (w : Word) (i : Instr), decode w = .ok i → i.wf = true ∧ encode i = w

/-- The illegal words are exactly those of 30_encoding.md R98, which the spec marks as derived from R96 and R97. -/
def Obligations.IllegalWordsExactly : Prop :=
  ∀ w : Word, (∃ e, decode w = .error e) ↔
    ((fieldOpc w ∉ [(0x10 : BitVec 8), 0x11, 0x12, 0x13, 0x20, 0x21, 0x22, 0x23, 0x24, 0x30, 0x40, 0x50, 0x51, 0x60, 0x70,
        0x71, 0x80, 0x81])
      ∨ fieldRsv0 w ≠ 0 ∨ fieldRsv1 w ≠ 0
      ∨ (fieldOpc w ≠ 0x12 ∧ fieldOpc w ≠ 0x22 ∧ fieldN w ≠ 0)
      ∨ (fieldOpc w ≠ 0x21 ∧ fieldOpc w ≠ 0x22 ∧ fieldImm8 w ≠ 0)
      ∨ ((fieldOpc w = 0x12 ∨ fieldOpc w = 0x22) ∧ 9 ≤ (fieldN w).toNat))

/-- Words written out from 30_encoding.md R96 and V-ENC-1 of 95_test_vectors.md decode as the spec says. -/
def Obligations.SampleWordsDecode : Prop :=
  decode 0x00000010 = .ok .rdInit ∧ decode 0x00000312 = .ok (.rdBits 3) ∧ decode 0x00FE0021 = .ok (.wrBit 0xFE)
    ∧ decode 0x00050322 = .ok (.wrBits 3 5) ∧ decode 0x00000030 = .ok .freqCount ∧ decode 0x00000051 = .ok .trieDeser
    ∧ decode 0x00000081 = .ok .extract ∧ decode 0x00000912 = .error .countOver8 ∧ decode 0 = .error .undefinedOpc
    ∧ decode 0x80000080 = .error .reservedField ∧ decode 0x00010010 = .error .strayOperand

/-- The assembler's encodings and rejections (30_encoding.md R100) and its pseudo-commands (R101), WR_U32 as the two host
writes it stands for. -/
def Obligations.AssemblerEncodes : Prop :=
  (∀ n, assemble (.rdBits n) = if n ≤ 8 then some ((BitVec.ofNat 32 n <<< 8) ||| 0x12) else none)
    ∧ (∀ b, assemble (.wrBit b) = if b ≤ 1 then some ((BitVec.ofNat 32 b <<< 16) ||| 0x21) else none)
    ∧ (∀ n v, assemble (.wrBits n v) =
        if n ≤ 8 ∧ v ≤ 255 then some ((BitVec.ofNat 32 v <<< 16) ||| (BitVec.ofNat 32 n <<< 8) ||| 0x22) else none)
    ∧ ([.rdInit, .rdBit, .rdU32be, .wrInit, .wrU32be, .wrDump, .freqCount, .trieBuild, .trieSer, .trieDeser, .codeBuild,
        .payloadEnc, .payloadDec, .compress, .extract].map fun i => assemble (.plain i))
      = [(0x10 : Word), 0x11, 0x13, 0x20, 0x23, 0x24, 0x30, 0x40, 0x50, 0x51, 0x60, 0x70, 0x71, 0x80, 0x81].map some
    ∧ (∀ n v, assemble (.plain (.rdBits n)) = none ∧ assemble (.plain (.wrBit v)) = none
      ∧ assemble (.plain (.wrBits n v)) = none)
    ∧ assemble .rdByte = some 0x00000812
    ∧ (∀ v, assemble (.wrByte v) = if v ≤ 255 then some ((BitVec.ofNat 32 v <<< 16) ||| 0x00000822) else none)
    ∧ (∀ n, assemble (.rdSkip n) = if n ≤ 8 then some ((BitVec.ofNat 32 n <<< 8) ||| 0x12) else none)
    ∧ ∀ base v : Word, (HostLine.wrU32 v).events base
      = some [.write .word (base + 0x00C) v, .write .word (base + 0x004) 0x00000023]

/-- IMM8[7:1] of WR_BIT and IMM8[7:N] of WR_BITS have no effect of any kind (30_encoding.md R93). -/
def Obligations.DontCareBitsHaveNoEffect : Prop :=
  ∀ (s : State) (a b : Byte),
    (a.getLsbD 0 = b.getLsbD 0 → exec (.wrBit a) s = exec (.wrBit b) s)
      ∧ ∀ n : BitVec 4, (∀ j < n.toNat, a.getLsbD j = b.getLsbD j) → exec (.wrBits n a) s = exec (.wrBits n b) s

/-! ### Steps -/

/-- A step of the Core is exec of the command decoded from CMD, with only the turn mark taken off the list of host
events (60_exceptions.md R241). -/
def Obligations.StepRunsDecodedCommand : Prop :=
  ∀ (s : State) (i : Instr), s.status.busy = true → decode s.cmd = .ok i →
    (s.host = [] → step s = exec i s)
      ∧ (∀ rest, s.host = .coreTurn :: rest → step s = exec i { s with host := rest })
      ∧ (∀ rest, s.host = .wait :: rest → step s = exec i s)

/-- An illegal word completes with ILLEGAL_CMD and changes only STATUS (30_encoding.md R97; 60_exceptions.md R245); an idle
block keeps all its state (60_exceptions.md R261). Said for every turn the Core can get: no host event left, a turn mark, a
WAIT; a WAIT that finds BUSY = 0 ends with its read of STATUS (30_encoding.md R102; the turns are notes/assumptions/1.md). -/
def Obligations.IllegalWordAndIdleTurn : Prop :=
  ∀ (s : State) (rest : List HostEvent),
    (∀ e t, s.status.busy = true → decode s.cmd = .error e →
      (s.host = [] ∧ t = s) ∨ (s.host = .coreTurn :: rest ∧ t = { s with host := rest }) ∨ (s.host = .wait :: rest ∧ t = s) →
      step s = .next { t with
        status := { s.status with busy := false, done := true, err := true, errcode := .illegalCmd }
        draws := s.draws + 1 })
    ∧ (s.status.busy = false →
      (s.host = [] → step s = .next s)
        ∧ (s.host = .coreTurn :: rest → step s = .next { s with host := rest })
        ∧ (s.host = .wait :: rest → step s = .next { s with
            host := rest, reply := some ⟨.okay, some s.status.word⟩, draws := s.draws + 1 }))

/-- An issued command completes, or a reset abandons it, once the host has made its moves (70_reset_and_hazards.md R293:
the Core's completion step is weakly fair). -/
def Obligations.IssuedCommandCompletes : Prop :=
  ∀ s : State, s.params.wf = true → s.trieOk = true → s.status.busy = true →
    ∃ (k : Nat) (t : State), k ≤ s.host.length + 1 ∧ Host.Core.run Sys2Proof.core k s = .next t ∧ t.status.busy = false

/-! ### Host port -/

/-- A write of `w` to CMD with BUSY = 0 issues the command (60_exceptions.md R240; 10_state.md R22). The bus answer is not
the rule's. -/
def Obligations.IssueAcceptsCommand : Prop :=
  ∀ (s : State) (w : Word) (rest : List HostEvent), s.status.busy = false →
    s.host = .write .word (s.params.blockBase + 0x004) w :: rest →
    ∃ r, step s = .next { s with
      cmd := w
      status := { s.status with done := false, err := false, exh := false, errcode := .none, busy := true }
      host := rest
      reply := r
      draws := s.draws + 1 }

/-- With BUSY = 1 a write to CMD, ARG, IN_LEN or IN_MEM changes nothing but sets OVR; writes to STATUS and IRQ_EN take
effect; writes to read-only locations do not set OVR (20_memory.md R82; 60_exceptions.md R242). -/
def Obligations.BusyWritesAreDropped : Prop :=
  ∀ (s : State) (v : Word) (rest : List HostEvent), s.status.busy = true →
    (∀ off ∈ [(0x004 : Word), 0x00C, 0x014], s.host = .write .word (s.params.blockBase + off) v :: rest →
      ∃ r, step s = .next { s with
        status := { s.status with ovr := true }, host := rest, reply := r, draws := s.draws + 1 })
    ∧ (∀ size k, k < s.params.inCap → k < 2 ^ 24 → k % size.bytes = 0 →
      s.host = .write size (s.params.blockBase + 0x01000000 + BitVec.ofNat 32 k) v :: rest →
      ∃ r, step s = .next { s with
        status := { s.status with ovr := true }, host := rest, reply := r, draws := s.draws + 1 })
    ∧ (s.host = .write .word (s.params.blockBase + 0x008) v :: rest →
      ∃ r, step s = .next { s with
        status := { s.status with done := s.status.done && !v.getLsbD 1, ovr := s.status.ovr && !v.getLsbD 4 }
        host := rest, reply := r, draws := s.draws + 1 })
    ∧ (s.host = .write .word (s.params.blockBase + 0x038) v :: rest →
      ∃ r, step s = .next { s with
        irqEn := ⟨v.getLsbD 0, v.getLsbD 1⟩, host := rest, reply := r, draws := s.draws + 1 })
    ∧ (∀ size addr off, off = (addr - s.params.blockBase).toNat → s.host = .write size addr v :: rest →
      ((size = .word ∧ off < 0x10000 ∧ off % 4 = 0 ∧ off ∉ [0x004, 0x008, 0x00C, 0x014, 0x038])
        ∨ (0x2000000 ≤ off ∧ off < 0x3000000 ∧ off % size.bytes = 0)) →
      ∃ r, step s = .next { s with host := rest, reply := r, draws := s.draws + 1 })

/-- With BUSY = 0 a write to ARG or IN_LEN stores all 32 bits, a write to STATUS clears DONE and OVR where it holds 1, and a
write to IRQ_EN stores its two bits; nothing else changes (10_state.md R23, R25, R27, R34). -/
def Obligations.RegisterWritesTakeEffect : Prop :=
  ∀ (s : State) (v : Word) (rest : List HostEvent), s.status.busy = false →
    (s.host = .write .word (s.params.blockBase + 0x00C) v :: rest → step s = .next { s with
        arg := v, host := rest, reply := some ⟨.okay, none⟩, draws := s.draws + 1 })
    ∧ (s.host = .write .word (s.params.blockBase + 0x014) v :: rest → step s = .next { s with
        inLen := v, host := rest, reply := some ⟨.okay, none⟩, draws := s.draws + 1 })
    ∧ (s.host = .write .word (s.params.blockBase + 0x008) v :: rest → step s = .next { s with
        status := { s.status with done := s.status.done && !v.getLsbD 1, ovr := s.status.ovr && !v.getLsbD 4 }
        host := rest, reply := some ⟨.okay, none⟩, draws := s.draws + 1 })
    ∧ (s.host = .write .word (s.params.blockBase + 0x038) v :: rest → step s = .next { s with
        irqEn := ⟨v.getLsbD 0, v.getLsbD 1⟩, host := rest, reply := some ⟨.okay, none⟩, draws := s.draws + 1 })

/-- The bits of STATUS, VALID and IRQ_EN as the host reads them, reserved bits 0 (10_state.md R23, R31, R34), and the numbers
of the error codes (60_exceptions.md R243). -/
def Obligations.FlagWordLayouts : Prop :=
  (∀ (st : Status) (i : Nat), i < 32 → st.word.getLsbD i =
      if i = 0 then st.busy else if i = 1 then st.done else if i = 2 then st.err else if i = 3 then st.exh
      else if i = 4 then st.ovr else if 8 ≤ i ∧ i < 12 then st.errcode.number.getLsbD (i - 8) else false)
    ∧ (∀ (v : Valid) (i : Nat), i < 32 → v.word.getLsbD i =
      if i = 0 then v.freq else if i = 1 then v.trie else if i = 2 then v.code else if i = 3 then v.rd
      else if i = 4 then v.wr else if i = 5 then v.wrDumped else false)
    ∧ (∀ (e : IrqEn) (i : Nat), i < 32 → e.word.getLsbD i =
      if i = 0 then e.doneIe else if i = 1 then e.ovrIe else false)
    ∧ ErrCode.none.number = 0 ∧ ErrCode.corruptStream.number = 1 ∧ ErrCode.illegalCmd.number = 2
    ∧ ErrCode.badState.number = 3 ∧ ErrCode.inRange.number = 4 ∧ ErrCode.outOverflow.number = 5
    ∧ ErrCode.nodeOverflow.number = 6 ∧ ErrCode.codeTooLong.number = 7 ∧ ErrCode.missingCode.number = 8

/-- A 32-bit read of a register gives its value: of every register with BUSY = 0, and of ID, CMD, STATUS, ARG, IN_LEN,
IRQ_EN and the capacity registers with BUSY = 1 too; a reserved offset of the register block, and of the two gaps between
the windows, reads 0 (10_state.md R20, R28, R36; 20_memory.md R61, R83). That a gap reads 0 while BUSY = 1 too is the model's
deduction, marked unsafe (DEDUCED: notes/assumptions/12.md). -/
def Obligations.RegisterReadsGiveTheirValue : Prop :=
  ∀ (s : State) (rest : List HostEvent),
    (∀ x ∈ [((0x000 : Word), (0x48554631 : Word)), (0x004, s.cmd), (0x008, s.status.word), (0x00C, s.arg),
        (0x014, s.inLen), (0x038, s.irqEn.word), (0x03C, BitVec.ofNat 32 s.params.inCap),
        (0x040, BitVec.ofNat 32 s.params.outCap), (0x044, BitVec.ofNat 32 s.params.nodeCap)],
      s.host = .read .word (s.params.blockBase + x.1) :: rest →
      step s = .next { s with host := rest, reply := some ⟨.okay, some x.2⟩, draws := s.draws + 1 })
    ∧ (s.status.busy = false →
      ∀ x ∈ [((0x010 : Word), s.result), (0x018, BitVec.ofNat 32 ((s.wrPos.toNat + 7) / 8)), (0x01C, s.rdPos),
        (0x020, s.rdEnd), (0x024, s.wrPos), (0x028, s.decLen), (0x02C, s.valid.word), (0x030, s.nodeCount),
        (0x034, s.root)],
      s.host = .read .word (s.params.blockBase + x.1) :: rest →
      step s = .next { s with host := rest, reply := some ⟨.okay, some x.2⟩, draws := s.draws + 1 })
    ∧ (∀ off : Nat, (0x048 ≤ off ∧ off < 0x1000) ∨ (0x1400 ≤ off ∧ off < 0x2000) ∨ (0x6000 ≤ off ∧ off < 0x8000) →
      off % 4 = 0 →
      s.host = .read .word (s.params.blockBase + BitVec.ofNat 32 off) :: rest →
      step s = .next { s with host := rest, reply := some ⟨.okay, some 0⟩, draws := s.draws + 1 })

/-- No host read changes the block (20_memory.md R73). -/
def Obligations.HostReadChangesNothing : Prop :=
  ∀ (s : State) (size : Size) (addr : Word) (rest : List HostEvent), s.host = .read size addr :: rest →
    ∃ resp d, step s = .next { s with host := rest, reply := some ⟨resp, some d⟩, draws := s.draws + 1 }

/-- Wrong-size, misaligned and unmapped accesses are answered SLVERR or DECERR and change nothing (20_memory.md R62, R64,
R65, R67, R68). The answer to a misaligned WRITE to OUT_MEM is not claimed (notes/assumptions/21.md). -/
def Obligations.BusErrorsChangeNothing : Prop :=
  ∀ (s : State) (size : Size) (addr v : Word) (rest : List HostEvent) (off : Nat),
    off = (addr - s.params.blockBase).toNat →
    (∀ resp,
      ((off < 0x10000 ∧ (size ≠ .word ∨ off % 4 ≠ 0) ∧ resp = Resp.slverr)
        ∨ (0x1000000 ≤ off ∧ off < 0x2000000 ∧ off % size.bytes ≠ 0 ∧ resp = Resp.slverr)
        ∨ (((0x10000 ≤ off ∧ off < 0x1000000) ∨ 0x3000000 ≤ off) ∧ resp = Resp.decerr)) →
      (s.host = .write size addr v :: rest →
        step s = .next { s with host := rest, reply := some ⟨resp, none⟩, draws := s.draws + 1 })
      ∧ (s.host = .read size addr :: rest →
        ∃ d, step s = .next { s with host := rest, reply := some ⟨resp, some d⟩, draws := s.draws + 1 }))
    ∧ (0x2000000 ≤ off → off < 0x3000000 → off % size.bytes ≠ 0 →
      (s.host = .read size addr :: rest →
        ∃ d, step s = .next { s with host := rest, reply := some ⟨.slverr, some d⟩, draws := s.draws + 1 })
      ∧ (s.host = .write size addr v :: rest →
        ∃ resp, step s = .next { s with host := rest, reply := some ⟨resp, none⟩, draws := s.draws + 1 }))

/-- A write to a read-only register, a reserved offset, a window or OUT_MEM is ignored with OKAY (20_memory.md R63, R65;
10_state.md R36). -/
def Obligations.ReadOnlyWritesAreIgnored : Prop :=
  ∀ (s : State) (size : Size) (addr v : Word) (rest : List HostEvent) (off : Nat),
    off = (addr - s.params.blockBase).toNat → s.host = .write size addr v :: rest →
    ((size = .word ∧ off < 0x10000 ∧ off % 4 = 0 ∧ off ∉ [0x004, 0x008, 0x00C, 0x014, 0x038])
      ∨ (0x2000000 ≤ off ∧ off < 0x3000000 ∧ off % size.bytes = 0)) →
    step s = .next { s with host := rest, reply := some ⟨.okay, none⟩, draws := s.draws + 1 }

/-- An aligned write to IN_MEM with BUSY = 0 stores its bytes in little-endian lanes below IN_CAP and changes no other
byte; an aligned read, BUSY or not, assembles the lanes, bytes past IN_CAP reading 0; a misaligned access is SLVERR and
changes nothing (20_memory.md R64, R69, R83). -/
def Obligations.InMemAccessesUseLittleEndianLanes : Prop :=
  ∀ (s : State) (size : Size) (v : Word) (rest : List HostEvent) (k : Nat), k < 2 ^ 24 →
    (k % size.bytes ≠ 0 →
      (s.host = .write size (s.params.blockBase + 0x01000000 + BitVec.ofNat 32 k) v :: rest →
        step s = .next { s with host := rest, reply := some ⟨.slverr, none⟩, draws := s.draws + 1 })
      ∧ (s.host = .read size (s.params.blockBase + 0x01000000 + BitVec.ofNat 32 k) :: rest →
        ∃ d, step s = .next { s with host := rest, reply := some ⟨.slverr, some d⟩, draws := s.draws + 1 }))
    ∧ (k % size.bytes = 0 → s.inMem.wf = true → s.status.busy = false →
      s.host = .write size (s.params.blockBase + 0x01000000 + BitVec.ofNat 32 k) v :: rest →
      ∃ m r, step s = .next { s with inMem := m, host := rest, reply := r, draws := s.draws + 1 }
        ∧ ∀ j, m.read j =
          if k ≤ j ∧ j < k + size.bytes ∧ j < s.params.inCap then v.extractLsb' (8 * (j - k)) 8 else s.inMem.read j)
    ∧ (k % size.bytes = 0 → s.host = .read size (s.params.blockBase + 0x01000000 + BitVec.ofNat 32 k) :: rest →
      ∃ d, step s = .next { s with host := rest, reply := some ⟨.okay, some d⟩, draws := s.draws + 1 }
        ∧ ∀ j < size.bytes, d.extractLsb' (8 * j) 8 = if k + j < s.params.inCap then s.inMem.read (k + j) else 0)

/-- An aligned read of OUT_MEM with BUSY = 0 gives the begun bytes in little-endian lanes, and 0 past OUT_CAP
(20_memory.md R65, R69; 10_state.md R28). -/
def Obligations.OutMemReadsGiveBegunBytes : Prop :=
  ∀ (s : State) (size : Size) (rest : List HostEvent) (k : Nat), k < 2 ^ 24 → k % size.bytes = 0 →
    s.status.busy = false →
    s.host = .read size (s.params.blockBase + 0x02000000 + BitVec.ofNat 32 k) :: rest →
    ∃ d, step s = .next { s with host := rest, reply := some ⟨.okay, some d⟩, draws := s.draws + 1 }
      ∧ ∀ j < size.bytes,
        (k + j < s.params.outCap → k + j < (s.wrPos.toNat + 7) / 8 → d.extractLsb' (8 * j) 8 = s.outMem.read (k + j))
          ∧ (s.params.outCap ≤ k + j → d.extractLsb' (8 * j) 8 = 0)

/-- Window reads with BUSY = 0 and the valid flag set: FREQ, CODE word by word, NODE word by word (10_state.md R38, R39,
R40). -/
def Obligations.WindowReadsShowTheTables : Prop :=
  ∀ (s : State) (rest : List HostEvent), s.status.busy = false →
    (∀ v c, s.valid.freq = true → v < 256 → s.freq[v]? = some c →
      s.host = .read .word (s.params.blockBase + 0x1000 + BitVec.ofNat 32 (4 * v)) :: rest →
      step s = .next { s with host := rest, reply := some ⟨.okay, some c⟩, draws := s.draws + 1 })
    ∧ (∀ v e j, s.valid.code = true → v < 256 → s.code[v]? = some e → e.bits.length ≤ 255 → j < 16 →
      s.host = .read .word (s.params.blockBase + 0x2000 + BitVec.ofNat 32 (64 * v + 4 * j)) :: rest →
      ∃ d, step s = .next { s with host := rest, reply := some ⟨.okay, some d⟩, draws := s.draws + 1 }
        ∧ (j = 0 → d.getLsbD 31 = e.present ∧ (d.extractLsb' 0 8).toNat = e.bits.length
            ∧ ∀ b, 8 ≤ b → b < 31 → d.getLsbD b = false)
        ∧ (1 ≤ j → j ≤ 8 → ∀ b < 32, d.getLsbD (31 - b) = e.bits.getD (32 * (j - 1) + b) false)
        ∧ (9 ≤ j → d = 0))
    ∧ (∀ i n j, s.valid.trie = true → i < s.params.nodeCap → i < 2048 → i < s.nodeCount.toNat → s.node[i]? = some n → j < 4 →
      s.host = .read .word (s.params.blockBase + 0x8000 + BitVec.ofNat 32 (16 * i + 4 * j)) :: rest →
      step s = .next { s with
        host := rest
        reply := some ⟨.okay, some (match n with
          | .leaf sym f => if j = 0 then 1 else if j = 1 then f else if j = 2 then sym.setWidth 32 else 0
          | .internal f l r =>
            if j = 0 then 0 else if j = 1 then f else if j = 2 then BitVec.ofNat 32 l else BitVec.ofNat 32 r)⟩
        draws := s.draws + 1 })
    ∧ (∀ i j, s.params.nodeCap ≤ i → i < 2048 → j < 4 →
      s.host = .read .word (s.params.blockBase + 0x8000 + BitVec.ofNat 32 (16 * i + 4 * j)) :: rest →
      step s = .next { s with host := rest, reply := some ⟨.okay, some 0⟩, draws := s.draws + 1 })

/-- The interrupt output, and what clears and raises its two sources: W1C, the next issue, the enables, RESET, every
completion (60_exceptions.md R251, R252). -/
def Obligations.InterruptFollowsStatus : Prop :=
  ∀ s : State,
    s.irq = ((s.status.done && s.irqEn.doneIe) || (s.status.ovr && s.irqEn.ovrIe))
      ∧ (∀ (v : Word) (rest : List HostEvent) (t : State), s.host = .write .word (s.params.blockBase + 0x008) v :: rest →
          step s = .next t → (v.getLsbD 1 = true → t.status.done = false) ∧ (v.getLsbD 4 = true → t.status.ovr = false))
      ∧ (∀ (v : Word) (rest : List HostEvent) (t : State), s.host = .write .word (s.params.blockBase + 0x038) v :: rest →
          step s = .next t → (v.getLsbD 0 = false → t.irqEn.doneIe = false) ∧ (v.getLsbD 1 = false → t.irqEn.ovrIe = false))
      ∧ (∀ (w : Word) (rest : List HostEvent) (t : State), s.status.busy = false →
          s.host = .write .word (s.params.blockBase + 0x004) w :: rest → step s = .next t → t.status.done = false)
      ∧ (∀ (rest : List HostEvent) (t : State), s.host = .reset :: rest → step s = .next t →
          t.status.done = false ∧ t.status.ovr = false)
      ∧ (∀ (i : Instr) (t : State), exec i s = .next t → t.status.done = true ∧ (s.irqEn.doneIe = true → t.irq = true))
      ∧ (∀ (e : Illegal) (t : State), s.host = [] → s.status.busy = true → decode s.cmd = .error e → step s = .next t →
          t.status.done = true ∧ (s.irqEn.doneIe = true → t.irq = true))

/-- RESET, busy or not, sets every register to its reset value and leaves every memory and table unspecified: nothing
listed, the unlisted bytes of two fresh draws (10_state.md R47; 70_reset_and_hazards.md R280, R281; how "unspecified" is held,
the kept `params` and the model's own fields are the model's choice: notes/assumptions/4.md, 7.md, 13.md, 14.md). -/
def Obligations.ResetSetsEveryRegister : Prop :=
  ∀ (s : State) (rest : List HostEvent), s.host = .reset :: rest →
    ∃ t : State, step s = .next t ∧ t.outLen = 0
      ∧ t.regValue .id = 0x48554631 ∧ t.regValue .inCap = BitVec.ofNat 32 s.params.inCap
      ∧ t.regValue .outCap = BitVec.ofNat 32 s.params.outCap ∧ t.regValue .nodeCap = BitVec.ofNat 32 s.params.nodeCap
      ∧ t =
      { params := s.params
        cmd := 0
        status := ⟨false, false, false, false, false, .none⟩
        arg := 0
        result := 0
        inLen := 0
        rdPos := 0
        rdEnd := 0
        wrPos := 0
        decLen := 0
        valid := ⟨false, false, false, false, false, false⟩
        nodeCount := 0
        root := 0
        irqEn := ⟨false, false⟩
        freq := []
        code := []
        node := []
        inMem := ⟨[], 2 * s.draws⟩
        outMem := ⟨[], 2 * s.draws + 1⟩
        host := rest
        reply := none
        draws := s.draws + 1 }

/-- The reset state meets the invariant, has the reset values of 10_state.md R47 and is idle (70_reset_and_hazards.md R283). -/
def Obligations.ResetMeetsInvariant : Prop :=
  State.reset.Inv = true ∧ State.reset.cmd = 0 ∧ State.reset.arg = 0 ∧ State.reset.result = 0 ∧ State.reset.inLen = 0
    ∧ State.reset.rdPos = 0 ∧ State.reset.rdEnd = 0 ∧ State.reset.wrPos = 0 ∧ State.reset.outLen = 0
    ∧ State.reset.decLen = 0 ∧ State.reset.nodeCount = 0 ∧ State.reset.root = 0 ∧ State.reset.status.word = 0
    ∧ State.reset.valid.word = 0 ∧ State.reset.irqEn.word = 0 ∧ State.reset.irq = false

/-! ### What holds of every command -/

/-- Valid-flag checks come before the IN_RANGE check, both before anything else, and a failed check changes only STATUS
(60_exceptions.md R245, R249; the flags and checks of each command are R244's). -/
def Obligations.ChecksComeFirst : Prop :=
  (∀ (s : State) (c : ErrCode), s.raise c = { s with
      status := { s.status with err := true, errcode := c, busy := false, done := true }, draws := s.draws + 1 })
    ∧ ∀ (i : Instr) (s : State),
      ((needs s i).all id = false → exec i s = .next (s.raise .badState))
        ∧ ((needs s i).all id = true → checksInLen i = true → s.params.inCap < s.inLen.toNat →
            exec i s = .next (s.raise .inRange))

/-- A command reports only the errors 60_exceptions.md R244 lists for it, and ERR goes with ERRCODE (R245). -/
def Obligations.ErrorsAreThoseListed : Prop :=
  ∀ (i : Instr) (s t : State), s.status.err = false → s.status.errcode = .none → exec i s = .next t →
    t.status.err = decide (t.status.errcode ≠ .none)
      ∧ (t.status.errcode = .none
        ∨ (t.status.errcode = .badState ∧ (needs s i).all id = false)
        ∨ (t.status.errcode = .inRange ∧ checksInLen i = true ∧ s.params.inCap < s.inLen.toNat)
        ∨ t.status.errcode ∈ executionErrors i)

/-- Every command ends with BUSY 0 and DONE 1, keeps OVR, and writes nothing the host writes: CMD, ARG, IN_LEN, IRQ_EN,
IN_MEM (60_exceptions.md R241; 10_state.md R42, R46); without an error or exhaustion nothing else of STATUS changes. -/
def Obligations.CommandsKeepHostState : Prop :=
  (∀ s : State, s.complete = { s with status := { s.status with busy := false, done := true }, draws := s.draws + 1 })
    ∧ ∀ (i : Instr) (s t : State), exec i s = .next t →
      t.status.busy = false ∧ t.status.done = true ∧ t.status.ovr = s.status.ovr ∧ t.params = s.params ∧ t.cmd = s.cmd
        ∧ t.arg = s.arg ∧ t.inLen = s.inLen ∧ t.irqEn = s.irqEn ∧ t.inMem = s.inMem ∧ t.host = s.host
        ∧ t.reply = s.reply

/-- RESULT is written only by the three read commands, FREQ only by FREQ_COUNT and COMPRESS, CODE only by CODE_BUILD and
COMPRESS, NODE, NODE_COUNT and ROOT only by TRIE_BUILD, TRIE_DESER, COMPRESS and EXTRACT, RD_END only by RD_INIT and
EXTRACT, DEC_LEN only by PAYLOAD_DEC and EXTRACT, OUT_MEM only by the writer commands (10_state.md R26, R29, R32, R33, R38,
R39, R40, R43). -/
def Obligations.EachRegisterHasItsWriters : Prop :=
  ∀ (i : Instr) (s t : State), exec i s = .next t →
    ((∀ n, i ≠ .rdBits n) → i ≠ .rdBit → i ≠ .rdU32be → t.result = s.result)
      ∧ (i ≠ .freqCount → i ≠ .compress → t.freq = s.freq ∧ t.valid.freq = s.valid.freq)
      ∧ (i ≠ .codeBuild → i ≠ .compress → t.code = s.code)
      ∧ (i ≠ .trieBuild → i ≠ .trieDeser → i ≠ .compress → i ≠ .extract →
          t.node = s.node ∧ t.nodeCount = s.nodeCount ∧ t.root = s.root ∧ t.valid.trie = s.valid.trie)
      ∧ (i ≠ .rdInit → i ≠ .extract → t.rdEnd = s.rdEnd ∧ t.valid.rd = s.valid.rd)
      ∧ (i ≠ .payloadDec → i ≠ .extract → t.decLen = s.decLen)
      ∧ (writesWriter i = false → t.outMem = s.outMem)

/-- An execution error of a command that writes the writer empties it: WR_POS 0, WR_VALID 1, WR_DUMPED 0, OUT_MEM
unspecified (60_exceptions.md R246). -/
def Obligations.ExecutionErrorEmptiesTheWriter : Prop :=
  ∀ (i : Instr) (s t : State), writesWriter i = true → s.status.errcode = .none → exec i s = .next t →
    t.status.errcode ∈ executionErrors i →
    t.wrPos = 0 ∧ t.outLen = 0 ∧ t.valid.wr = true ∧ t.valid.wrDumped = false ∧ t.outMem.cells = []

/-- The flags and counts after an execution error of TRIE_DESER, EXTRACT, CODE_BUILD and COMPRESS (60_exceptions.md R247,
which the spec marks as derived and decided). -/
def Obligations.TablesAfterAnError : Prop :=
  ∀ s t : State, s.status.errcode = .none →
    (exec .trieDeser s = .next t → t.status.errcode ∈ executionErrors .trieDeser →
        t.valid.trie = false ∧ t.valid.code = false ∧ t.nodeCount = 0 ∧ t.root = 0)
      ∧ (exec .extract s = .next t → t.status.errcode ∈ executionErrors .extract →
        t.valid.code = false ∧ (t.status.errcode = .nodeOverflow → t.valid.trie = false)
          ∧ (t.status.errcode = .outOverflow → t.valid.trie = true)
          ∧ (t.valid.trie = false → t.nodeCount = 0 ∧ t.root = 0))
      ∧ (exec .codeBuild s = .next t → t.status.errcode = .codeTooLong → t.valid.code = false)
      ∧ (exec .compress s = .next t → t.status.errcode = .outOverflow →
        t.valid.freq = true ∧ t.valid.trie = true ∧ t.valid.code = true)

/-- After CORRUPT_STREAM the reader stands at its end and EXH is 1 (60_exceptions.md R248). -/
def Obligations.CorruptStreamLeavesReaderAtEnd : Prop :=
  ∀ (i : Instr) (s t : State), s.status.errcode = .none → exec i s = .next t → t.status.errcode = .corruptStream →
    t.rdPos = t.rdEnd ∧ t.status.exh = true

/-! ### Reader commands -/

/-- RD_INIT (40_bitstream.md R118). -/
def Obligations.RdInitStartsTheReader : Prop :=
  decode 0x00000010 = .ok .rdInit ∧ ∀ s : State,
    (s.params.inCap < s.inLen.toNat → exec .rdInit s = .next (s.raise .inRange))
      ∧ (s.inLen.toNat ≤ s.params.inCap → exec .rdInit s =
        .next ({ s with rdPos := 0, rdEnd := 8 * s.inLen, valid := { s.valid with rd := true } }).complete)

/-- RD_BIT (40_bitstream.md R119, R110): stream bit p is bit 7 - (p mod 8) of byte p div 8 (00_scope.md R12). -/
def Obligations.RdBitReadsOneBit : Prop :=
  decode 0x00000011 = .ok .rdBit ∧ ∀ s : State,
    (s.valid.rd = false → exec .rdBit s = .next (s.raise .badState))
      ∧ (s.valid.rd = true → s.rdPos ≠ s.rdEnd → exec .rdBit s =
        .next ({ s with
          result := if (s.inMem.read (s.rdPos.toNat / 8)).getLsbD (7 - s.rdPos.toNat % 8) then 1 else 0
          rdPos := s.rdPos + 1 }).complete)
      ∧ (s.valid.rd = true → s.rdPos = s.rdEnd → exec .rdBit s =
        .next ({ s with result := 0, status := { s.status with exh := true } }).complete)

/-- RD_BITS n (40_bitstream.md R120, R111): with enough bits left RESULT is the n bits, first bit most significant; with
fewer, all are consumed, RESULT is 0 and EXH is 1; N over 8 is illegal. The premise RD_POS ≤ RD_END is 10_state.md R29's
invariant. -/
def Obligations.RdBitsReadsNBits : Prop :=
  (∀ (s : State) (n : BitVec 4), n.toNat ≤ 8 →
    decode ((n.setWidth 32 <<< 8) ||| 0x12) = .ok (.rdBits n)
      ∧ (s.valid.rd = false → exec (.rdBits n) s = .next (s.raise .badState))
      ∧ (s.valid.rd = true → s.rdPos.toNat + n.toNat ≤ s.rdEnd.toNat →
        ∃ r : Word, exec (.rdBits n) s = .next ({ s with result := r, rdPos := s.rdPos + n.setWidth 32 }).complete
          ∧ r.toNat < 2 ^ n.toNat
          ∧ ∀ j < n.toNat, r.getLsbD (n.toNat - 1 - j) = s.inMem.streamBit (s.rdPos.toNat + j))
      ∧ (s.valid.rd = true → s.rdPos.toNat ≤ s.rdEnd.toNat → s.rdEnd.toNat < s.rdPos.toNat + n.toNat →
        exec (.rdBits n) s =
          .next ({ s with result := 0, rdPos := s.rdEnd, status := { s.status with exh := true } }).complete))
    ∧ ∀ n : BitVec 4, 8 < n.toNat → ∃ e, decode ((n.setWidth 32 <<< 8) ||| 0x12) = .error e

/-- RD_U32BE (40_bitstream.md R121, R112): stream bit RD_POS is bit 31 of RESULT. -/
def Obligations.RdU32beReadsBigEndian : Prop :=
  decode 0x00000013 = .ok .rdU32be ∧ ∀ s : State,
    (s.valid.rd = false → exec .rdU32be s = .next (s.raise .badState))
      ∧ (s.valid.rd = true → s.rdPos.toNat + 32 ≤ s.rdEnd.toNat →
        ∃ r : Word, exec .rdU32be s = .next ({ s with result := r, rdPos := s.rdPos + 32 }).complete
          ∧ ∀ j < 32, r.getLsbD (31 - j) = s.inMem.streamBit (s.rdPos.toNat + j))
      ∧ (s.valid.rd = true → s.rdPos.toNat ≤ s.rdEnd.toNat → s.rdEnd.toNat < s.rdPos.toNat + 32 →
        exec .rdU32be s =
          .next ({ s with result := 0, rdPos := s.rdEnd, status := { s.status with exh := true } }).complete)

/-! ### Writer commands -/

/-- WR_INIT (40_bitstream.md R122): it clears no byte of OUT_MEM. -/
def Obligations.WrInitEmptiesTheWriter : Prop :=
  decode 0x00000020 = .ok .wrInit ∧ ∀ s : State, exec .wrInit s =
    .next ({ s with wrPos := 0, valid := { s.valid with wr := true, wrDumped := false } }).complete

/-- WR_BIT b (40_bitstream.md R123, R113): appends IMM8[0], or empties the writer with OUT_OVERFLOW when OUT_MEM is full. -/
def Obligations.WrBitAppendsOneBit : Prop :=
  ∀ (s : State) (v : Byte),
    decode ((v.setWidth 32 <<< 16) ||| 0x21) = .ok (.wrBit v)
      ∧ (s.valid.wr = false → exec (.wrBit v) s = .next (s.raise .badState))
      ∧ (s.valid.wr = true → s.params.wf = true → s.outMem.wf = true → s.wrPos.toNat < 8 * s.params.outCap →
        ∃ m, exec (.wrBit v) s = .next ({ s with wrPos := s.wrPos + 1, outMem := m }).complete
          ∧ Appended s.outMem m s.wrPos.toNat [v.getLsbD 0])
      ∧ (s.valid.wr = true → s.wrPos.toNat = 8 * s.params.outCap →
        exec (.wrBit v) s = .next (s.emptyWriter.raise .outOverflow))

/-- WR_BITS n, v (40_bitstream.md R124, R114): appends v[n-1] first and v[0] last; N over 8 is illegal. -/
def Obligations.WrBitsAppendsNBits : Prop :=
  (∀ (s : State) (n : BitVec 4) (v : Byte), n.toNat ≤ 8 →
    decode ((v.setWidth 32 <<< 16) ||| (n.setWidth 32 <<< 8) ||| 0x22) = .ok (.wrBits n v)
      ∧ (s.valid.wr = false → exec (.wrBits n v) s = .next (s.raise .badState))
      ∧ (s.valid.wr = true → s.params.wf = true → s.outMem.wf = true → s.wrPos.toNat + n.toNat ≤ 8 * s.params.outCap →
        ∃ m, exec (.wrBits n v) s = .next ({ s with wrPos := s.wrPos + n.setWidth 32, outMem := m }).complete
          ∧ Appended s.outMem m s.wrPos.toNat ((List.range n.toNat).map fun j => v.getLsbD (n.toNat - 1 - j)))
      ∧ (s.valid.wr = true → s.params.wf = true → s.wrPos.toNat ≤ 8 * s.params.outCap →
        8 * s.params.outCap < s.wrPos.toNat + n.toNat →
        exec (.wrBits n v) s = .next (s.emptyWriter.raise .outOverflow)))
    ∧ ∀ (n : BitVec 4) (v : Byte), 8 < n.toNat →
      ∃ e, decode ((v.setWidth 32 <<< 16) ||| (n.setWidth 32 <<< 8) ||| 0x22) = .error e

/-- WR_U32BE (40_bitstream.md R125, R115): appends ARG, bit 31 first. -/
def Obligations.WrU32beAppendsArg : Prop :=
  decode 0x00000023 = .ok .wrU32be ∧ ∀ s : State,
    (s.valid.wr = false → exec .wrU32be s = .next (s.raise .badState))
      ∧ (s.valid.wr = true → s.params.wf = true → s.outMem.wf = true → s.wrPos.toNat + 32 ≤ 8 * s.params.outCap →
        ∃ m, exec .wrU32be s = .next ({ s with wrPos := s.wrPos + 32, outMem := m }).complete
          ∧ Appended s.outMem m s.wrPos.toNat ((List.range 32).map fun j => s.arg.getLsbD (31 - j)))
      ∧ (s.valid.wr = true → s.params.wf = true → s.wrPos.toNat ≤ 8 * s.params.outCap →
        8 * s.params.outCap < s.wrPos.toNat + 32 → exec .wrU32be s = .next (s.emptyWriter.raise .outOverflow))

/-- WR_DUMP (40_bitstream.md R126): it writes no bits; the writer is not valid after it. -/
def Obligations.WrDumpFinishesTheBuffer : Prop :=
  decode 0x00000024 = .ok .wrDump ∧ ∀ s : State,
    (s.valid.wr = false → exec .wrDump s = .next (s.raise .badState))
      ∧ (s.valid.wr = true → exec .wrDump s =
        .next ({ s with valid := { s.valid with wr := false, wrDumped := true } }).complete)

/-! ### Frequency analyzer and trie builder -/

/-- FREQ_COUNT (41_frequency.md R140): each counter is the number of input bytes with its value. -/
def Obligations.FreqCountCountsTheInput : Prop :=
  decode 0x00000030 = .ok .freqCount ∧ ∀ s : State,
    (s.params.inCap < s.inLen.toNat → exec .freqCount s = .next (s.raise .inRange))
      ∧ (s.inLen.toNat ≤ s.params.inCap → exec .freqCount s =
        .next ({ s with
          freq := (List.range 256).map fun v =>
            BitVec.ofNat 32 ((List.range s.inLen.toNat).filter fun k => decide ((s.inMem.read k).toNat = v)).length
          valid := { s.valid with freq := true } }).complete)

/-- After FREQ_COUNT or COMPRESS, whatever its result, the counters it wrote sum to IN_LEN (41_frequency.md R141, which the
spec marks as derived). -/
def Obligations.FrequenciesSumToInputLength : Prop :=
  ∀ (i : Instr) (s t : State), i = .freqCount ∨ i = .compress → s.inLen.toNat ≤ s.params.inCap → exec i s = .next t →
    t.freq.length = 256 ∧ (t.freq.map BitVec.toNat).sum = s.inLen.toNat

/-- TRIE_BUILD (42_trie_builder.md R150 to R152, R157): leaves by rank of their byte value, then the internal nodes, the
root last; the placeholder leaf when every counter is 0; under every tie policy the arena is one trie that uses all of
it. -/
def Obligations.TrieBuildMakesATrie : Prop :=
  decode 0x00000040 = .ok .trieBuild ∧ ∀ s : State,
    (s.valid.freq = false → exec .trieBuild s = .next (s.raise .badState))
      ∧ (s.valid.freq = true → ∃ ns t,
        exec .trieBuild s = .next ({ s with
          node := ns
          nodeCount := BitVec.ofNat 32 ns.length
          root := BitVec.ofNat 32 (ns.length - 1)
          valid := { s.valid with trie := true, code := false } }).complete
        ∧ readTrie ns.length ns (ns.length - 1) = some t ∧ t.size = ns.length
        ∧ ∀ n, n = ((List.range 256).filter fun v => decide (s.freqAt v ≠ 0)).length →
          (n = 0 → ns = [.leaf s.params.placeholderSym 0])
            ∧ (0 < n → ns.length = 2 * n - 1
              ∧ (∀ i < n, ∃ v < 256, ns[i]? = some (.leaf (BitVec.ofNat 8 v) (s.freqAt v)) ∧ s.freqAt v ≠ 0
                ∧ ((List.range v).filter fun u => decide (s.freqAt u ≠ 0)).length = i)
              ∧ ∀ i, n ≤ i → i < ns.length → ∃ f l r, ns[i]? = some (.internal f l r)))

/-- Under TIE_POLICY = INDEX each merge takes the two least queued nodes by (frequency, arena index), the least as its
left child, with the sum as its frequency, until only the root, the last node made, is queued (42_trie_builder.md R153,
R154). -/
def Obligations.TrieBuildMergesLeastPair : Prop :=
  ∀ s t : State, s.params.tiePolicy = .index → s.valid.freq = true → exec .trieBuild s = .next t →
    t.nodeCount.toNat = t.node.length ∧ t.root.toNat + 1 = t.node.length
      ∧ (∀ i, queuedAt t.node t.node.length i ↔ i = t.root.toNat)
      ∧ ∀ m f l r, t.node[m]? = some (.internal f l r) →
      queuedAt t.node m l ∧ queuedAt t.node m r ∧ l ≠ r ∧ f = freqOf t.node l + freqOf t.node r
        ∧ comesBefore t.node l r
        ∧ ∀ i, queuedAt t.node m i → i ≠ l → i ≠ r → comesBefore t.node l i ∧ comesBefore t.node r i

/-- Under either tie policy each merge takes two queued nodes no other queued node is less frequent than, in either
order, with the sum as its frequency (42_trie_builder.md R155). -/
def Obligations.TrieBuildConformsUnderAny : Prop :=
  ∀ s t : State, s.valid.freq = true → exec .trieBuild s = .next t →
    ∀ m f l r, t.node[m]? = some (.internal f l r) →
      queuedAt t.node m l ∧ queuedAt t.node m r ∧ l ≠ r ∧ f = freqOf t.node l + freqOf t.node r
        ∧ ∀ i, queuedAt t.node m i → i ≠ l → i ≠ r →
          (freqOf t.node l).toNat ≤ (freqOf t.node i).toNat ∧ (freqOf t.node r).toNat ≤ (freqOf t.node i).toNat

/-! ### Trie codec -/

/-- TRIE_SER (43_trie_codec.md R170, R171): appends the serialized form, 10k - 1 bits for k leaves. -/
def Obligations.TrieSerAppendsThePreorder : Prop :=
  decode 0x00000050 = .ok .trieSer ∧ ∀ s : State,
    (s.valid.wr = false ∨ s.valid.trie = false → exec .trieSer s = .next (s.raise .badState))
      ∧ ∀ t, s.valid.wr = true → s.valid.trie = true → s.trie? = some t → s.params.wf = true → s.outMem.wf = true →
        s.wrPos.toNat ≤ 8 * s.params.outCap →
        t.bits.length + 1 = 10 * t.leaves
          ∧ (s.wrPos.toNat + t.bits.length ≤ 8 * s.params.outCap →
            ∃ m, exec .trieSer s =
                .next ({ s with wrPos := s.wrPos + BitVec.ofNat 32 t.bits.length, outMem := m }).complete
              ∧ Appended s.outMem m s.wrPos.toNat t.bits)
          ∧ (8 * s.params.outCap < s.wrPos.toNat + t.bits.length →
            exec .trieSer s = .next (s.emptyWriter.raise .outOverflow))

/-- TRIE_DESER (43_trie_codec.md R172, R173): a stream that goes on with the serialized form of a trie of at most
NODE_CAP nodes gives that trie, in pre-order, every frequency 0, the reader just after it. -/
def Obligations.TrieDeserReadsThePreorder : Prop :=
  decode 0x00000051 = .ok .trieDeser ∧ ∀ s : State,
    (s.valid.rd = false → exec .trieDeser s = .next (s.raise .badState))
      ∧ ∀ t : Trie, s.valid.rd = true → t.size ≤ s.params.nodeCap →
        s.rdPos.toNat + t.bits.length ≤ s.rdEnd.toNat → s.inMem.stream s.rdPos.toNat t.bits.length = t.bits →
        exec .trieDeser s = .next ({ s with
          node := t.preorder 0
          nodeCount := BitVec.ofNat 32 t.size
          root := 0
          rdPos := s.rdPos + BitVec.ofNat 32 t.bits.length
          valid := { s.valid with trie := true, code := false } }).complete
        ∧ readTrie (t.preorder 0).length (t.preorder 0) 0 = some t

/-- TRIE_DESER on a stream that does not go on with a trie of at most NODE_CAP nodes (43_trie_codec.md R172, R174;
60_exceptions.md R247, R248): NODE_OVERFLOW, RD_POS just after that tag, when the tag bit of node number NODE_CAP is in the
stream; otherwise the stream ends first: CORRUPT_STREAM at its end, with EXH. -/
def Obligations.TrieDeserFailsOtherwise : Prop :=
  ∀ s : State, s.valid.rd = true → s.rdPos.toNat ≤ s.rdEnd.toNat →
    (¬ ∃ t : Trie, t.size ≤ s.params.nodeCap ∧ s.rdPos.toNat + t.bits.length ≤ s.rdEnd.toNat
        ∧ s.inMem.stream s.rdPos.toNat t.bits.length = t.bits) →
    (s.rdEnd.toNat ≤ s.inMem.tagPos s.rdPos.toNat s.params.nodeCap →
      exec .trieDeser s = .next (({ s.beginTrie with
        rdPos := s.rdEnd, status := { s.status with exh := true } }).raise .corruptStream))
    ∧ (s.inMem.tagPos s.rdPos.toNat s.params.nodeCap < s.rdEnd.toNat →
      exec .trieDeser s = .next (({ s.beginTrie with
        rdPos := BitVec.ofNat 32 (s.inMem.tagPos s.rdPos.toNat s.params.nodeCap + 1) }).raise .nodeOverflow))

/-- Serializing the current trie and reading the written bits back gives the same trie, frequencies 0 (43_trie_codec.md
R177, which the spec marks as derived). -/
def Obligations.TrieSurvivesSerialization : Prop :=
  ∀ (s u r : State) (t : Trie), s.valid.wr = true → s.valid.trie = true → s.trie? = some t → s.params.wf = true →
    s.outMem.wf = true → s.wrPos.toNat + t.bits.length ≤ 8 * s.params.outCap → exec .trieSer s = .next u →
    r.valid.rd = true → t.size ≤ r.params.nodeCap → r.rdPos.toNat + t.bits.length ≤ r.rdEnd.toNat →
    r.inMem.stream r.rdPos.toNat t.bits.length = u.outMem.stream s.wrPos.toNat t.bits.length →
    ∃ v, exec .trieDeser r = .next v ∧ v.trie? = some t ∧ v.valid.trie = true
      ∧ (∀ n ∈ v.node, n.freq = 0)

/-! ### Code table -/

/-- CODE_BUILD (44_code_table.md R190 to R192): each byte gets the path of its last leaf in left-first order, every other
entry is absent; a leaf deeper than 255 is CODE_TOO_LONG. -/
def Obligations.CodeBuildStoresThePaths : Prop :=
  decode 0x00000060 = .ok .codeBuild ∧ ∀ s : State,
    (s.valid.trie = false → exec .codeBuild s = .next (s.raise .badState))
      ∧ ∀ t, s.valid.trie = true → s.trie? = some t →
        (t.depth ≤ 255 → exec .codeBuild s = .next ({ s with
            code := (List.range 256).map fun v => t.codeOf (BitVec.ofNat 8 v)
            valid := { s.valid with code := true } }).complete)
          ∧ (255 < t.depth → exec .codeBuild s = .next (({ s with
            code := [], valid := { s.valid with code := false } }).raise .codeTooLong))

/-- For a trie without repeated leaf values the codes CODE_BUILD makes are prefix-free, and with more than one leaf none
is empty (44_code_table.md R193; the second part is marked derived). -/
def Obligations.CodesArePrefixFree : Prop :=
  ∀ (s u : State) (t : Trie), s.trie? = some t → (t.paths.map Prod.fst).Nodup → s.valid.trie = true → t.depth ≤ 255 →
    exec .codeBuild s = .next u →
    (∀ (a b : Nat) (ea eb : CodeEntry), a ≠ b → u.code[a]? = some ea → u.code[b]? = some eb → ea.present = true → eb.present = true →
        ¬ ea.bits <+: eb.bits)
      ∧ (1 < t.leaves → ∀ e ∈ u.code, e.present = true → e.bits ≠ [])

/-! ### Payload codec -/

/-- PAYLOAD_ENC (45_payload_codec.md R200, R201): appends the 32-bit length and the code of every input byte; the first
byte without a code is MISSING_CODE unless OUT_MEM fills before it. -/
def Obligations.PayloadEncAppendsLengthAndCodes : Prop :=
  decode 0x00000070 = .ok .payloadEnc ∧ ∀ s : State,
    (s.valid.wr = false ∨ s.valid.code = false → exec .payloadEnc s = .next (s.raise .badState))
      ∧ ∀ k, s.valid.wr = true → s.valid.code = true → s.inLen.toNat ≤ s.params.inCap → s.params.wf = true →
        s.outMem.wf = true → s.wrPos.toNat ≤ 8 * s.params.outCap → k ≤ s.inLen.toNat →
        (∀ j < k, (s.codeAt (s.inMem.read j).toNat).present = true) →
        ∀ bits, bits = wordBits s.inLen ++ ((List.range k).flatMap fun j => (s.codeAt (s.inMem.read j).toNat).bits) →
        (8 * s.params.outCap < s.wrPos.toNat + bits.length →
            exec .payloadEnc s = .next (s.emptyWriter.raise .outOverflow))
          ∧ (k = s.inLen.toNat → s.wrPos.toNat + bits.length ≤ 8 * s.params.outCap →
            ∃ m, exec .payloadEnc s =
                .next ({ s with wrPos := s.wrPos + BitVec.ofNat 32 bits.length, outMem := m }).complete
              ∧ Appended s.outMem m s.wrPos.toNat bits)
          ∧ (k < s.inLen.toNat → (s.codeAt (s.inMem.read k).toNat).present = false →
            s.wrPos.toNat + bits.length ≤ 8 * s.params.outCap →
            exec .payloadEnc s = .next (s.emptyWriter.raise .missingCode))

/-- PAYLOAD_DEC (45_payload_codec.md R202 to R204): a stream that goes on with a length L and L paths of the trie decodes
to the L leaf bytes and is read no further. -/
def Obligations.PayloadDecDecodesTheSymbols : Prop :=
  decode 0x00000071 = .ok .payloadDec ∧ ∀ s : State,
    (s.valid.wr = false ∨ s.valid.rd = false ∨ s.valid.trie = false → exec .payloadDec s = .next (s.raise .badState))
      ∧ ∀ (t : Trie) (len : Word) (ps : List (Byte × List Bool)), s.valid.wr = true → s.valid.rd = true →
        s.valid.trie = true → s.trie? = some t → s.params.wf = true → s.outMem.wf = true → ps.length = len.toNat →
        (∀ x ∈ ps, x ∈ t.paths) →
        ∀ bits, bits = wordBits len ++ ps.flatMap Prod.snd → s.rdPos.toNat + bits.length ≤ s.rdEnd.toNat →
        s.inMem.stream s.rdPos.toNat bits.length = bits → s.wrPos.toNat + 8 * ps.length ≤ 8 * s.params.outCap →
        ∃ m, exec .payloadDec s = .next ({ s with
            decLen := len
            rdPos := s.rdPos + BitVec.ofNat 32 bits.length
            wrPos := s.wrPos + BitVec.ofNat 32 (8 * ps.length)
            outMem := m }).complete
          ∧ Appended s.outMem m s.wrPos.toNat (ps.flatMap fun x => byteBits x.1)

/-- The errors of PAYLOAD_DEC (45_payload_codec.md R202; 60_exceptions.md R246, R248): the stream ends inside the length,
or inside a walk, or a decoded byte does not fit. -/
def Obligations.PayloadDecErrors : Prop :=
  ∀ s : State, s.valid.wr = true → s.valid.rd = true → s.valid.trie = true → s.params.wf = true → s.outMem.wf = true →
    s.rdPos.toNat ≤ s.rdEnd.toNat → s.wrPos.toNat ≤ 8 * s.params.outCap →
    (s.rdEnd.toNat < s.rdPos.toNat + 32 → exec .payloadDec s = .next (({ s.emptyWriter with
        decLen := 0, rdPos := s.rdEnd, status := { s.status with exh := true } }).raise .corruptStream))
    ∧ ∀ (t : Trie) (len : Word) (ps : List (Byte × List Bool)), s.trie? = some t → (∀ x ∈ ps, x ∈ t.paths) →
      ∀ bits, bits = wordBits len ++ ps.flatMap Prod.snd → s.rdPos.toNat + bits.length ≤ s.rdEnd.toNat →
      s.inMem.stream s.rdPos.toNat bits.length = bits →
      (ps.length < len.toNat → s.wrPos.toNat + 8 * ps.length ≤ 8 * s.params.outCap →
        (∀ x ∈ t.paths, ¬ (s.rdPos.toNat + bits.length + x.2.length ≤ s.rdEnd.toNat
          ∧ s.inMem.stream (s.rdPos.toNat + bits.length) x.2.length = x.2)) →
        exec .payloadDec s = .next (({ s.emptyWriter with
          decLen := len, rdPos := s.rdEnd, status := { s.status with exh := true } }).raise .corruptStream))
      ∧ (0 < ps.length → ps.length ≤ len.toNat → s.wrPos.toNat + 8 * (ps.length - 1) ≤ 8 * s.params.outCap →
        8 * s.params.outCap < s.wrPos.toNat + 8 * ps.length →
        exec .payloadDec s = .next (({ s.emptyWriter with
          decLen := len, rdPos := s.rdPos + BitVec.ofNat 32 bits.length }).raise .outOverflow))

/-! ### Orchestrator -/

/-- COMPRESS (46_orchestrator.md R220, R221): the input's counts, a trie built from them, its code table, and the finished
buffer of trie, length, codes and zero padding; or OUT_OVERFLOW with the three tables valid and the writer emptied. -/
def Obligations.CompressWritesTheWireFormat : Prop :=
  decode 0x00000080 = .ok .compress ∧ ∀ s : State,
    (s.params.inCap < s.inLen.toNat → exec .compress s = .next (s.raise .inRange))
      ∧ (s.params.wf = true → s.outMem.wf = true → s.inLen.toNat ≤ s.params.inCap →
        ∃ t ns, s.inputTrie = some t ∧ readTrie ns.length ns (ns.length - 1) = some t ∧ t.size = ns.length
          ∧ t.leaves = max 1 ((List.range 256).filter fun v => decide (s.inputCount v ≠ 0)).length
          ∧ ((s.wireBits t).length ≤ 8 * s.params.outCap →
            ∃ m, exec .compress s = .next ({ s with
                freq := (List.range 256).map fun v => BitVec.ofNat 32 (s.inputCount v)
                node := ns
                nodeCount := BitVec.ofNat 32 ns.length
                root := BitVec.ofNat 32 (ns.length - 1)
                code := (List.range 256).map fun v => t.codeOf (BitVec.ofNat 8 v)
                wrPos := BitVec.ofNat 32 (s.wireBits t).length
                outMem := m
                valid := ⟨true, true, true, s.valid.rd, false, true⟩ }).complete
              ∧ Appended s.outMem m 0 (s.wireBits t))
          ∧ (8 * s.params.outCap < (s.wireBits t).length →
            ∃ fill, exec .compress s = .next (({ s with
                freq := (List.range 256).map fun v => BitVec.ofNat 32 (s.inputCount v)
                node := ns
                nodeCount := BitVec.ofNat 32 ns.length
                root := BitVec.ofNat 32 (ns.length - 1)
                code := (List.range 256).map fun v => t.codeOf (BitVec.ofNat 8 v)
                wrPos := 0
                outMem := ⟨[], fill⟩
                valid := ⟨true, true, true, s.valid.rd, true, false⟩ }).raise .outOverflow)))

/-- EXTRACT (46_orchestrator.md R222): a stream of a trie of at most NODE_CAP nodes, a length and that many paths gives
the decoded bytes as a finished buffer; what follows in IN_MEM is not read. Any other stream is an error with the writer
emptied (60_exceptions.md R246 to R248): inside the trie (the empty input too) no trie is left and DEC_LEN is as it was (DEDUCED: notes/assumptions/22.md);
inside the length, inside a walk, or with a byte that does not fit, the trie is left. -/
def Obligations.ExtractDecodesTheWireFormat : Prop :=
  decode 0x00000081 = .ok .extract ∧ ∀ s : State,
    (s.params.inCap < s.inLen.toNat → exec .extract s = .next (s.raise .inRange))
      ∧ (s.inLen = 0 → ∃ fill, exec .extract s = .next (({ s.beginTrie with
          rdPos := 0
          rdEnd := 0
          wrPos := 0
          outMem := ⟨[], fill⟩
          status := { s.status with exh := true }
          valid := { s.valid with trie := false, code := false, rd := true, wr := true, wrDumped := false }
          }).raise .corruptStream))
      ∧ (∀ (t : Trie) (len : Word) (ps : List (Byte × List Bool)), s.params.wf = true → s.outMem.wf = true →
        s.inLen.toNat ≤ s.params.inCap → t.size ≤ s.params.nodeCap → ps.length = len.toNat → (∀ x ∈ ps, x ∈ t.paths) →
        ps.length ≤ s.params.outCap →
        ∀ bits, bits = t.bits ++ (wordBits len ++ ps.flatMap Prod.snd) → bits.length ≤ 8 * s.inLen.toNat →
        s.inMem.stream 0 bits.length = bits →
        ∃ m, exec .extract s = .next ({ s with
            rdPos := BitVec.ofNat 32 bits.length
            rdEnd := 8 * s.inLen
            node := t.preorder 0
            nodeCount := BitVec.ofNat 32 t.size
            root := 0
            decLen := len
            wrPos := BitVec.ofNat 32 (8 * ps.length)
            outMem := m
            valid := ⟨s.valid.freq, true, false, true, false, true⟩ }).complete
          ∧ (∀ k x, ps[k]? = some x → m.read k = x.1) ∧ ∀ k, ps.length ≤ k → m.read k = s.outMem.read k)
      ∧ (s.params.wf = true → s.inLen.toNat ≤ s.params.inCap →
        (¬ ∃ t : Trie, t.size ≤ s.params.nodeCap ∧ t.bits.length ≤ 8 * s.inLen.toNat
          ∧ s.inMem.stream 0 t.bits.length = t.bits) →
        ∃ fill, ∀ b, b = { s with
            rdEnd := 8 * s.inLen
            node := []
            nodeCount := 0
            root := 0
            wrPos := 0
            outMem := ⟨[], fill⟩
            valid := ⟨s.valid.freq, false, false, true, true, false⟩ } →
          (8 * s.inLen.toNat ≤ s.inMem.tagPos 0 s.params.nodeCap → exec .extract s = .next (({ b with
              rdPos := 8 * s.inLen, status := { s.status with exh := true } }).raise .corruptStream))
          ∧ (s.inMem.tagPos 0 s.params.nodeCap < 8 * s.inLen.toNat → exec .extract s = .next (({ b with
              rdPos := BitVec.ofNat 32 (s.inMem.tagPos 0 s.params.nodeCap + 1) }).raise .nodeOverflow)))
      ∧ ∀ t : Trie, s.params.wf = true → s.outMem.wf = true → s.inLen.toNat ≤ s.params.inCap →
        t.size ≤ s.params.nodeCap → t.bits.length ≤ 8 * s.inLen.toNat → s.inMem.stream 0 t.bits.length = t.bits →
        ∃ fill, ∀ b, b = { s with
            rdEnd := 8 * s.inLen
            node := t.preorder 0
            nodeCount := BitVec.ofNat 32 t.size
            root := 0
            wrPos := 0
            outMem := ⟨[], fill⟩
            valid := ⟨s.valid.freq, true, false, true, true, false⟩ } →
          (8 * s.inLen.toNat < t.bits.length + 32 → exec .extract s = .next (({ b with
              decLen := 0, rdPos := 8 * s.inLen, status := { s.status with exh := true } }).raise .corruptStream))
          ∧ ∀ (len : Word) (ps : List (Byte × List Bool)), (∀ x ∈ ps, x ∈ t.paths) →
            ∀ bits, bits = t.bits ++ (wordBits len ++ ps.flatMap Prod.snd) → bits.length ≤ 8 * s.inLen.toNat →
            s.inMem.stream 0 bits.length = bits →
            (ps.length < len.toNat → ps.length ≤ s.params.outCap →
              (∀ x ∈ t.paths, ¬ (bits.length + x.2.length ≤ 8 * s.inLen.toNat
                ∧ s.inMem.stream bits.length x.2.length = x.2)) →
              exec .extract s = .next (({ b with
                decLen := len, rdPos := 8 * s.inLen, status := { s.status with exh := true } }).raise .corruptStream))
            ∧ (ps.length = s.params.outCap + 1 → ps.length ≤ len.toNat → exec .extract s = .next (({ b with
                decLen := len, rdPos := BitVec.ofNat 32 bits.length }).raise .outOverflow))

/-- extract(compress(x)) = x under both tie policies (46_orchestrator.md R223, which the spec marks as derived; 00_scope.md
R18): when COMPRESS of x ends without error and its buffer is placed in the IN_MEM of a block `u`, EXTRACT there gives
back x, or ends with OUT_OVERFLOW because x does not fit that block's OUT_MEM. -/
def Obligations.ExtractInvertsCompress : Prop :=
  ∀ s t u : State, s.params.wf = true → s.outMem.wf = true → s.status.err = false →
    s.inLen.toNat ≤ s.params.inCap → exec .compress s = .next t → t.status.err = false →
    u.params.wf = true → u.outMem.wf = true → u.status.err = false → u.inLen.toNat = t.outLen →
    t.outLen ≤ u.params.inCap → (∀ k < t.outLen, u.inMem.read k = t.outMem.read k) →
    ∃ v, exec .extract u = .next v
      ∧ ((v.status.err = false ∧ v.outLen = s.inLen.toNat ∧ ∀ k < s.inLen.toNat, v.outMem.read k = s.inMem.read k)
        ∨ (u.params.outCap < s.inLen.toNat ∧ v.status.errcode = .outOverflow))

/-! ### Invariants -/

/-- Every step keeps STATUS consistent: while BUSY nothing else but OVR is set (60_exceptions.md R241), and ERR goes with a
nonzero ERRCODE (R243, R245). -/
def Obligations.StepKeepsStatusConsistent : Prop :=
  ∀ s t : State, s.status.wf = true → step s = .next t → t.status.wf = true

/-- Every step keeps the cursors in their streams (10_state.md R29, R30), both memories canonical and inside their
capacities, every begun byte defined and the padding 0 (40_bitstream.md R116). -/
def Obligations.StepKeepsCursorsAndMemories : Prop :=
  ∀ s t : State, s.cursorsOk = true → s.memoriesOk = true → s.bufferOk = true → step s = .next t →
    t.cursorsOk = true ∧ t.memoriesOk = true ∧ t.bufferOk = true

/-- Every step keeps what the valid flags promise: the arena is a trie, FREQ holds the counts of some input, CODE is the
code table of the current trie (10_state.md R31, R41). -/
def Obligations.StepKeepsValidTables : Prop :=
  ∀ s t : State, s.params.wf = true → s.trieOk = true → s.freqOk = true → s.codeOk = true → step s = .next t →
    t.params = s.params ∧ t.trieOk = true ∧ t.freqOk = true ∧ t.codeOk = true

/-- Where TRIE_VALID promises a trie the machine never stops: every step answers a next state (60_exceptions.md R245: an
error is the command's result, not a trap). -/
def Obligations.StepNeverStops : Prop :=
  ∀ s : State, s.params.wf = true → s.trieOk = true → ∃ t, step s = .next t
end

