-- ==== Sys2Proof/Laws/Memory.lean ====
section
/-! SUPPORT. Byte memories: read after write, and that every operation keeps the canonical form and the bounds. -/

namespace Sys2Proof.Machine

theorem cellsFind_cellsPut (cs : List Host.Cell) (k j : Nat) (b : Byte) (h : cellsRise none cs = true) :
    cellsFind (cellsPut cs k b) j = if j = k then some b else cellsFind cs j := by
  have key : ∀ (lo : Option Nat) (cs : List Host.Cell), cellsRise lo cs = true →
      cellsFind (cellsPut cs k b) j = if j = k then some b else cellsFind cs j := by
    intro lo cs
    induction cs generalizing lo with
    | nil => intro _; simp [cellsPut, cellsFind, eq_comm]
    | cons c rest ih =>
      obtain ⟨a, x⟩ := c
      intro h
      have hr : cellsRise (some a) rest = true := by
        cases lo <;> simp_all [cellsRise]
      unfold cellsPut
      split
      · simp [cellsFind, eq_comm]
      · split
        · subst_vars
          by_cases hj : j = a <;> simp [cellsFind, hj, eq_comm]
        · rename_i h1 h2
          by_cases hj : a = j
          · subst hj
            simp [cellsFind, Ne.symm h2]
          · simp only [cellsFind, hj, if_false]
            exact ih _ hr
  exact key none cs h

theorem cellsRise_weaken (lo : Option Nat) (cs : List Host.Cell) (h : cellsRise lo cs = true) :
    cellsRise none cs = true := by
  cases lo <;> cases cs <;> simp_all [cellsRise]

theorem cellsRise_cellsPut (lo : Option Nat) (cs : List Host.Cell) (k : Nat) (b : Byte)
    (h : cellsRise lo cs = true) (hk : ∀ l, lo = some l → l < k) : cellsRise lo (cellsPut cs k b) = true := by
  induction cs generalizing lo with
  | nil => cases lo <;> simp_all [cellsPut, cellsRise]
  | cons c rest ih =>
    obtain ⟨a, x⟩ := c
    have hr : cellsRise (some a) rest = true := by cases lo <;> simp_all [cellsRise]
    have hlo : ∀ l, lo = some l → l < a := by cases lo <;> simp_all [cellsRise]
    unfold cellsPut
    split
    · rename_i hka
      cases lo <;> simp_all [cellsRise]
    · split
      · subst_vars
        cases lo <;> simp_all [cellsRise]
      · rename_i h1 h2
        have := ih (some a) hr (by simp; omega)
        cases lo <;> simp_all [cellsRise]

/-- A write keeps the canonical form. -/
theorem Memory.wf_write (m : Memory) (k : Nat) (b : Byte) (h : m.wf = true) : (m.write k b).wf = true :=
  cellsRise_cellsPut none m.cells k b h (by simp)

theorem mem_cellsPut (cs : List Host.Cell) (k : Nat) (b : Byte) (c : Host.Cell) (h : c ∈ cellsPut cs k b) :
    c = (k, b) ∨ c ∈ cs := by
  induction cs with
  | nil => simpa [cellsPut] using h
  | cons d rest ih =>
    obtain ⟨a, x⟩ := d
    unfold cellsPut at h
    split at h
    · simpa using h
    · split at h
      · simp only [List.mem_cons] at h ⊢; tauto
      · simp only [List.mem_cons] at h ⊢; tauto

/-- A write below the capacity keeps every address below it. -/
theorem Memory.below_write (m : Memory) (k cap : Nat) (b : Byte) (h : m.below cap = true) (hk : k < cap) :
    (m.write k b).below cap = true := by
  simp only [Memory.below, List.all_eq_true, decide_eq_true_eq] at h ⊢
  intro c hc
  rcases mem_cellsPut _ _ _ _ hc with rfl | hm
  · exact hk
  · exact h c hm

@[simp] theorem Memory.write_fill (m : Memory) (k : Nat) (b : Byte) : (m.write k b).fill = m.fill := rfl

/-- Read after write. -/
theorem Memory.read_write (m : Memory) (k j : Nat) (b : Byte) (h : m.wf = true) :
    (m.write k b).read j = if j = k then b else m.read j := by
  have := cellsFind_cellsPut m.cells k j b h
  simp only [Memory.read, Memory.write, this, Memory.unlisted]
  split <;> rfl

/-- A memory with nothing listed is canonical (reset, 60_exceptions.md R246). -/
@[simp] theorem Memory.wf_empty (f : Nat) : (Memory.mk [] f).wf = true := rfl

@[simp] theorem Memory.below_empty (f cap : Nat) : (Memory.mk [] f).below cap = true := rfl

/-- A host store keeps IN_MEM canonical and inside its capacity (20_memory.md R64). -/
theorem storeIn_wf (cap : Nat) (v : Word) (k n : Nat) (m : Memory) (h : m.wf = true) :
    (storeIn cap v k n m).wf = true := by
  induction n with
  | zero => exact h
  | succ n ih =>
    simp only [storeIn]
    split
    · exact Memory.wf_write _ _ _ ih
    · exact ih

theorem storeIn_below (cap : Nat) (v : Word) (k n : Nat) (m : Memory) (h : m.below cap = true) :
    (storeIn cap v k n m).below cap = true := by
  induction n with
  | zero => exact h
  | succ n ih =>
    simp only [storeIn]
    split
    · exact Memory.below_write _ _ _ _ ih (by assumption)
    · exact ih

/-- What a host store leaves at every address (20_memory.md R64, R69). -/
theorem storeIn_read (cap : Nat) (v : Word) (k n j : Nat) (m : Memory) (h : m.wf = true) :
    (storeIn cap v k n m).read j = if k ≤ j ∧ j < k + n ∧ j < cap then dataLane v (j - k) else m.read j := by
  induction n with
  | zero => simp [storeIn]; intro h1 h2; omega
  | succ n ih =>
    simp only [storeIn]
    split
    · rename_i hc
      rw [Memory.read_write _ _ _ _ (storeIn_wf _ _ _ _ _ h), ih]
      by_cases hj : j = k + n
      · subst hj
        rw [if_pos rfl, if_pos ⟨by omega, by omega, hc⟩]
        congr 1; omega
      · rw [if_neg hj]
        by_cases hh : k ≤ j ∧ j < k + n ∧ j < cap
        · rw [if_pos hh, if_pos ⟨hh.1, by omega, hh.2.2⟩]
        · rw [if_neg hh, if_neg (by omega)]
    · rename_i hc
      rw [ih]
      by_cases hh : k ≤ j ∧ j < k + n ∧ j < cap
      · rw [if_pos hh, if_pos ⟨hh.1, by omega, hh.2.2⟩]
      · rw [if_neg hh, if_neg (by omega)]

end Sys2Proof.Machine
end

