-- ==== Sys2Proof/Laws/BitStream.lean ====
section
/-! SUPPORT. What the reader and writer primitives do (40_bitstream.md R110 to R116), said once: `rdBits_enough`,
`rdBits_short`, `rdU32be_enough`, `rdU32be_short` for the reader, `wrSeq_fits` and `wrSeq_over` for the writer, and every writer
primitive as a `wrSeq`. -/

namespace Sys2Proof.Machine

/-! ### Reader -/

theorem toNat_add_one_of_lt (p : Word) (h : p.toNat + 1 < 2 ^ 32) : (p + 1).toNat = p.toNat + 1 := by
  have h1 : (1 : Word).toNat = 1 := rfl
  simp only [BitVec.toNat_add, h1]
  omega

theorem toNat_add_one (p e : Word) (h : p.toNat < e.toNat) : (p + 1).toNat = p.toNat + 1 := by
  have := e.isLt
  exact toNat_add_one_of_lt p (by omega)

theorem toNat_add_ofNat (p : Word) (n : Nat) (h : p.toNat + n < 2 ^ 32) : (p + BitVec.ofNat 32 n).toNat = p.toNat + n := by
  simp only [BitVec.toNat_add, BitVec.toNat_ofNat]
  omega

theorem add_ofNat_succ (p : Word) (n : Nat) : p + 1 + BitVec.ofNat 32 n = p + BitVec.ofNat 32 (n + 1) := by
  apply BitVec.eq_of_toNat_eq
  have h1 : (1 : Word) = BitVec.ofNat 32 1 := rfl
  rw [h1]
  simp only [BitVec.toNat_add, BitVec.toNat_ofNat]
  omega

theorem add_ofNat_add (p : Word) (a b : Nat) :
    p + BitVec.ofNat 32 a + BitVec.ofNat 32 b = p + BitVec.ofNat 32 (a + b) := by
  apply BitVec.eq_of_toNat_eq
  simp only [BitVec.toNat_add, BitVec.toNat_ofNat]
  omega

theorem rdBit_more (m : Memory) (e pos : Word) (h : pos.toNat < e.toNat) :
    rdBit m e pos = (some (m.streamBit pos.toNat), pos + 1) := by
  have : pos ≠ e := by rintro rfl; omega
  simp [rdBit, this]

@[simp] theorem rdBit_end (m : Memory) (e : Word) : rdBit m e e = (none, e) := by simp [rdBit]

/-- Bit `i` of the value after `n` more bits: the last read is bit 0 (40_bitstream.md R111). -/
theorem rdBitsFrom_enough (m : Memory) (e : Word) (n : Nat) (v : Byte) (pos : Word)
    (h : pos.toNat + n ≤ e.toNat) :
    ∃ r : Byte, rdBitsFrom m e n v pos = (some r, pos + BitVec.ofNat 32 n) ∧
      ∀ i < 8, r.getLsbD i = if i < n then m.streamBit (pos.toNat + n - 1 - i) else v.getLsbD (i - n) := by
  induction n generalizing v pos with
  | zero => exact ⟨v, by simp [rdBitsFrom], by simp⟩
  | succ n ih =>
    have hp : (pos + 1).toNat = pos.toNat + 1 := toNat_add_one pos e (by omega)
    obtain ⟨r, hr, hb⟩ := ih ((v <<< 1) ||| bitAsByte (m.streamBit pos.toNat)) (pos + 1) (by omega)
    refine ⟨r, ?_, ?_⟩
    · rw [← add_ofNat_succ, ← hr]
      simp [rdBitsFrom, rdBit_more m e pos (by omega)]
    · intro i hi
      rw [hb i hi, hp]
      by_cases h1 : i < n
      · rw [if_pos h1, if_pos (by omega)]; congr 1; omega
      · rw [if_neg h1]
        by_cases h2 : i = n
        · subst h2
          rw [if_pos (by omega)]
          have : pos.toNat + (i + 1) - 1 - i = pos.toNat := by omega
          rw [this]
          cases m.streamBit pos.toNat <;> simp [bitAsByte]
        · rw [if_neg (by omega)]
          have h3 : i - n = (i - (n + 1)) + 1 := by omega
          rw [h3]
          have h4 : i - (n + 1) + 1 < 8 := by omega
          have h5 : (bitAsByte (m.streamBit pos.toNat)).getLsbD (i - (n + 1) + 1) = false := by
            cases m.streamBit pos.toNat <;> simp [bitAsByte, BitVec.getLsbD_one]
          simp only [BitVec.getLsbD_or, BitVec.getLsbD_shiftLeft, h5, h4]
          simp

theorem rdBitsFrom_short (m : Memory) (e : Word) (n : Nat) (v : Byte) (pos : Word)
    (h : pos.toNat ≤ e.toNat) (hs : e.toNat < pos.toNat + n) : rdBitsFrom m e n v pos = (none, e) := by
  induction n generalizing v pos with
  | zero => omega
  | succ n ih =>
    by_cases hp : pos = e
    · subst hp; simp [rdBitsFrom]
    · have hlt : pos.toNat < e.toNat := by
        have : pos.toNat ≠ e.toNat := fun h => hp (BitVec.eq_of_toNat_eq h)
        omega
      have hq : (pos + 1).toNat = pos.toNat + 1 := toNat_add_one pos e hlt
      simp only [rdBitsFrom, rdBit_more m e pos hlt]
      exact ih _ _ (by omega) (by omega)

/-- `rd_bits(n)` with enough bits left (40_bitstream.md R111). -/
theorem rdBits_enough (m : Memory) (e : Word) (n : Nat) (pos : Word) (hn : n ≤ 8) (h : pos.toNat + n ≤ e.toNat) :
    ∃ r : Byte, rdBits m e n pos = (some r, pos + BitVec.ofNat 32 n) ∧ lowBits n r = m.stream pos.toNat n
      ∧ ∀ i, n ≤ i → r.getLsbD i = false := by
  obtain ⟨r, hr, hb⟩ := rdBitsFrom_enough m e n 0 pos h
  refine ⟨r, hr, ?_, ?_⟩
  · apply List.ext_getElem
    · simp [lowBits, Memory.stream]
    · intro i h1 h2
      simp only [lowBits, Memory.stream, List.getElem_map, List.getElem_range]
      simp only [lowBits, List.length_map, List.length_range] at h1
      rw [hb (n - 1 - i) (by omega), if_pos (by omega)]
      congr 1; omega
  · intro i hi
    by_cases h8 : i < 8
    · rw [hb i h8, if_neg (by omega)]; simp
    · exact BitVec.getLsbD_of_ge r i (by omega)

/-- `rd_bits(n)` with fewer than n bits left (40_bitstream.md R111): exhausted, RD_POS at RD_END. -/
theorem rdBits_short (m : Memory) (e : Word) (n : Nat) (pos : Word) (h : pos.toNat ≤ e.toNat)
    (hs : e.toNat < pos.toNat + n) : rdBits m e n pos = (none, e) := rdBitsFrom_short m e n 0 pos h hs

theorem rdBits8 (m : Memory) (e pos : Word) (h : pos.toNat + 8 ≤ e.toNat) :
    ∃ r : Byte, rdBits m e 8 pos = (some r, pos + BitVec.ofNat 32 8) ∧
      ∀ i < 8, r.getLsbD i = m.streamBit (pos.toNat + 7 - i) := by
  obtain ⟨r, hr, hb⟩ := rdBitsFrom_enough m e 8 0 pos h
  refine ⟨r, hr, fun i hi => ?_⟩
  rw [hb i hi, if_pos hi]
  rfl

theorem rdBytesFrom_enough (m : Memory) (e : Word) (n : Nat) (v : Word) (pos : Word)
    (h : pos.toNat + 8 * n ≤ e.toNat) :
    ∃ r : Word, rdBytesFrom m e n v pos = (some r, pos + BitVec.ofNat 32 (8 * n)) ∧
      ∀ i < 32, r.getLsbD i = if i < 8 * n then m.streamBit (pos.toNat + 8 * n - 1 - i) else v.getLsbD (i - 8 * n) := by
  induction n generalizing v pos with
  | zero => exact ⟨v, by simp [rdBytesFrom], by simp⟩
  | succ n ih =>
    obtain ⟨c, hc, hcb⟩ := rdBits8 m e pos (by omega)
    have he := e.isLt
    have hp : (pos + BitVec.ofNat 32 8).toNat = pos.toNat + 8 := toNat_add_ofNat pos 8 (by omega)
    obtain ⟨r, hr, hb⟩ := ih ((v <<< 8) ||| c.setWidth 32) (pos + BitVec.ofNat 32 8) (by omega)
    refine ⟨r, ?_, ?_⟩
    · have : 8 * (n + 1) = 8 + 8 * n := by omega
      rw [this, ← add_ofNat_add, ← hr]
      simp [rdBytesFrom, hc]
    · intro i hi
      rw [hb i hi, hp]
      by_cases h1 : i < 8 * n
      · rw [if_pos h1, if_pos (by omega)]; congr 1; omega
      · rw [if_neg h1]
        by_cases h2 : i < 8 * (n + 1)
        · rw [if_pos h2]
          have h3 : i - 8 * n < 8 := by omega
          have hcb' := hcb (i - 8 * n) h3
          simp only [BitVec.getLsbD_or, BitVec.getLsbD_shiftLeft, BitVec.getLsbD_setWidth]
          rw [hcb']
          simp [h3, show i - 8 * n < 32 by omega]
          congr 1; omega
        · rw [if_neg h2]
          have h3 : ¬ i - 8 * n < 8 := by omega
          have h4 : i - 8 * n < 32 := by omega
          simp only [BitVec.getLsbD_or, BitVec.getLsbD_shiftLeft, BitVec.getLsbD_setWidth]
          rw [BitVec.getLsbD_of_ge c (i - 8 * n) (by omega)]
          simp [h3, h4]
          congr 1

theorem rdBytesFrom_short (m : Memory) (e : Word) (n : Nat) (v : Word) (pos : Word)
    (h : pos.toNat ≤ e.toNat) (hs : e.toNat < pos.toNat + 8 * n) : rdBytesFrom m e n v pos = (none, e) := by
  induction n generalizing v pos with
  | zero => omega
  | succ n ih =>
    by_cases h8 : pos.toNat + 8 ≤ e.toNat
    · obtain ⟨c, hc, -⟩ := rdBits8 m e pos h8
      have he := e.isLt
      have hp : (pos + BitVec.ofNat 32 8).toNat = pos.toNat + 8 := toNat_add_ofNat pos 8 (by omega)
      simp only [rdBytesFrom, hc]
      exact ih _ _ (by omega) (by omega)
    · simp [rdBytesFrom, rdBits_short m e 8 pos h (by omega)]

/-- `rd_u32be()` with 32 bits left (40_bitstream.md R112). -/
theorem rdU32be_enough (m : Memory) (e pos : Word) (h : pos.toNat + 32 ≤ e.toNat) :
    ∃ r : Word, rdU32be m e pos = (some r, pos + 32) ∧ wordBits r = m.stream pos.toNat 32 := by
  obtain ⟨r, hr, hb⟩ := rdBytesFrom_enough m e 4 0 pos h
  refine ⟨r, hr, ?_⟩
  apply List.ext_getElem
  · simp [wordBits, Memory.stream]
  · intro i h1 h2
    simp only [wordBits, Memory.stream, List.getElem_map, List.getElem_range]
    simp only [wordBits, List.length_map, List.length_range] at h1
    rw [hb (31 - i) (by omega), if_pos (by omega)]
    congr 1; omega

/-- `rd_u32be()` with fewer than 32 bits left (40_bitstream.md R112). -/
theorem rdU32be_short (m : Memory) (e pos : Word) (h : pos.toNat ≤ e.toNat) (hs : e.toNat < pos.toNat + 32) :
    rdU32be m e pos = (none, e) := rdBytesFrom_short m e 4 0 pos h hs

/-- 32 bits determine a word. -/
theorem wordBits_injective (a b : Word) (h : wordBits a = wordBits b) : a = b := by
  apply BitVec.eq_of_getLsbD_eq
  intro i hi
  have := congrArg (fun l => l[31 - i]?) h
  simp only [wordBits, List.getElem?_map, List.getElem?_range (show 31 - i < 32 by omega), Option.map_some,
    Option.some.injEq] at this
  rwa [show 31 - (31 - i) = i by omega] at this

/-- 8 bits determine a byte. -/
theorem byteBits_injective (a b : Byte) (h : byteBits a = byteBits b) : a = b := by
  apply BitVec.eq_of_getLsbD_eq
  intro i hi
  have := congrArg (fun l => l[7 - i]?) h
  simp only [byteBits, lowBits, List.getElem?_map, List.getElem?_range (show 7 - i < 8 by omega), Option.map_some,
    Option.some.injEq] at this
  rwa [show 8 - 1 - (7 - i) = i by omega] at this

@[simp] theorem length_wordBits (v : Word) : (wordBits v).length = 32 := by simp [wordBits]

@[simp] theorem length_byteBits (v : Byte) : (byteBits v).length = 8 := by simp [byteBits, lowBits]

@[simp] theorem length_stream (m : Memory) (p n : Nat) : (m.stream p n).length = n := by simp [Memory.stream]

/-! ### Appended -/

theorem stream_add (m : Memory) (p a b : Nat) : m.stream p (a + b) = m.stream p a ++ m.stream (p + a) b := by
  simp only [Memory.stream, List.range_add, List.map_append, List.map_map]
  congr 1
  apply List.map_congr_left
  intro i _
  simp [Nat.add_assoc]

theorem stream_congr (m m' : Memory) (p n : Nat) (h : ∀ q, p ≤ q → q < p + n → m.streamBit q = m'.streamBit q) :
    m.stream p n = m'.stream p n := by
  apply List.map_congr_left
  intro i hi
  rw [List.mem_range] at hi
  exact h _ (by omega) (by omega)

theorem Appended.nil (m : Memory) (p : Nat) : Appended m m p [] := by
  refine ⟨rfl, fun _ _ => rfl, fun _ _ => rfl, fun h q h1 h2 => h q ?_ ?_⟩ <;> simp_all

theorem Appended.append {a b c : Memory} {p : Nat} {xs ys : List Bool} (h1 : Appended a b p xs)
    (h2 : Appended b c (p + xs.length) ys) : Appended a c p (xs ++ ys) := by
  obtain ⟨s1, l1, f1, z1⟩ := h1
  obtain ⟨s2, l2, f2, z2⟩ := h2
  refine ⟨?_, ?_, ?_, ?_⟩
  · rw [List.length_append, stream_add, s2]
    congr 1
    rw [← s1]
    simp only [length_stream]
    exact stream_congr _ _ _ _ fun q _ h => by rw [← s1] at l2; exact l2 q (by simpa using h)
  · intro q hq
    rw [l2 q (by omega), l1 q hq]
  · intro k hk
    simp only [List.length_append] at hk
    rw [f2 k (by omega), f1 k (by omega)]
  · intro hz q hq hq'
    simp only [List.length_append] at hq hq'
    exact z2 (z1 hz) q (by omega) (by omega)

/-! ### Writer -/

theorem byteStreamBit_set (o : Byte) (i j : Nat) (v : Bool) (hi : i < 8) (hj : j < 8) :
    byteStreamBit (setByteStreamBit o i v) j = if j = i then v else byteStreamBit o j := by
  have hb : (1#8 <<< (7 - i)).getLsbD (7 - j) = decide (j = i) := by
    simp only [BitVec.getLsbD_shiftLeft, BitVec.getLsbD_one]
    by_cases h : j = i
    · subst h; simp; omega
    · simp [h]; omega
  cases v
  · simp only [byteStreamBit, setByteStreamBit, Bool.false_eq_true, if_false, BitVec.getLsbD_and, BitVec.getLsbD_not, hb]
    by_cases h : j = i
    · simp [h]
    · simp [h]; omega
  · simp only [byteStreamBit, setByteStreamBit, if_true, BitVec.getLsbD_or, hb]
    by_cases h : j = i <;> simp [h]

/-- What one `wr_bit` does (40_bitstream.md R113) when OUT_MEM is not full. -/
theorem wrBit_fits (cap : Nat) (b : Bool) (w : Writer) (hcap : 8 * cap < 2 ^ 32) (hw : w.mem.wf = true)
    (h : w.pos.toNat < 8 * cap) :
    ∃ w', wrBit cap b w = some w' ∧ w'.pos = w.pos + 1 ∧ w'.pos.toNat = w.pos.toNat + 1 ∧ w'.mem.wf = true
      ∧ (w.mem.below cap = true → w'.mem.below cap = true)
      ∧ Appended w.mem w'.mem w.pos.toNat [b] ∧ w'.mem.fill = w.mem.fill
      ∧ ∀ k, k = w.pos.toNat / 8 ∨ (cellsFind w.mem.cells k).isSome → (cellsFind w'.mem.cells k).isSome := by
  have hp1 : (w.pos + 1).toNat = w.pos.toNat + 1 := toNat_add_one_of_lt _ (by omega)
  set p := w.pos.toNat with hp
  set old : Byte := if p % 8 = 0 then 0 else w.mem.read (p / 8) with hold
  refine ⟨⟨w.pos + 1, w.mem.write (p / 8) (setByteStreamBit old (p % 8) b)⟩, ?_, rfl, hp1, ?_, ?_, ?_, rfl, ?_⟩
  · simp only [wrBit]
    rw [if_neg (by omega)]
  · exact Memory.wf_write _ _ _ hw
  · exact fun hbel => Memory.below_write _ _ _ _ hbel (by omega)
  · have hr := fun j => Memory.read_write w.mem (p / 8) j (setByteStreamBit old (p % 8) b) hw
    have hsb : ∀ q, (w.mem.write (p / 8) (setByteStreamBit old (p % 8) b)).streamBit q =
        if q / 8 = p / 8 then (if q % 8 = p % 8 then b else byteStreamBit old (q % 8)) else w.mem.streamBit q := by
      intro q
      simp only [Memory.streamBit, hr]
      split
      · rw [byteStreamBit_set _ _ _ _ (by omega) (by omega)]
      · rfl
    refine ⟨?_, ?_, ?_, ?_⟩
    · simp [Memory.stream, hsb]
    · intro q hq
      rw [hsb]
      split
      · rename_i h8
        rw [if_neg (by omega)]
        have : p % 8 ≠ 0 := by omega
        simp only [hold, if_neg this, Memory.streamBit, ← h8]
      · rfl
    · intro k hk
      simp only [List.length_cons, List.length_nil] at hk
      rw [hr, if_neg (by omega)]
    · intro hz q hq hq'
      simp only [List.length_cons, List.length_nil] at hq hq'
      rw [hsb, if_pos (by omega), if_neg (by omega)]
      by_cases h0 : p % 8 = 0
      · simp [hold, h0, byteStreamBit]
      · have := hz q (by omega) (by omega)
        simp only [Memory.streamBit] at this
        simp only [hold, if_neg h0]
        rwa [show p / 8 = q / 8 by omega]
  · intro k hk
    simp only [Memory.write]
    rw [cellsFind_cellsPut _ _ _ _ hw]
    split
    · rfl
    · rcases hk with rfl | hk
      · contradiction
      · exact hk

/-- What a sequence of `wr_bit` calls does when it fits (40_bitstream.md R113). -/
theorem wrSeq_fits (cap : Nat) (bs : List Bool) (w : Writer) (hcap : 8 * cap < 2 ^ 32) (hw : w.mem.wf = true)
    (h : w.pos.toNat + bs.length ≤ 8 * cap) :
    ∃ w', wrSeq cap bs w = some w' ∧ w'.pos = w.pos + BitVec.ofNat 32 bs.length
      ∧ w'.pos.toNat = w.pos.toNat + bs.length ∧ w'.mem.wf = true
      ∧ (w.mem.below cap = true → w'.mem.below cap = true)
      ∧ Appended w.mem w'.mem w.pos.toNat bs ∧ w'.mem.fill = w.mem.fill
      ∧ ∀ k, (w.pos.toNat / 8 ≤ k ∧ k < (w.pos.toNat + bs.length + 7) / 8 ∧ bs ≠ [])
          ∨ (cellsFind w.mem.cells k).isSome → (cellsFind w'.mem.cells k).isSome := by
  induction bs generalizing w with
  | nil =>
    exact ⟨w, rfl, by simp, by simp, hw, id, Appended.nil _ _, rfl, fun k hk => by simpa using hk⟩
  | cons b bs ih =>
    simp only [List.length_cons] at h
    obtain ⟨w1, e1, p1, n1, wf1, b1, a1, f1, d1⟩ := wrBit_fits cap b w hcap hw (by omega)
    obtain ⟨w2, e2, p2, n2, wf2, b2, a2, f2, d2⟩ := ih w1 wf1 (by omega)
    refine ⟨w2, ?_, ?_, ?_, wf2, b2 ∘ b1, ?_, f2.trans f1, ?_⟩
    · simp [wrSeq, e1, e2]
    · rw [p2, p1, add_ofNat_succ, List.length_cons]
    · rw [n2, n1, List.length_cons]; omega
    · have : Appended w1.mem w2.mem (w.pos.toNat + [b].length) bs := by simpa [n1] using a2
      simpa using a1.append this
    · intro k hk
      apply d2
      rcases hk with ⟨h1, h2, -⟩ | hk
      · by_cases hk8 : k = w.pos.toNat / 8
        · exact .inr (d1 k (.inl hk8))
        · left
          simp only [List.length_cons] at h2
          refine ⟨by omega, by omega, ?_⟩
          rintro rfl
          simp at h2
          omega
      · exact .inr (d1 k (.inr hk))

/-- A sequence of `wr_bit` calls that does not fit raises OUT_OVERFLOW (40_bitstream.md R113). -/
theorem wrSeq_over (cap : Nat) (bs : List Bool) (w : Writer) (hcap : 8 * cap < 2 ^ 32)
    (h : w.pos.toNat ≤ 8 * cap) (ho : 8 * cap < w.pos.toNat + bs.length) : wrSeq cap bs w = none := by
  induction bs generalizing w with
  | nil => simp at ho; omega
  | cons b bs ih =>
    simp only [List.length_cons] at ho
    by_cases hp : w.pos.toNat = 8 * cap
    · simp [wrSeq, wrBit, hp]
    · have hp1 : (w.pos + 1).toNat = w.pos.toNat + 1 := toNat_add_one_of_lt _ (by omega)
      simp only [wrSeq, wrBit, if_neg hp]
      exact ih _ (by rw [hp1]; omega) (by rw [hp1]; omega)

theorem wrSeq_append (cap : Nat) (xs ys : List Bool) (w : Writer) :
    wrSeq cap (xs ++ ys) w = (wrSeq cap xs w).bind (wrSeq cap ys) := by
  induction xs generalizing w with
  | nil => rfl
  | cons b xs ih =>
    simp only [List.cons_append, wrSeq]
    cases wrBit cap b w with
    | none => rfl
    | some w1 => exact ih w1

theorem lowBits_succ (n : Nat) (v : Byte) : lowBits (n + 1) v = v.getLsbD n :: lowBits n v := by
  simp only [lowBits, List.range_succ_eq_map, List.map_cons, List.map_map]
  congr 1
  apply List.map_congr_left
  intro i _
  simp only [Function.comp]
  congr 1
  omega

/-- `wr_bits(n, v)` writes the low n bits of v, most significant first (40_bitstream.md R114). -/
theorem wrBits_eq (cap n : Nat) (v : Byte) (w : Writer) : wrBits cap n v w = wrSeq cap (lowBits n v) w := by
  induction n generalizing w with
  | zero => rfl
  | succ n ih =>
    rw [lowBits_succ]
    simp only [wrBits, wrSeq]
    cases wrBit cap (v.getLsbD n) w with
    | none => rfl
    | some w1 => exact ih w1

theorem wordBits_eq (v : Word) : wordBits v = byteBits (bigEndianByte v 0) ++ (byteBits (bigEndianByte v 1) ++
    (byteBits (bigEndianByte v 2) ++ byteBits (bigEndianByte v 3))) := by
  simp [wordBits, byteBits, lowBits, bigEndianByte, List.range_succ, BitVec.getLsbD_extractLsb']

theorem wrBytesFrom_succ (cap : Nat) (v : Word) (n : Nat) (w : Writer) :
    wrBytesFrom cap v (n + 1) w = (wrSeq cap (byteBits (bigEndianByte v (3 - n))) w).bind (wrBytesFrom cap v n) := by
  simp only [wrBytesFrom, wrBits_eq, byteBits]
  cases wrSeq cap (lowBits 8 (bigEndianByte v (3 - n))) w <;> rfl

/-- `wr_u32be(v)` writes the 32 bits of v, most significant first (40_bitstream.md R115). -/
theorem wrU32be_eq (cap : Nat) (v : Word) (w : Writer) : wrU32be cap v w = wrSeq cap (wordBits v) w := by
  have h0 : wrBytesFrom cap v 0 = some := by funext w; rfl
  have hs : ∀ n, wrBytesFrom cap v (n + 1) =
      fun w => (wrSeq cap (byteBits (bigEndianByte v (3 - n))) w).bind (wrBytesFrom cap v n) := by
    intro n; funext w; exact wrBytesFrom_succ cap v n w
  have ha : ∀ xs ys, wrSeq cap (xs ++ ys) = fun w => (wrSeq cap xs w).bind (wrSeq cap ys) := by
    intro xs ys; funext w; exact wrSeq_append cap xs ys w
  simp only [wrU32be, wordBits_eq, ha, hs, h0]
  simp

end Sys2Proof.Machine
end

