-- ==== Sys2Proof/Laws/Trie.lean ====
section
/-! SUPPORT. Tries: the serialized form, reading it back, code paths, walks, and the arena of a trie (43_trie_codec.md,
44_code_table.md, 45_payload_codec.md R202). -/

namespace Sys2Proof.Machine

/-! ### Sizes -/

theorem Trie.leaves_pos (t : Trie) : 0 < t.leaves := by
  induction t with
  | leaf _ => simp [Trie.leaves]
  | node l r ihl ihr => simp [Trie.leaves]; omega

/-- A full binary tree with k leaves has 2k - 1 nodes (42_trie_builder.md R158). -/
theorem Trie.size_eq (t : Trie) : t.size + 1 = 2 * t.leaves := by
  induction t with
  | leaf _ => rfl
  | node l r ihl ihr => simp only [Trie.size, Trie.leaves]; omega

/-- A trie with k leaves serializes to 10k - 1 bits (43_trie_codec.md R170). -/
theorem Trie.length_bits (t : Trie) : t.bits.length + 1 = 10 * t.leaves := by
  induction t with
  | leaf _ => simp [Trie.bits, Trie.leaves]
  | node l r ihl ihr => simp only [Trie.bits, Trie.leaves, List.length_cons, List.length_append]; omega

theorem Trie.depth_lt_size (t : Trie) : t.depth < t.size := by
  induction t with
  | leaf _ => simp [Trie.depth, Trie.size]
  | node l r ihl ihr => simp only [Trie.depth, Trie.size]; omega

theorem Trie.depth_lt_leaves (t : Trie) : t.depth < t.leaves := by
  induction t with
  | leaf _ => simp [Trie.depth, Trie.leaves]
  | node l r ihl ihr =>
    have := l.leaves_pos; have := r.leaves_pos
    simp only [Trie.depth, Trie.leaves]; omega

theorem Trie.length_paths (t : Trie) : t.paths.length = t.leaves := by
  induction t with
  | leaf _ => rfl
  | node l r ihl ihr => simp [Trie.paths, Trie.leaves, ihl, ihr]

theorem Trie.length_path_le (t : Trie) (x : Byte × List Bool) (h : x ∈ t.paths) : x.2.length ≤ t.depth := by
  induction t generalizing x with
  | leaf _ => simp_all [Trie.paths, Trie.depth]
  | node l r ihl ihr =>
    simp only [Trie.paths, List.mem_append, List.mem_map] at h
    rcases h with ⟨y, hy, rfl⟩ | ⟨y, hy, rfl⟩
    · have := ihl y hy; simp only [Trie.depth, List.length_cons]; omega
    · have := ihr y hy; simp only [Trie.depth, List.length_cons]; omega

/-! ### Serializing -/

/-- `ser` writes the serialized form (43_trie_codec.md R170, R171). -/
theorem serTrie_eq (cap : Nat) (t : Trie) (w : Writer) : serTrie cap t w = wrSeq cap t.bits w := by
  induction t generalizing w with
  | leaf sym =>
    unfold serTrie
    simp only [Trie.bits, wrSeq]
    cases wrBit cap true w with
    | none => rfl
    | some w1 => exact wrBits_eq cap 8 sym w1
  | node l r ihl ihr =>
    simp only [serTrie, Trie.bits, wrSeq]
    cases wrBit cap false w with
    | none => rfl
    | some w1 =>
      simp only [wrSeq_append, ihl]
      cases wrSeq cap l.bits w1 with
      | none => rfl
      | some w2 => simp [ihr]

/-! ### Walks -/

theorem stream_cons (m : Memory) (p n : Nat) : m.stream p (n + 1) = m.streamBit p :: m.stream (p + 1) n := by
  rw [Nat.add_comm, stream_add]; simp [Memory.stream]

/-- A walk along a path of the trie reaches its leaf and reads exactly its bits (45_payload_codec.md R202, R203). -/
theorem walkDown_path (m : Memory) (e : Word) (t : Trie) (pos : Word) (x : Byte × List Bool) (hx : x ∈ t.paths)
    (hs : m.stream pos.toNat x.2.length = x.2) (he : pos.toNat + x.2.length ≤ e.toNat) :
    walkDown m e t pos = (some x.1, pos + BitVec.ofNat 32 x.2.length) := by
  induction t generalizing pos x with
  | leaf sym => simp_all [Trie.paths, walkDown]
  | node l r ihl ihr =>
    simp only [Trie.paths, List.mem_append, List.mem_map] at hx
    rcases hx with ⟨y, hy, rfl⟩ | ⟨y, hy, rfl⟩
    all_goals
      simp only [List.length_cons, stream_cons, List.cons.injEq] at hs he
      have hp : (pos + 1).toNat = pos.toNat + 1 := toNat_add_one pos e (by omega)
      simp only [walkDown, rdBit_more m e pos (by omega), hs.1, List.length_cons]
      rw [← add_ofNat_succ]
    · exact ihl _ _ hy (by rw [hp]; exact hs.2) (by omega)
    · exact ihr _ _ hy (by rw [hp]; exact hs.2) (by omega)

/-- Everything a walk can do (45_payload_codec.md R202): it reaches a leaf along its path, or the stream ends first. -/
theorem walkDown_cases (m : Memory) (e : Word) (t : Trie) (pos : Word) (h : pos.toNat ≤ e.toNat) :
    (∃ x ∈ t.paths, m.stream pos.toNat x.2.length = x.2 ∧ pos.toNat + x.2.length ≤ e.toNat
        ∧ walkDown m e t pos = (some x.1, pos + BitVec.ofNat 32 x.2.length))
      ∨ ((∀ x ∈ t.paths, ¬ (pos.toNat + x.2.length ≤ e.toNat ∧ m.stream pos.toNat x.2.length = x.2))
        ∧ walkDown m e t pos = (none, e)) := by
  induction t generalizing pos with
  | leaf sym => left; exact ⟨(sym, []), by simp [Trie.paths], by simp [Memory.stream], by simpa, by simp [walkDown]⟩
  | node l r ihl ihr =>
    by_cases hp : pos = e
    · subst hp
      right
      refine ⟨?_, by simp [walkDown]⟩
      intro x hx
      simp only [Trie.paths, List.mem_append, List.mem_map] at hx
      rcases hx with ⟨y, hy, rfl⟩ | ⟨y, hy, rfl⟩ <;> simp
    · have hlt : pos.toNat < e.toNat := by
        have : pos.toNat ≠ e.toNat := fun h => hp (BitVec.eq_of_toNat_eq h)
        omega
      have hq : (pos + 1).toNat = pos.toNat + 1 := toNat_add_one pos e hlt
      have hw : walkDown m e (.node l r) pos =
          if m.streamBit pos.toNat then walkDown m e r (pos + 1) else walkDown m e l (pos + 1) := by
        simp only [walkDown, rdBit_more m e pos hlt]
        cases m.streamBit pos.toNat <;> rfl
      rw [hw]
      cases hb : m.streamBit pos.toNat
      · rcases ihl (pos + 1) (by omega) with ⟨x, hx, h1, h2, h3⟩ | ⟨h1, h2⟩
        · left
          refine ⟨(x.1, false :: x.2), by simp [Trie.paths, hx], ?_, ?_, ?_⟩
          · rw [List.length_cons, stream_cons, hb, ← hq, h1]
          · simp only [List.length_cons]; omega
          · simp only [Bool.false_eq_true, if_false, h3, List.length_cons, add_ofNat_succ]
        · right
          refine ⟨?_, by simpa using h2⟩
          intro x hx
          simp only [Trie.paths, List.mem_append, List.mem_map] at hx
          rcases hx with ⟨y, hy, rfl⟩ | ⟨y, hy, rfl⟩
          · have := h1 y hy
            simp only [List.length_cons, stream_cons, hb, List.cons.injEq, true_and]
            rw [hq] at this
            intro hh; exact this ⟨by omega, hh.2⟩
          · simp [stream_cons, hb]
      · rcases ihr (pos + 1) (by omega) with ⟨x, hx, h1, h2, h3⟩ | ⟨h1, h2⟩
        · left
          refine ⟨(x.1, true :: x.2), by simp [Trie.paths, hx], ?_, ?_, ?_⟩
          · rw [List.length_cons, stream_cons, hb, ← hq, h1]
          · simp only [List.length_cons]; omega
          · simp only [if_true, h3, List.length_cons, add_ofNat_succ]
        · right
          refine ⟨?_, by simpa using h2⟩
          intro x hx
          simp only [Trie.paths, List.mem_append, List.mem_map] at hx
          rcases hx with ⟨y, hy, rfl⟩ | ⟨y, hy, rfl⟩
          · simp [stream_cons, hb]
          · have := h1 y hy
            simp only [List.length_cons, stream_cons, hb, List.cons.injEq, true_and]
            rw [hq] at this
            intro hh; exact this ⟨by omega, hh.2⟩

/-! ### Deserializing -/

@[simp] theorem Trie.length_preorder (t : Trie) (i : Nat) : (t.preorder i).length = t.size := by
  induction t generalizing i with
  | leaf _ => rfl
  | node l r ihl ihr => simp [Trie.preorder, Trie.size, ihl, ihr]; omega

/-- `des()` on the serialized form of a trie gives the trie in pre-order (43_trie_codec.md R172, R173). -/
theorem desTrie_bits (m : Memory) (e : Word) (cap depth cnt : Nat) (pos : Word) (t : Trie)
    (hs : m.stream pos.toNat t.bits.length = t.bits) (he : pos.toNat + t.bits.length ≤ e.toNat)
    (hc : cnt + t.size ≤ cap) (hd : t.depth < depth) :
    desTrie m e cap depth cnt pos = .done (t.preorder cnt) (pos + BitVec.ofNat 32 t.bits.length) := by
  induction t generalizing depth cnt pos with
  | leaf sym =>
    cases depth with
    | zero => omega
    | succ depth =>
      simp only [Trie.bits, List.length_cons, length_byteBits, stream_cons, List.cons.injEq, Trie.size] at hs he hc
      have hp : (pos + 1).toNat = pos.toNat + 1 := toNat_add_one pos e (by omega)
      obtain ⟨c, hc8, hcb, -⟩ := rdBits_enough m e 8 (pos + 1) (by omega) (by omega)
      have hsym : c = sym := byteBits_injective _ _ (by
        rw [byteBits, hcb, hp]; exact hs.2)
      subst hsym
      simp only [desTrie, rdBit_more m e pos (by omega), hs.1, if_neg (show ¬ cnt = cap by omega), if_true, hc8,
        Trie.preorder, Trie.bits, List.length_cons, length_byteBits, add_ofNat_succ]
  | node l r ihl ihr =>
    cases depth with
    | zero => omega
    | succ depth =>
      simp only [Trie.bits, List.length_cons, List.length_append, stream_cons, List.cons.injEq, Trie.size,
        Trie.depth] at hs he hc hd
      have hp : (pos + 1).toNat = pos.toNat + 1 := toNat_add_one pos e (by omega)
      have hb := e.isLt
      have hq : (pos + 1 + BitVec.ofNat 32 l.bits.length).toNat = pos.toNat + 1 + l.bits.length := by
        rw [toNat_add_ofNat _ _ (by omega), hp]
      obtain ⟨hl, hr⟩ := List.append_inj (by rw [← hs.2, stream_add])
        (show (m.stream (pos.toNat + 1) l.bits.length).length = l.bits.length by simp)
      have hL := ihl depth (cnt + 1) (pos + 1) (by rw [hp]; exact hl) (by omega) (by omega) (by omega)
      have hR := ihr depth (cnt + 1 + l.size) (pos + 1 + BitVec.ofNat 32 l.bits.length)
        (by rw [hq]; exact hr) (by omega) (by omega) (by omega)
      simp only [desTrie, rdBit_more m e pos (by omega), hs.1, if_neg (show ¬ cnt = cap by omega), Bool.false_eq_true,
        if_false, hL, Trie.length_preorder, hR, Trie.preorder, Trie.bits, List.length_cons, List.length_append]
      congr 1
      rw [add_ofNat_add, add_ofNat_succ, Nat.add_comm]

theorem tagPos_add (m : Memory) (p a b : Nat) : m.tagPos p (a + b) = m.tagPos (m.tagPos p a) b := by
  induction a generalizing p with
  | zero => rw [Nat.zero_add]; rfl
  | succ a ih => rw [Nat.succ_add]; exact ih _

theorem le_tagPos (m : Memory) (p k : Nat) : p + k ≤ m.tagPos p k := by
  induction k generalizing p with
  | zero => exact Nat.le_refl p
  | succ k ih => exact Nat.le_trans (by split <;> omega) (ih _)

/-- Past the nodes of a trie stands the position just after its bits (43_trie_codec.md R170). -/
theorem tagPos_trie (m : Memory) (t : Trie) (p : Nat) (h : m.stream p t.bits.length = t.bits) :
    m.tagPos p t.size = p + t.bits.length := by
  induction t generalizing p with
  | leaf sym =>
    simp only [Trie.bits, List.length_cons, length_byteBits, stream_cons, List.cons.injEq] at h
    simp [Trie.size, Trie.bits, Memory.tagPos, h.1]
  | node l r ihl ihr =>
    simp only [Trie.bits, List.length_cons, List.length_append, stream_cons, stream_add, List.cons.injEq] at h
    obtain ⟨hl, hr⟩ := List.append_inj h.2 (length_stream _ _ _)
    have hs : (Trie.node l r).size = (l.size + r.size) + 1 := by simp only [Trie.size]; omega
    rw [hs, Memory.tagPos, h.1, tagPos_add]
    simp only [Bool.false_eq_true, if_false]
    rw [ihl _ hl, ihr _ hr]
    simp only [Trie.bits, List.length_cons, List.length_append]
    omega

/-- Everything `des()` can do when its levels cover the free arena (43_trie_codec.md R172, R174): a trie is read, or the
stream ends before the tag bit of the first node the arena has no room for, or that tag bit is read. -/
theorem desTrie_cases (m : Memory) (e : Word) (cap depth cnt : Nat) (pos : Word) (h : pos.toNat ≤ e.toNat)
    (hc : cnt ≤ cap) (hd : cap + 1 ≤ depth + cnt) :
    (∃ t : Trie, m.stream pos.toNat t.bits.length = t.bits ∧ pos.toNat + t.bits.length ≤ e.toNat ∧ cnt + t.size ≤ cap
        ∧ desTrie m e cap depth cnt pos = .done (t.preorder cnt) (pos + BitVec.ofNat 32 t.bits.length))
      ∨ (e.toNat ≤ m.tagPos pos.toNat (cap - cnt) ∧ desTrie m e cap depth cnt pos = .fail .corruptStream e)
      ∨ (m.tagPos pos.toNat (cap - cnt) < e.toNat ∧ ∃ p : Word, p.toNat = m.tagPos pos.toNat (cap - cnt) + 1
        ∧ desTrie m e cap depth cnt pos = .fail .nodeOverflow p) := by
  induction depth generalizing cnt pos with
  | zero => omega
  | succ depth ih =>
    by_cases hpe : pos = e
    · subst hpe; right; left; exact ⟨Nat.le_trans (Nat.le_add_right _ _) (le_tagPos _ _ _), by simp [desTrie]⟩
    · have hlt : pos.toNat < e.toNat := by
        have : pos.toNat ≠ e.toNat := fun h => hpe (BitVec.eq_of_toNat_eq h)
        omega
      have hp : (pos + 1).toNat = pos.toNat + 1 := toNat_add_one pos e hlt
      by_cases hcap : cnt = cap
      · right; right
        have h0 : m.tagPos pos.toNat (cap - cnt) = pos.toNat := by rw [hcap, Nat.sub_self]; rfl
        exact ⟨by omega, pos + 1, by omega, by simp [desTrie, rdBit_more m e pos hlt, hcap]⟩
      · have htag : m.tagPos pos.toNat (cap - cnt) =
            m.tagPos (if m.streamBit pos.toNat then pos.toNat + 9 else pos.toNat + 1) (cap - (cnt + 1)) := by
          rw [show cap - cnt = cap - (cnt + 1) + 1 by omega]; rfl
        have hunf : desTrie m e cap (depth + 1) cnt pos =
            if m.streamBit pos.toNat then
              match rdBits m e 8 (pos + 1) with
              | (none, p1) => .fail .corruptStream p1
              | (some sym, p1) => .done [.leaf sym 0] p1
            else
              match desTrie m e cap depth (cnt + 1) (pos + 1) with
              | .fail c p1 => .fail c p1
              | .done ls p1 =>
                match desTrie m e cap depth (cnt + 1 + ls.length) p1 with
                | .fail c p2 => .fail c p2
                | .done rs p2 => .done (.internal 0 (cnt + 1) (cnt + 1 + ls.length) :: (ls ++ rs)) p2 := by
          rw [desTrie, rdBit_more m e pos hlt]
          exact if_neg hcap
        rw [hunf, htag]
        cases hb : m.streamBit pos.toNat with
        | true =>
          simp only [if_true]
          by_cases h8 : (pos + 1).toNat + 8 ≤ e.toNat
          · obtain ⟨c, hc8, hcb, -⟩ := rdBits_enough m e 8 (pos + 1) (by omega) h8
            left
            refine ⟨.leaf c, ?_, ?_, ?_, ?_⟩
            · rw [show (Trie.leaf c).bits.length = 8 + 1 by simp [Trie.bits], stream_cons, hb, Trie.bits, byteBits, hcb, hp]
            · simp only [Trie.bits, List.length_cons, length_byteBits]; omega
            · simp only [Trie.size]; omega
            · rw [hc8, show (Trie.leaf c).bits.length = 8 + 1 by simp [Trie.bits],
                show pos + BitVec.ofNat 32 (8 + 1) = pos + 1 + BitVec.ofNat 32 8 from (add_ofNat_succ pos 8).symm]
              rfl
          · right; left
            have := le_tagPos m (pos.toNat + 9) (cap - (cnt + 1))
            exact ⟨by omega, by rw [rdBits_short m e 8 (pos + 1) (by omega) (by omega)]⟩
        | false =>
          simp only [Bool.false_eq_true, if_false]
          rw [← hp]
          rcases ih (cnt + 1) (pos + 1) (by omega) (by omega) (by omega) with
            ⟨l, hl, hle, hlc, hl'⟩ | ⟨he, hl'⟩ | ⟨he, p, hp1, hl'⟩
          · have hbb := e.isLt
            have hq : (pos + 1 + BitVec.ofNat 32 l.bits.length).toNat = pos.toNat + 1 + l.bits.length := by
              rw [toNat_add_ofNat _ _ (by omega), hp]
            have htl : m.tagPos (pos + 1).toNat (cap - (cnt + 1)) =
                m.tagPos (pos + 1 + BitVec.ofNat 32 l.bits.length).toNat (cap - (cnt + 1 + l.size)) := by
              rw [show cap - (cnt + 1) = l.size + (cap - (cnt + 1 + l.size)) by omega, tagPos_add, tagPos_trie _ _ _ hl, hq, hp]
            rw [hl', htl]
            simp only [Trie.length_preorder]
            rcases ih (cnt + 1 + l.size) (pos + 1 + BitVec.ofNat 32 l.bits.length) (by omega) (by omega) (by omega) with
              ⟨r, hr, hre, hrc, hr'⟩ | ⟨he, hr'⟩ | ⟨he, p, hp1, hr'⟩
            · left
              refine ⟨.node l r, ?_, ?_, ?_, ?_⟩
              · simp only [Trie.bits, List.length_cons, List.length_append, stream_cons, hb, List.cons.injEq, true_and]
                rw [stream_add]
                rw [hp] at hl
                rw [hq] at hr
                rw [hl, hr]
              · simp only [Trie.bits, List.length_cons, List.length_append]; omega
              · simp only [Trie.size]; omega
              · rw [hr']
                simp only [Trie.preorder, Trie.bits, List.length_cons, List.length_append]
                congr 1
                rw [add_ofNat_add, add_ofNat_succ, Nat.add_comm]
            · right; left; exact ⟨he, by rw [hr']⟩
            · right; right; exact ⟨he, p, hp1, by rw [hr']⟩
          · right; left; exact ⟨he, by rw [hl']⟩
          · right; right; exact ⟨he, p, hp1, by rw [hl']⟩

/-! ### Arenas -/

/-- A visit of the arena gives the trie, with one node per index met. -/
theorem readTrie_of_visit (d : Nat) (ns : List Node) (i : Nat) (is : List Nat) (h : arenaVisit d ns i = some is) :
    ∃ t, readTrie d ns i = some t ∧ t.size = is.length := by
  induction d generalizing i is with
  | zero => simp [arenaVisit] at h
  | succ d ih =>
    simp only [arenaVisit] at h
    simp only [readTrie]
    cases hn : ns[i]? with
    | none => simp [hn] at h
    | some n =>
      cases n with
      | leaf s f => simp [hn] at h; subst h; exact ⟨.leaf s, rfl, rfl⟩
      | internal f l r =>
        simp only [hn] at h
        cases hl : arenaVisit d ns l with
        | none => simp [hl] at h
        | some a =>
          cases hr : arenaVisit d ns r with
          | none => simp [hl, hr] at h
          | some b =>
            simp [hl, hr] at h
            subst h
            obtain ⟨tl, h1, h2⟩ := ih l a hl
            obtain ⟨tr, h3, h4⟩ := ih r b hr
            exact ⟨.node tl tr, by simp [h1, h3], by simp [Trie.size, h2, h4]; omega⟩

/-- The pre-order arena of a trie, anywhere in a larger arena, visits its own indices in order. -/
theorem arenaVisit_preorder (t : Trie) (d : Nat) (ns : List Node) (i : Nat)
    (h : ∀ j < t.size, ns[i + j]? = (t.preorder i)[j]?) (hd : t.depth < d) :
    arenaVisit d ns i = some (List.range' i t.size) ∧ readTrie d ns i = some t := by
  induction t generalizing d i with
  | leaf sym =>
    cases d with
    | zero => omega
    | succ d =>
      have := h 0 (by simp [Trie.size])
      simp only [Nat.add_zero, Trie.preorder, List.getElem?_cons_zero] at this
      simp [arenaVisit, readTrie, this, Trie.size]
  | node l r ihl ihr =>
    cases d with
    | zero => omega
    | succ d =>
      simp only [Trie.depth] at hd
      have h0 := h 0 (by simp [Trie.size])
      simp only [Nat.add_zero, Trie.preorder, List.getElem?_cons_zero] at h0
      have hl := ihl d (i + 1) (fun j hj => by
        have := h (j + 1) (by simp only [Trie.size]; omega)
        simp only [Trie.preorder, List.getElem?_cons_succ] at this
        rw [show i + 1 + j = i + (j + 1) by omega, this, List.getElem?_append_left (by simpa using hj)]) (by omega)
      have hr := ihr d (i + 1 + l.size) (fun j hj => by
        have := h (l.size + j + 1) (by simp only [Trie.size]; omega)
        simp only [Trie.preorder, List.getElem?_cons_succ] at this
        rw [show i + 1 + l.size + j = i + (l.size + j + 1) by omega, this,
          List.getElem?_append_right (by simp)]
        simp) (by omega)
      refine ⟨?_, ?_⟩
      · simp only [arenaVisit, h0, hl.1, hr.1, Trie.size, Option.some.injEq]
        rw [show 1 + l.size + r.size = (l.size + r.size) + 1 by omega, List.range'_succ]
        congr 1
        rw [← List.range'_append_1]
      · simp [readTrie, h0, hl.2, hr.2]

/-! ### Code table -/

/-- The leaves of a trie stored one after another into a table. -/
def storePaths (pre : List Bool) (ps : List (Byte × List Bool)) (t : List CodeEntry) : List CodeEntry :=
  ps.foldl (fun t x => t.set x.1.toNat ⟨true, pre ++ x.2⟩) t

/-- `walk` stores every leaf with its path, left first (44_code_table.md R190). -/
theorem walkCodes_fits (t : Trie) (path : List Bool) (tb : List CodeEntry)
    (h : t.depth + path.length ≤ Config.codeMax) : walkCodes t path tb = some (storePaths path t.paths tb) := by
  induction t generalizing path tb with
  | leaf sym =>
    simp only [Trie.depth] at h
    simp [walkCodes, storePaths, Trie.paths, show ¬ Config.codeMax < path.length by omega]
  | node l r ihl ihr =>
    simp only [Trie.depth] at h
    have h1 : l.depth + (path ++ [false]).length ≤ Config.codeMax := by simp; omega
    have h2 : r.depth + (path ++ [true]).length ≤ Config.codeMax := by simp; omega
    simp only [walkCodes, ihl _ _ h1, ihr _ _ h2, storePaths, Trie.paths, List.foldl_append, List.foldl_map,
      List.append_assoc, List.singleton_append]

/-- A leaf deeper than CODE_MAX is CODE_TOO_LONG (44_code_table.md R190). -/
theorem walkCodes_deep (t : Trie) (path : List Bool) (tb : List CodeEntry)
    (h : Config.codeMax < t.depth + path.length) : walkCodes t path tb = none := by
  induction t generalizing path tb with
  | leaf sym =>
    simp only [Trie.depth] at h
    simp [walkCodes, show Config.codeMax < path.length by omega]
  | node l r ihl ihr =>
    simp only [Trie.depth] at h
    simp only [walkCodes]
    by_cases hl : Config.codeMax < l.depth + (path ++ [false]).length
    · simp [ihl _ _ hl]
    · rw [walkCodes_fits l _ _ (by omega)]
      have hr : Config.codeMax < r.depth + (path ++ [true]).length := by
        simp only [List.length_append, List.length_singleton] at hl ⊢; omega
      simp [ihr _ _ hr]

theorem length_storePaths (pre : List Bool) (ps : List (Byte × List Bool)) (t : List CodeEntry) :
    (storePaths pre ps t).length = t.length := by
  induction ps generalizing t with
  | nil => rfl
  | cons x ps ih => simp only [storePaths, List.foldl_cons] at ih ⊢; rw [ih]; simp

/-- The last path stored under a byte stays (44_code_table.md R192). -/
theorem storePaths_get (ps : List (Byte × List Bool)) (tb : List CodeEntry) (v : Byte) (h : tb.length = 256) :
    (storePaths [] ps tb)[v.toNat]? =
      match (ps.filter fun x => decide (x.1 = v)).getLast? with
      | some x => some ⟨true, x.2⟩
      | none => tb[v.toNat]? := by
  induction ps generalizing tb with
  | nil => simp [storePaths]
  | cons x ps ih =>
    have := ih (tb.set x.1.toNat ⟨true, x.2⟩) (by simpa using h)
    simp only [storePaths, List.foldl_cons, List.nil_append] at this ⊢
    rw [this]
    by_cases hx : x.1 = v
    · subst hx
      simp only [List.filter_cons, decide_true, if_true, List.getLast?_cons]
      have hlt : x.1.toNat < tb.length := by rw [h]; exact x.1.isLt
      cases hl : (ps.filter fun y => decide (y.1 = x.1)).getLast? with
      | none => simp [hlt]
      | some y => simp
    · have hne : x.1.toNat ≠ v.toNat := fun hh => hx (BitVec.eq_of_toNat_eq hh)
      simp [hx, hne]

theorem length_absentCodes : absentCodes.length = 256 := List.length_replicate

theorem absentCodes_get (i : Nat) (h : i < 256) : absentCodes[i]? = some ⟨false, []⟩ :=
  (List.getElem?_replicate_of_lt h)

/-- The table CODE_BUILD makes (44_code_table.md R190 to R192). -/
theorem walkCodes_codeOf (t : Trie) (h : t.depth ≤ Config.codeMax) :
    walkCodes t [] absentCodes = some ((List.range 256).map fun v => t.codeOf (BitVec.ofNat 8 v)) := by
  rw [walkCodes_fits t [] _ (by simpa using h)]
  congr 1
  apply List.ext_getElem?
  intro i
  by_cases hi : i < 256
  · have hv : (BitVec.ofNat 8 i).toNat = i := by rw [BitVec.toNat_ofNat]; omega
    have := storePaths_get t.paths absentCodes (BitVec.ofNat 8 i) length_absentCodes
    rw [hv] at this
    rw [this]
    simp only [Trie.codeOf, List.getElem?_map, List.getElem?_range hi, Option.map_some]
    cases (t.paths.filter fun x => decide (x.1 = BitVec.ofNat 8 i)).getLast? with
    | none => exact absentCodes_get i hi
    | some x => rfl
  · rw [List.getElem?_eq_none (by rw [length_storePaths, length_absentCodes]; omega),
      List.getElem?_eq_none (by rw [List.length_map, List.length_range]; omega)]

end Sys2Proof.Machine
end

