-- ==== Sys2Proof/Laws/Builder.lean ====
section
/-! SUPPORT. The trie builder makes a trie whatever the counts and whatever the tie policy (42_trie_builder.md R150 to R158):
`buildArena_trie`. -/

namespace Sys2Proof.Machine

/-! ### The queue -/

theorem leastItem_mem (x : QItem) (xs : List QItem) : leastItem x xs ∈ x :: xs := by
  induction xs generalizing x with
  | nil => simp [leastItem]
  | cons y ys ih =>
    have := ih (if y.before x then y else x)
    simp only [leastItem, List.mem_cons] at this ⊢
    rcases this with h | h
    · rw [h]; split <;> simp
    · exact .inr (.inr h)

theorem choose_mem (pol : TiePolicy) (d pop : Nat) (x : QItem) (xs : List QItem) : choose pol d pop x xs ∈ x :: xs := by
  cases pol with
  | index => exact leastItem_mem x xs
  | any =>
    simp only [choose]
    generalize Config.freePick d pop % _ = j
    cases h : ((x :: xs).filter fun y => decide (y.freq = (leastItem x xs).freq))[j]? with
    | none => exact leastItem_mem x xs
    | some y =>
      have := List.mem_of_getElem? h
      exact (List.mem_filter.mp this).1

theorem dropItem_perm (y : QItem) (q : List QItem) (hy : y ∈ q) (hn : (q.map QItem.idx).Nodup) :
    q.Perm (y :: dropItem y.idx q) := by
  induction q with
  | nil => simp at hy
  | cons z zs ih =>
    simp only [List.map_cons, List.nodup_cons, List.mem_map, not_exists, not_and] at hn
    simp only [dropItem]
    split
    · rename_i hz
      rcases List.mem_cons.mp hy with rfl | hm
      · exact List.Perm.refl _
      · exact absurd hz.symm (hn.1 y hm)
    · rename_i hz
      rcases List.mem_cons.mp hy with rfl | hm
      · exact absurd rfl hz
      · exact ((ih hm hn.2).cons z).trans (List.Perm.swap _ _ _)

/-- A pop takes one element out of the queue (42_trie_builder.md R153). -/
theorem popMin_perm (pol : TiePolicy) (d pop : Nat) (q q' : List QItem) (y : QItem) (hn : (q.map QItem.idx).Nodup)
    (h : popMin pol d pop q = some (y, q')) : q.Perm (y :: q') := by
  cases q with
  | nil => simp [popMin] at h
  | cons x xs =>
    simp only [popMin, Option.some.injEq, Prod.mk.injEq] at h
    obtain ⟨rfl, rfl⟩ := h
    exact dropItem_perm _ _ (choose_mem pol d pop x xs) hn

theorem popMin_some (pol : TiePolicy) (d pop : Nat) (q : List QItem) (h : q ≠ []) :
    ∃ y q', popMin pol d pop q = some (y, q') := by
  cases q with
  | nil => contradiction
  | cons x xs => exact ⟨_, _, rfl⟩

/-! ### Visits grow with the arena -/

theorem arenaVisit_mono (d d' : Nat) (ns ms : List Node) (i : Nat) (is : List Nat) (hd : d ≤ d')
    (h : arenaVisit d ns i = some is) : arenaVisit d' (ns ++ ms) i = some is := by
  induction d generalizing d' i is with
  | zero => simp [arenaVisit] at h
  | succ d ih =>
    cases d' with
    | zero => omega
    | succ d' =>
      simp only [arenaVisit] at h ⊢
      cases hn : ns[i]? with
      | none => simp [hn] at h
      | some n =>
        have hlt : i < ns.length := by
          by_contra hc
          rw [List.getElem?_eq_none (by omega)] at hn
          cases hn
        rw [List.getElem?_append_left hlt, hn]
        cases n with
        | leaf s f => simpa [hn] using h
        | internal f l r =>
          simp only [hn] at h
          cases hl : arenaVisit d ns l with
          | none => simp [hl] at h
          | some a =>
            cases hr : arenaVisit d ns r with
            | none => simp [hl, hr] at h
            | some b =>
              simp [hl, hr] at h
              simp [ih d' l a (by omega) hl, ih d' r b (by omega) hr, h]

/-- What the merge loop keeps: the trees of the queue share no node and together use the whole arena, and the newest
node is in the queue. -/
def Forest (ns : List Node) (q : List QItem) : Prop :=
  (q.map QItem.idx).Nodup ∧ (∃ x, q.getLast? = some x ∧ x.idx + 1 = ns.length)
    ∧ ∃ vis : Nat → List Nat, (∀ x ∈ q, arenaVisit ns.length ns x.idx = some (vis x.idx))
      ∧ (q.flatMap fun x => vis x.idx).Perm (List.range ns.length)

theorem arenaVisit_lt (d : Nat) (ns : List Node) (i : Nat) (is : List Nat) (h : arenaVisit d ns i = some is) :
    i < ns.length := by
  cases d with
  | zero => simp [arenaVisit] at h
  | succ d =>
    by_contra hc
    simp [arenaVisit, List.getElem?_eq_none (show ns.length ≤ i by omega)] at h

theorem forest_merge (pol : TiePolicy) (d : Nat) (ns : List Node) (q q1 q2 : List QItem) (a b : QItem) (sw : Bool)
    (i j : Nat) (hf : Forest ns q) (ha : popMin pol d i q = some (a, q1)) (hb : popMin pol d j q1 = some (b, q2)) :
    Forest (ns ++ [mergeNode sw a b]) (q2 ++ [⟨a.freq + b.freq, ns.length⟩]) := by
  obtain ⟨hn, -, vis, hv, hp⟩ := hf
  have p1 := popMin_perm _ _ _ _ _ _ hn ha
  have hn1 : (q1.map QItem.idx).Nodup := by
    have := (p1.map QItem.idx).nodup_iff.mp hn
    exact (List.nodup_cons.mp (by simpa using this)).2
  have p2 := popMin_perm _ _ _ _ _ _ hn1 hb
  have p : q.Perm (a :: b :: q2) := p1.trans (p2.cons a)
  have hn2 : (q2.map QItem.idx).Nodup := by
    have := (p.map QItem.idx).nodup_iff.mp hn
    simp only [List.map_cons, List.nodup_cons] at this
    exact this.2.2
  have hva := hv a (p.mem_iff.mpr (by simp))
  have hvb := hv b (p.mem_iff.mpr (by simp))
  have hlt : ∀ x ∈ q2, x.idx < ns.length := fun x hx => arenaVisit_lt _ _ _ _ (hv x (p.mem_iff.mpr (by simp [hx])))
  refine ⟨?_, ⟨⟨a.freq + b.freq, ns.length⟩, by simp, by simp⟩, ?_⟩
  · simp only [List.map_append, List.map_cons, List.map_nil]
    rw [List.nodup_append]
    refine ⟨hn2, by simp, ?_⟩
    intro x hx y hy
    simp only [List.mem_singleton] at hy
    obtain ⟨z, hz, rfl⟩ := List.mem_map.mp hx
    have := hlt z hz
    omega
  · let kids := if sw then vis b.idx ++ vis a.idx else vis a.idx ++ vis b.idx
    refine ⟨fun k => if k = ns.length then ns.length :: kids else vis k, ?_, ?_⟩
    · intro x hx
      rcases List.mem_append.mp hx with hx | hx
      · have := hlt x hx
        simp only [show ¬ x.idx = ns.length by omega, if_false]
        exact arenaVisit_mono _ _ _ _ _ _ (by simp) (hv x (p.mem_iff.mpr (by simp [hx])))
      · simp only [List.mem_singleton] at hx
        subst hx
        simp only [if_true, List.length_append, List.length_singleton, arenaVisit]
        have h1 := arenaVisit_mono _ ns.length ns [mergeNode sw a b] _ _ (le_refl _) hva
        have h2 := arenaVisit_mono _ ns.length ns [mergeNode sw a b] _ _ (le_refl _) hvb
        simp only [List.getElem?_append_right (le_refl ns.length), Nat.sub_self, List.getElem?_cons_zero]
        cases sw
        · simp only [mergeNode, Bool.false_eq_true, if_false] at h1 h2 ⊢
          simp [h1, h2, kids]
        · simp only [mergeNode, if_true] at h1 h2 ⊢
          simp [h1, h2, kids]
    · have hq2 : (q2.flatMap fun x => if x.idx = ns.length then ns.length :: kids else vis x.idx)
          = q2.flatMap fun x => vis x.idx := by
        apply List.flatMap_congr
        intro x hx
        have := hlt x hx
        simp only [show ¬ x.idx = ns.length by omega, if_false]
      rw [List.flatMap_append, hq2]
      simp only [List.flatMap_cons, List.flatMap_nil, if_true, List.append_nil, List.length_append,
        List.length_singleton, List.range_succ]
      have hp' := ((p.flatMap_right fun x => vis x.idx).symm).trans hp
      simp only [List.flatMap_cons] at hp'
      have hk : kids.Perm (vis a.idx ++ vis b.idx) := by
        cases sw
        · exact List.Perm.refl _
        · exact List.perm_append_comm
      calc q2.flatMap (fun x => vis x.idx) ++ (ns.length :: kids)
          |>.Perm ((ns.length :: kids) ++ q2.flatMap fun x => vis x.idx) := List.perm_append_comm
        _ |>.Perm (ns.length :: (vis a.idx ++ vis b.idx ++ q2.flatMap fun x => vis x.idx)) :=
            (hk.append_right _).cons _
        _ |>.Perm (ns.length :: List.range ns.length) := by
            rw [List.append_assoc]; exact hp'.cons _
        _ |>.Perm (List.range ns.length ++ [ns.length]) := (List.perm_append_singleton _ _).symm

theorem length_popMin (pol : TiePolicy) (d pop : Nat) (q q' : List QItem) (y : QItem) (hn : (q.map QItem.idx).Nodup)
    (h : popMin pol d pop q = some (y, q')) : q.length = q'.length + 1 := by
  simpa using (popMin_perm _ _ _ _ _ _ hn h).length_eq

/-- The merge loop ends with one tree that uses the whole arena (42_trie_builder.md R153, R157, R158), and keeps the
entries it started with. -/
theorem mergeFrom_forest (pol : TiePolicy) (d k : Nat) (q : List QItem) (ns : List Node) (hf : Forest ns q)
    (hk : q.length = k + 1) :
    ∃ is, arenaVisit (mergeFrom pol d k q ns).length (mergeFrom pol d k q ns) ((mergeFrom pol d k q ns).length - 1)
        = some is ∧ is.Perm (List.range (mergeFrom pol d k q ns).length)
      ∧ (mergeFrom pol d k q ns).length = ns.length + k ∧ ns <+: mergeFrom pol d k q ns := by
  induction k generalizing q ns with
  | zero =>
    obtain ⟨-, ⟨x, hx, hxi⟩, vis, hv, hp⟩ := hf
    obtain ⟨y, rfl⟩ := List.length_eq_one_iff.mp hk
    simp only [List.getLast?_singleton, Option.some.injEq] at hx
    subst hx
    refine ⟨vis y.idx, ?_, by simpa [mergeFrom] using hp, rfl, List.prefix_refl _⟩
    have := hv y (by simp)
    simp only [mergeFrom]
    rwa [show ns.length - 1 = y.idx by omega]
  | succ k ih =>
    obtain ⟨a, q1, ha⟩ := popMin_some pol d (2 * ns.length) q (by rintro rfl; simp at hk)
    have hl1 := length_popMin _ _ _ _ _ _ hf.1 ha
    obtain ⟨b, q2, hb⟩ := popMin_some pol d (2 * ns.length + 1) q1 (by rintro rfl; simp at hl1; omega)
    have hn1 : (q1.map QItem.idx).Nodup := by
      have := ((popMin_perm _ _ _ _ _ _ hf.1 ha).map QItem.idx).nodup_iff.mp hf.1
      exact (List.nodup_cons.mp (by simpa using this)).2
    have hl2 := length_popMin _ _ _ _ _ _ hn1 hb
    have hF := forest_merge pol d ns q q1 q2 a b (swaps pol d ns.length) _ _ hf ha hb
    obtain ⟨is, h1, h2, h3, h4⟩ := ih _ _ hF (by simp; omega)
    simp only [mergeFrom, ha, hb]
    refine ⟨is, h1, h2, ?_, List.IsPrefix.trans (List.prefix_append _ _) h4⟩
    rw [h3]; simp; omega

/-! ### The leaves -/

theorem leafQueue_forest (ns : List Node) (hne : ns ≠ []) (hl : ∀ n ∈ ns, ∃ s f, n = .leaf s f) :
    Forest ns (leafQueue 0 ns) := by
  have hidx : ∀ i (l : List Node), (leafQueue i l).map QItem.idx = List.range' i l.length := by
    intro i l
    induction l generalizing i with
    | nil => rfl
    | cons n l ih => simp [leafQueue, ih, List.range'_succ]
  refine ⟨by rw [hidx]; exact List.nodup_range', ?_, fun i => [i], ?_, ?_⟩
  · have hlen : (leafQueue 0 ns).length = ns.length := by
      have := congrArg List.length (hidx 0 ns)
      simpa using this
    have hne' : leafQueue 0 ns ≠ [] := by
      intro h; rw [h] at hlen; simp at hlen; exact hne (List.length_eq_zero_iff.mp hlen.symm)
    refine ⟨_, List.getLast?_eq_some_getLast hne', ?_⟩
    have : ((leafQueue 0 ns).map QItem.idx).getLast? = some (ns.length - 1) := by
      rw [hidx, List.getLast?_range']
      simp [hne]
    rw [List.getLast?_map, List.getLast?_eq_some_getLast hne'] at this
    simp only [Option.map_some, Option.some.injEq] at this
    have hpos : 0 < ns.length := List.length_pos_iff.mpr hne
    omega
  · intro x hx
    have hm : x.idx ∈ (leafQueue 0 ns).map QItem.idx := List.mem_map_of_mem hx
    rw [hidx, List.mem_range'_1] at hm
    have hlt : x.idx < ns.length := by omega
    obtain ⟨s, f, hn⟩ := hl _ (List.getElem_mem hlt)
    obtain ⟨k, hk⟩ : ∃ k, ns.length = k + 1 := ⟨ns.length - 1, by omega⟩
    rw [hk]
    simp [arenaVisit, List.getElem?_eq_getElem hlt, hn]
  · have : ∀ l : List QItem, l.flatMap (fun x => [x.idx]) = l.map QItem.idx := by
      intro l
      induction l with
      | nil => rfl
      | cons x l ih => simp [ih]
    rw [this, hidx, List.range_eq_range']

theorem makeLeaves_leaf (f : Nat → Word) (n : Node) (h : n ∈ makeLeaves f) : ∃ s c, n = .leaf s c := by
  simp only [makeLeaves, List.mem_filterMap] at h
  obtain ⟨v, -, hv⟩ := h
  split at hv
  · cases hv
  · exact ⟨_, _, (Option.some.inj hv).symm⟩

theorem length_makeLeaves (f : Nat → Word) : (makeLeaves f).length ≤ 256 := by
  have := List.length_filterMap_le
    (fun v => if f v = 0 then none else some (Node.leaf (BitVec.ofNat 8 v) (f v))) (List.range 256)
  rw [List.length_range] at this
  exact this

/-- The builder makes a trie that uses its whole arena, at most 511 nodes, root last (42_trie_builder.md R150 to R158;
00_scope.md R10). -/
theorem buildArena_trie (p : Params) (d : Nat) (f : Nat → Word) :
    ∃ is, arenaVisit (buildArena p d f).length (buildArena p d f) ((buildArena p d f).length - 1) = some is
      ∧ is.Perm (List.range (buildArena p d f).length)
      ∧ (buildArena p d f).length = 2 * max 1 (makeLeaves f).length - 1 ∧ (buildArena p d f).length ≤ 511 := by
  have hlen := length_makeLeaves f
  unfold buildArena
  cases h : makeLeaves f with
  | nil => exact ⟨[0], rfl, List.Perm.refl _, rfl, by simp⟩
  | cons n ns =>
    rw [h] at hlen
    have hF := leafQueue_forest (n :: ns) (by simp) (fun x hx => makeLeaves_leaf f x (by rw [h]; exact hx))
    have hq : (leafQueue 0 (n :: ns)).length = ((n :: ns).length - 1) + 1 := by
      have : ∀ i (l : List Node), (leafQueue i l).length = l.length := by
        intro i l
        induction l generalizing i with
        | nil => rfl
        | cons n l ih => simp [leafQueue, ih]
      rw [this]; simp
    obtain ⟨is, h1, h2, h3, -⟩ := mergeFrom_forest p.tiePolicy d _ _ _ hF hq
    simp only [List.length_cons] at hlen h3
    refine ⟨is, h1, h2, ?_, ?_⟩
    · simp only [mergeAll, List.length_cons] at h3 ⊢; rw [h3]; omega
    · simp only [mergeAll, List.length_cons] at h3 ⊢; rw [h3]; omega

end Sys2Proof.Machine
end

