-- ==== Sys2Proof/Laws/State.lean ====
section
/-! SUPPORT. One lemma per field and state update, each true by rfl. -/

namespace Sys2Proof.Machine

/-! `State.issue` (60_exceptions.md R240). -/

@[simp] theorem State.issue_params (s : State) (w : Word) : (s.issue w).params = s.params := rfl
@[simp] theorem State.issue_cmd (s : State) (w : Word) : (s.issue w).cmd = w := rfl
@[simp] theorem State.issue_status (s : State) (w : Word) : (s.issue w).status = s.status.issued := rfl
@[simp] theorem State.issue_arg (s : State) (w : Word) : (s.issue w).arg = s.arg := rfl
@[simp] theorem State.issue_result (s : State) (w : Word) : (s.issue w).result = s.result := rfl
@[simp] theorem State.issue_inLen (s : State) (w : Word) : (s.issue w).inLen = s.inLen := rfl
@[simp] theorem State.issue_rdPos (s : State) (w : Word) : (s.issue w).rdPos = s.rdPos := rfl
@[simp] theorem State.issue_rdEnd (s : State) (w : Word) : (s.issue w).rdEnd = s.rdEnd := rfl
@[simp] theorem State.issue_wrPos (s : State) (w : Word) : (s.issue w).wrPos = s.wrPos := rfl
@[simp] theorem State.issue_decLen (s : State) (w : Word) : (s.issue w).decLen = s.decLen := rfl
@[simp] theorem State.issue_valid (s : State) (w : Word) : (s.issue w).valid = s.valid := rfl
@[simp] theorem State.issue_nodeCount (s : State) (w : Word) : (s.issue w).nodeCount = s.nodeCount := rfl
@[simp] theorem State.issue_root (s : State) (w : Word) : (s.issue w).root = s.root := rfl
@[simp] theorem State.issue_irqEn (s : State) (w : Word) : (s.issue w).irqEn = s.irqEn := rfl
@[simp] theorem State.issue_freq (s : State) (w : Word) : (s.issue w).freq = s.freq := rfl
@[simp] theorem State.issue_code (s : State) (w : Word) : (s.issue w).code = s.code := rfl
@[simp] theorem State.issue_node (s : State) (w : Word) : (s.issue w).node = s.node := rfl
@[simp] theorem State.issue_inMem (s : State) (w : Word) : (s.issue w).inMem = s.inMem := rfl
@[simp] theorem State.issue_outMem (s : State) (w : Word) : (s.issue w).outMem = s.outMem := rfl
@[simp] theorem State.issue_host (s : State) (w : Word) : (s.issue w).host = s.host := rfl
@[simp] theorem State.issue_reply (s : State) (w : Word) : (s.issue w).reply = s.reply := rfl
@[simp] theorem State.issue_draws (s : State) (w : Word) : (s.issue w).draws = s.draws := rfl

/-! `State.complete` (60_exceptions.md R241). -/

@[simp] theorem State.complete_params (s : State) : s.complete.params = s.params := rfl
@[simp] theorem State.complete_cmd (s : State) : s.complete.cmd = s.cmd := rfl
@[simp] theorem State.complete_status (s : State) : s.complete.status = s.status.completed := rfl
@[simp] theorem State.complete_arg (s : State) : s.complete.arg = s.arg := rfl
@[simp] theorem State.complete_result (s : State) : s.complete.result = s.result := rfl
@[simp] theorem State.complete_inLen (s : State) : s.complete.inLen = s.inLen := rfl
@[simp] theorem State.complete_rdPos (s : State) : s.complete.rdPos = s.rdPos := rfl
@[simp] theorem State.complete_rdEnd (s : State) : s.complete.rdEnd = s.rdEnd := rfl
@[simp] theorem State.complete_wrPos (s : State) : s.complete.wrPos = s.wrPos := rfl
@[simp] theorem State.complete_decLen (s : State) : s.complete.decLen = s.decLen := rfl
@[simp] theorem State.complete_valid (s : State) : s.complete.valid = s.valid := rfl
@[simp] theorem State.complete_nodeCount (s : State) : s.complete.nodeCount = s.nodeCount := rfl
@[simp] theorem State.complete_root (s : State) : s.complete.root = s.root := rfl
@[simp] theorem State.complete_irqEn (s : State) : s.complete.irqEn = s.irqEn := rfl
@[simp] theorem State.complete_freq (s : State) : s.complete.freq = s.freq := rfl
@[simp] theorem State.complete_code (s : State) : s.complete.code = s.code := rfl
@[simp] theorem State.complete_node (s : State) : s.complete.node = s.node := rfl
@[simp] theorem State.complete_inMem (s : State) : s.complete.inMem = s.inMem := rfl
@[simp] theorem State.complete_outMem (s : State) : s.complete.outMem = s.outMem := rfl
@[simp] theorem State.complete_host (s : State) : s.complete.host = s.host := rfl
@[simp] theorem State.complete_reply (s : State) : s.complete.reply = s.reply := rfl
@[simp] theorem State.complete_draws (s : State) : s.complete.draws = s.draws + 1 := rfl

/-! `State.raise` (60_exceptions.md R245). -/

@[simp] theorem State.raise_params (s : State) (c : ErrCode) : (s.raise c).params = s.params := rfl
@[simp] theorem State.raise_cmd (s : State) (c : ErrCode) : (s.raise c).cmd = s.cmd := rfl
@[simp] theorem State.raise_status (s : State) (c : ErrCode) : (s.raise c).status = (s.status.failed c).completed := rfl
@[simp] theorem State.raise_arg (s : State) (c : ErrCode) : (s.raise c).arg = s.arg := rfl
@[simp] theorem State.raise_result (s : State) (c : ErrCode) : (s.raise c).result = s.result := rfl
@[simp] theorem State.raise_inLen (s : State) (c : ErrCode) : (s.raise c).inLen = s.inLen := rfl
@[simp] theorem State.raise_rdPos (s : State) (c : ErrCode) : (s.raise c).rdPos = s.rdPos := rfl
@[simp] theorem State.raise_rdEnd (s : State) (c : ErrCode) : (s.raise c).rdEnd = s.rdEnd := rfl
@[simp] theorem State.raise_wrPos (s : State) (c : ErrCode) : (s.raise c).wrPos = s.wrPos := rfl
@[simp] theorem State.raise_decLen (s : State) (c : ErrCode) : (s.raise c).decLen = s.decLen := rfl
@[simp] theorem State.raise_valid (s : State) (c : ErrCode) : (s.raise c).valid = s.valid := rfl
@[simp] theorem State.raise_nodeCount (s : State) (c : ErrCode) : (s.raise c).nodeCount = s.nodeCount := rfl
@[simp] theorem State.raise_root (s : State) (c : ErrCode) : (s.raise c).root = s.root := rfl
@[simp] theorem State.raise_irqEn (s : State) (c : ErrCode) : (s.raise c).irqEn = s.irqEn := rfl
@[simp] theorem State.raise_freq (s : State) (c : ErrCode) : (s.raise c).freq = s.freq := rfl
@[simp] theorem State.raise_code (s : State) (c : ErrCode) : (s.raise c).code = s.code := rfl
@[simp] theorem State.raise_node (s : State) (c : ErrCode) : (s.raise c).node = s.node := rfl
@[simp] theorem State.raise_inMem (s : State) (c : ErrCode) : (s.raise c).inMem = s.inMem := rfl
@[simp] theorem State.raise_outMem (s : State) (c : ErrCode) : (s.raise c).outMem = s.outMem := rfl
@[simp] theorem State.raise_host (s : State) (c : ErrCode) : (s.raise c).host = s.host := rfl
@[simp] theorem State.raise_reply (s : State) (c : ErrCode) : (s.raise c).reply = s.reply := rfl
@[simp] theorem State.raise_draws (s : State) (c : ErrCode) : (s.raise c).draws = s.draws + 1 := rfl

/-! `State.emptyWriter` (60_exceptions.md R246). -/

@[simp] theorem State.emptyWriter_params (s : State) : s.emptyWriter.params = s.params := rfl
@[simp] theorem State.emptyWriter_cmd (s : State) : s.emptyWriter.cmd = s.cmd := rfl
@[simp] theorem State.emptyWriter_status (s : State) : s.emptyWriter.status = s.status := rfl
@[simp] theorem State.emptyWriter_arg (s : State) : s.emptyWriter.arg = s.arg := rfl
@[simp] theorem State.emptyWriter_result (s : State) : s.emptyWriter.result = s.result := rfl
@[simp] theorem State.emptyWriter_inLen (s : State) : s.emptyWriter.inLen = s.inLen := rfl
@[simp] theorem State.emptyWriter_rdPos (s : State) : s.emptyWriter.rdPos = s.rdPos := rfl
@[simp] theorem State.emptyWriter_rdEnd (s : State) : s.emptyWriter.rdEnd = s.rdEnd := rfl
@[simp] theorem State.emptyWriter_wrPos (s : State) : s.emptyWriter.wrPos = 0 := rfl
@[simp] theorem State.emptyWriter_decLen (s : State) : s.emptyWriter.decLen = s.decLen := rfl
@[simp] theorem State.emptyWriter_valid (s : State) : s.emptyWriter.valid = { s.valid with wr := true, wrDumped := false } := rfl
@[simp] theorem State.emptyWriter_nodeCount (s : State) : s.emptyWriter.nodeCount = s.nodeCount := rfl
@[simp] theorem State.emptyWriter_root (s : State) : s.emptyWriter.root = s.root := rfl
@[simp] theorem State.emptyWriter_irqEn (s : State) : s.emptyWriter.irqEn = s.irqEn := rfl
@[simp] theorem State.emptyWriter_freq (s : State) : s.emptyWriter.freq = s.freq := rfl
@[simp] theorem State.emptyWriter_code (s : State) : s.emptyWriter.code = s.code := rfl
@[simp] theorem State.emptyWriter_node (s : State) : s.emptyWriter.node = s.node := rfl
@[simp] theorem State.emptyWriter_inMem (s : State) : s.emptyWriter.inMem = s.inMem := rfl
@[simp] theorem State.emptyWriter_outMem (s : State) : s.emptyWriter.outMem = ⟨[], 2 * s.draws + 1⟩ := rfl
@[simp] theorem State.emptyWriter_host (s : State) : s.emptyWriter.host = s.host := rfl
@[simp] theorem State.emptyWriter_reply (s : State) : s.emptyWriter.reply = s.reply := rfl
@[simp] theorem State.emptyWriter_draws (s : State) : s.emptyWriter.draws = s.draws := rfl

/-! `State.setWriter` (10_state.md R30). -/

@[simp] theorem State.setWriter_params (s : State) (w : Writer) : (s.setWriter w).params = s.params := rfl
@[simp] theorem State.setWriter_cmd (s : State) (w : Writer) : (s.setWriter w).cmd = s.cmd := rfl
@[simp] theorem State.setWriter_status (s : State) (w : Writer) : (s.setWriter w).status = s.status := rfl
@[simp] theorem State.setWriter_arg (s : State) (w : Writer) : (s.setWriter w).arg = s.arg := rfl
@[simp] theorem State.setWriter_result (s : State) (w : Writer) : (s.setWriter w).result = s.result := rfl
@[simp] theorem State.setWriter_inLen (s : State) (w : Writer) : (s.setWriter w).inLen = s.inLen := rfl
@[simp] theorem State.setWriter_rdPos (s : State) (w : Writer) : (s.setWriter w).rdPos = s.rdPos := rfl
@[simp] theorem State.setWriter_rdEnd (s : State) (w : Writer) : (s.setWriter w).rdEnd = s.rdEnd := rfl
@[simp] theorem State.setWriter_wrPos (s : State) (w : Writer) : (s.setWriter w).wrPos = w.pos := rfl
@[simp] theorem State.setWriter_decLen (s : State) (w : Writer) : (s.setWriter w).decLen = s.decLen := rfl
@[simp] theorem State.setWriter_valid (s : State) (w : Writer) : (s.setWriter w).valid = s.valid := rfl
@[simp] theorem State.setWriter_nodeCount (s : State) (w : Writer) : (s.setWriter w).nodeCount = s.nodeCount := rfl
@[simp] theorem State.setWriter_root (s : State) (w : Writer) : (s.setWriter w).root = s.root := rfl
@[simp] theorem State.setWriter_irqEn (s : State) (w : Writer) : (s.setWriter w).irqEn = s.irqEn := rfl
@[simp] theorem State.setWriter_freq (s : State) (w : Writer) : (s.setWriter w).freq = s.freq := rfl
@[simp] theorem State.setWriter_code (s : State) (w : Writer) : (s.setWriter w).code = s.code := rfl
@[simp] theorem State.setWriter_node (s : State) (w : Writer) : (s.setWriter w).node = s.node := rfl
@[simp] theorem State.setWriter_inMem (s : State) (w : Writer) : (s.setWriter w).inMem = s.inMem := rfl
@[simp] theorem State.setWriter_outMem (s : State) (w : Writer) : (s.setWriter w).outMem = w.mem := rfl
@[simp] theorem State.setWriter_host (s : State) (w : Writer) : (s.setWriter w).host = s.host := rfl
@[simp] theorem State.setWriter_reply (s : State) (w : Writer) : (s.setWriter w).reply = s.reply := rfl
@[simp] theorem State.setWriter_draws (s : State) (w : Writer) : (s.setWriter w).draws = s.draws := rfl

/-! `State.noteExhausted` (40_bitstream.md R110). -/

@[simp] theorem State.noteExhausted_params (s : State) (b : Bool) : (s.noteExhausted b).params = s.params := rfl
@[simp] theorem State.noteExhausted_cmd (s : State) (b : Bool) : (s.noteExhausted b).cmd = s.cmd := rfl
@[simp] theorem State.noteExhausted_status (s : State) (b : Bool) : (s.noteExhausted b).status = { s.status with exh := s.status.exh || b } := rfl
@[simp] theorem State.noteExhausted_arg (s : State) (b : Bool) : (s.noteExhausted b).arg = s.arg := rfl
@[simp] theorem State.noteExhausted_result (s : State) (b : Bool) : (s.noteExhausted b).result = s.result := rfl
@[simp] theorem State.noteExhausted_inLen (s : State) (b : Bool) : (s.noteExhausted b).inLen = s.inLen := rfl
@[simp] theorem State.noteExhausted_rdPos (s : State) (b : Bool) : (s.noteExhausted b).rdPos = s.rdPos := rfl
@[simp] theorem State.noteExhausted_rdEnd (s : State) (b : Bool) : (s.noteExhausted b).rdEnd = s.rdEnd := rfl
@[simp] theorem State.noteExhausted_wrPos (s : State) (b : Bool) : (s.noteExhausted b).wrPos = s.wrPos := rfl
@[simp] theorem State.noteExhausted_decLen (s : State) (b : Bool) : (s.noteExhausted b).decLen = s.decLen := rfl
@[simp] theorem State.noteExhausted_valid (s : State) (b : Bool) : (s.noteExhausted b).valid = s.valid := rfl
@[simp] theorem State.noteExhausted_nodeCount (s : State) (b : Bool) : (s.noteExhausted b).nodeCount = s.nodeCount := rfl
@[simp] theorem State.noteExhausted_root (s : State) (b : Bool) : (s.noteExhausted b).root = s.root := rfl
@[simp] theorem State.noteExhausted_irqEn (s : State) (b : Bool) : (s.noteExhausted b).irqEn = s.irqEn := rfl
@[simp] theorem State.noteExhausted_freq (s : State) (b : Bool) : (s.noteExhausted b).freq = s.freq := rfl
@[simp] theorem State.noteExhausted_code (s : State) (b : Bool) : (s.noteExhausted b).code = s.code := rfl
@[simp] theorem State.noteExhausted_node (s : State) (b : Bool) : (s.noteExhausted b).node = s.node := rfl
@[simp] theorem State.noteExhausted_inMem (s : State) (b : Bool) : (s.noteExhausted b).inMem = s.inMem := rfl
@[simp] theorem State.noteExhausted_outMem (s : State) (b : Bool) : (s.noteExhausted b).outMem = s.outMem := rfl
@[simp] theorem State.noteExhausted_host (s : State) (b : Bool) : (s.noteExhausted b).host = s.host := rfl
@[simp] theorem State.noteExhausted_reply (s : State) (b : Bool) : (s.noteExhausted b).reply = s.reply := rfl
@[simp] theorem State.noteExhausted_draws (s : State) (b : Bool) : (s.noteExhausted b).draws = s.draws := rfl

/-! `State.deliver` (40_bitstream.md R117). -/

@[simp] theorem State.deliver_params (s : State) (v : Option Word) (p : Word) : (s.deliver v p).params = s.params := rfl
@[simp] theorem State.deliver_cmd (s : State) (v : Option Word) (p : Word) : (s.deliver v p).cmd = s.cmd := rfl
@[simp] theorem State.deliver_status (s : State) (v : Option Word) (p : Word) : (s.deliver v p).status = { s.status with exh := s.status.exh || v.isNone } := rfl
@[simp] theorem State.deliver_arg (s : State) (v : Option Word) (p : Word) : (s.deliver v p).arg = s.arg := rfl
@[simp] theorem State.deliver_result (s : State) (v : Option Word) (p : Word) : (s.deliver v p).result = v.getD 0 := rfl
@[simp] theorem State.deliver_inLen (s : State) (v : Option Word) (p : Word) : (s.deliver v p).inLen = s.inLen := rfl
@[simp] theorem State.deliver_rdPos (s : State) (v : Option Word) (p : Word) : (s.deliver v p).rdPos = p := rfl
@[simp] theorem State.deliver_rdEnd (s : State) (v : Option Word) (p : Word) : (s.deliver v p).rdEnd = s.rdEnd := rfl
@[simp] theorem State.deliver_wrPos (s : State) (v : Option Word) (p : Word) : (s.deliver v p).wrPos = s.wrPos := rfl
@[simp] theorem State.deliver_decLen (s : State) (v : Option Word) (p : Word) : (s.deliver v p).decLen = s.decLen := rfl
@[simp] theorem State.deliver_valid (s : State) (v : Option Word) (p : Word) : (s.deliver v p).valid = s.valid := rfl
@[simp] theorem State.deliver_nodeCount (s : State) (v : Option Word) (p : Word) : (s.deliver v p).nodeCount = s.nodeCount := rfl
@[simp] theorem State.deliver_root (s : State) (v : Option Word) (p : Word) : (s.deliver v p).root = s.root := rfl
@[simp] theorem State.deliver_irqEn (s : State) (v : Option Word) (p : Word) : (s.deliver v p).irqEn = s.irqEn := rfl
@[simp] theorem State.deliver_freq (s : State) (v : Option Word) (p : Word) : (s.deliver v p).freq = s.freq := rfl
@[simp] theorem State.deliver_code (s : State) (v : Option Word) (p : Word) : (s.deliver v p).code = s.code := rfl
@[simp] theorem State.deliver_node (s : State) (v : Option Word) (p : Word) : (s.deliver v p).node = s.node := rfl
@[simp] theorem State.deliver_inMem (s : State) (v : Option Word) (p : Word) : (s.deliver v p).inMem = s.inMem := rfl
@[simp] theorem State.deliver_outMem (s : State) (v : Option Word) (p : Word) : (s.deliver v p).outMem = s.outMem := rfl
@[simp] theorem State.deliver_host (s : State) (v : Option Word) (p : Word) : (s.deliver v p).host = s.host := rfl
@[simp] theorem State.deliver_reply (s : State) (v : Option Word) (p : Word) : (s.deliver v p).reply = s.reply := rfl
@[simp] theorem State.deliver_draws (s : State) (v : Option Word) (p : Word) : (s.deliver v p).draws = s.draws := rfl

/-! `State.beginTrie` (43_trie_codec.md R172). -/

@[simp] theorem State.beginTrie_params (s : State) : s.beginTrie.params = s.params := rfl
@[simp] theorem State.beginTrie_cmd (s : State) : s.beginTrie.cmd = s.cmd := rfl
@[simp] theorem State.beginTrie_status (s : State) : s.beginTrie.status = s.status := rfl
@[simp] theorem State.beginTrie_arg (s : State) : s.beginTrie.arg = s.arg := rfl
@[simp] theorem State.beginTrie_result (s : State) : s.beginTrie.result = s.result := rfl
@[simp] theorem State.beginTrie_inLen (s : State) : s.beginTrie.inLen = s.inLen := rfl
@[simp] theorem State.beginTrie_rdPos (s : State) : s.beginTrie.rdPos = s.rdPos := rfl
@[simp] theorem State.beginTrie_rdEnd (s : State) : s.beginTrie.rdEnd = s.rdEnd := rfl
@[simp] theorem State.beginTrie_wrPos (s : State) : s.beginTrie.wrPos = s.wrPos := rfl
@[simp] theorem State.beginTrie_decLen (s : State) : s.beginTrie.decLen = s.decLen := rfl
@[simp] theorem State.beginTrie_valid (s : State) : s.beginTrie.valid = { s.valid with trie := false, code := false } := rfl
@[simp] theorem State.beginTrie_nodeCount (s : State) : s.beginTrie.nodeCount = 0 := rfl
@[simp] theorem State.beginTrie_root (s : State) : s.beginTrie.root = 0 := rfl
@[simp] theorem State.beginTrie_irqEn (s : State) : s.beginTrie.irqEn = s.irqEn := rfl
@[simp] theorem State.beginTrie_freq (s : State) : s.beginTrie.freq = s.freq := rfl
@[simp] theorem State.beginTrie_code (s : State) : s.beginTrie.code = s.code := rfl
@[simp] theorem State.beginTrie_node (s : State) : s.beginTrie.node = [] := rfl
@[simp] theorem State.beginTrie_inMem (s : State) : s.beginTrie.inMem = s.inMem := rfl
@[simp] theorem State.beginTrie_outMem (s : State) : s.beginTrie.outMem = s.outMem := rfl
@[simp] theorem State.beginTrie_host (s : State) : s.beginTrie.host = s.host := rfl
@[simp] theorem State.beginTrie_reply (s : State) : s.beginTrie.reply = s.reply := rfl
@[simp] theorem State.beginTrie_draws (s : State) : s.beginTrie.draws = s.draws := rfl

/-! `State.answered` (20_memory.md R73). -/

@[simp] theorem State.answered_params (s : State) (r : Reply) : (s.answered r).params = s.params := rfl
@[simp] theorem State.answered_cmd (s : State) (r : Reply) : (s.answered r).cmd = s.cmd := rfl
@[simp] theorem State.answered_status (s : State) (r : Reply) : (s.answered r).status = s.status := rfl
@[simp] theorem State.answered_arg (s : State) (r : Reply) : (s.answered r).arg = s.arg := rfl
@[simp] theorem State.answered_result (s : State) (r : Reply) : (s.answered r).result = s.result := rfl
@[simp] theorem State.answered_inLen (s : State) (r : Reply) : (s.answered r).inLen = s.inLen := rfl
@[simp] theorem State.answered_rdPos (s : State) (r : Reply) : (s.answered r).rdPos = s.rdPos := rfl
@[simp] theorem State.answered_rdEnd (s : State) (r : Reply) : (s.answered r).rdEnd = s.rdEnd := rfl
@[simp] theorem State.answered_wrPos (s : State) (r : Reply) : (s.answered r).wrPos = s.wrPos := rfl
@[simp] theorem State.answered_decLen (s : State) (r : Reply) : (s.answered r).decLen = s.decLen := rfl
@[simp] theorem State.answered_valid (s : State) (r : Reply) : (s.answered r).valid = s.valid := rfl
@[simp] theorem State.answered_nodeCount (s : State) (r : Reply) : (s.answered r).nodeCount = s.nodeCount := rfl
@[simp] theorem State.answered_root (s : State) (r : Reply) : (s.answered r).root = s.root := rfl
@[simp] theorem State.answered_irqEn (s : State) (r : Reply) : (s.answered r).irqEn = s.irqEn := rfl
@[simp] theorem State.answered_freq (s : State) (r : Reply) : (s.answered r).freq = s.freq := rfl
@[simp] theorem State.answered_code (s : State) (r : Reply) : (s.answered r).code = s.code := rfl
@[simp] theorem State.answered_node (s : State) (r : Reply) : (s.answered r).node = s.node := rfl
@[simp] theorem State.answered_inMem (s : State) (r : Reply) : (s.answered r).inMem = s.inMem := rfl
@[simp] theorem State.answered_outMem (s : State) (r : Reply) : (s.answered r).outMem = s.outMem := rfl
@[simp] theorem State.answered_host (s : State) (r : Reply) : (s.answered r).host = s.host := rfl
@[simp] theorem State.answered_reply (s : State) (r : Reply) : (s.answered r).reply = some r := rfl
@[simp] theorem State.answered_draws (s : State) (r : Reply) : (s.answered r).draws = s.draws + 1 := rfl

/-! `State.overrun` (20_memory.md R82). -/

@[simp] theorem State.overrun_params (s : State) : s.overrun.params = s.params := rfl
@[simp] theorem State.overrun_cmd (s : State) : s.overrun.cmd = s.cmd := rfl
@[simp] theorem State.overrun_status (s : State) : s.overrun.status = { s.status with ovr := true } := rfl
@[simp] theorem State.overrun_arg (s : State) : s.overrun.arg = s.arg := rfl
@[simp] theorem State.overrun_result (s : State) : s.overrun.result = s.result := rfl
@[simp] theorem State.overrun_inLen (s : State) : s.overrun.inLen = s.inLen := rfl
@[simp] theorem State.overrun_rdPos (s : State) : s.overrun.rdPos = s.rdPos := rfl
@[simp] theorem State.overrun_rdEnd (s : State) : s.overrun.rdEnd = s.rdEnd := rfl
@[simp] theorem State.overrun_wrPos (s : State) : s.overrun.wrPos = s.wrPos := rfl
@[simp] theorem State.overrun_decLen (s : State) : s.overrun.decLen = s.decLen := rfl
@[simp] theorem State.overrun_valid (s : State) : s.overrun.valid = s.valid := rfl
@[simp] theorem State.overrun_nodeCount (s : State) : s.overrun.nodeCount = s.nodeCount := rfl
@[simp] theorem State.overrun_root (s : State) : s.overrun.root = s.root := rfl
@[simp] theorem State.overrun_irqEn (s : State) : s.overrun.irqEn = s.irqEn := rfl
@[simp] theorem State.overrun_freq (s : State) : s.overrun.freq = s.freq := rfl
@[simp] theorem State.overrun_code (s : State) : s.overrun.code = s.code := rfl
@[simp] theorem State.overrun_node (s : State) : s.overrun.node = s.node := rfl
@[simp] theorem State.overrun_inMem (s : State) : s.overrun.inMem = s.inMem := rfl
@[simp] theorem State.overrun_outMem (s : State) : s.overrun.outMem = s.outMem := rfl
@[simp] theorem State.overrun_host (s : State) : s.overrun.host = s.host := rfl
@[simp] theorem State.overrun_reply (s : State) : s.overrun.reply = s.reply := rfl
@[simp] theorem State.overrun_draws (s : State) : s.overrun.draws = s.draws := rfl

/-! `State.withFetchWord` (notes/assumptions/2.md). -/

@[simp] theorem State.withFetchWord_params (s : State) (n w : Nat) : (s.withFetchWord n w).params = s.params := rfl
@[simp] theorem State.withFetchWord_cmd (s : State) (n w : Nat) : (s.withFetchWord n w).cmd = BitVec.ofNat 32 (w % 2 ^ n) := rfl
@[simp] theorem State.withFetchWord_status (s : State) (n w : Nat) : (s.withFetchWord n w).status = s.status.issued := rfl
@[simp] theorem State.withFetchWord_arg (s : State) (n w : Nat) : (s.withFetchWord n w).arg = s.arg := rfl
@[simp] theorem State.withFetchWord_result (s : State) (n w : Nat) : (s.withFetchWord n w).result = s.result := rfl
@[simp] theorem State.withFetchWord_inLen (s : State) (n w : Nat) : (s.withFetchWord n w).inLen = s.inLen := rfl
@[simp] theorem State.withFetchWord_rdPos (s : State) (n w : Nat) : (s.withFetchWord n w).rdPos = s.rdPos := rfl
@[simp] theorem State.withFetchWord_rdEnd (s : State) (n w : Nat) : (s.withFetchWord n w).rdEnd = s.rdEnd := rfl
@[simp] theorem State.withFetchWord_wrPos (s : State) (n w : Nat) : (s.withFetchWord n w).wrPos = s.wrPos := rfl
@[simp] theorem State.withFetchWord_decLen (s : State) (n w : Nat) : (s.withFetchWord n w).decLen = s.decLen := rfl
@[simp] theorem State.withFetchWord_valid (s : State) (n w : Nat) : (s.withFetchWord n w).valid = s.valid := rfl
@[simp] theorem State.withFetchWord_nodeCount (s : State) (n w : Nat) : (s.withFetchWord n w).nodeCount = s.nodeCount := rfl
@[simp] theorem State.withFetchWord_root (s : State) (n w : Nat) : (s.withFetchWord n w).root = s.root := rfl
@[simp] theorem State.withFetchWord_irqEn (s : State) (n w : Nat) : (s.withFetchWord n w).irqEn = s.irqEn := rfl
@[simp] theorem State.withFetchWord_freq (s : State) (n w : Nat) : (s.withFetchWord n w).freq = s.freq := rfl
@[simp] theorem State.withFetchWord_code (s : State) (n w : Nat) : (s.withFetchWord n w).code = s.code := rfl
@[simp] theorem State.withFetchWord_node (s : State) (n w : Nat) : (s.withFetchWord n w).node = s.node := rfl
@[simp] theorem State.withFetchWord_inMem (s : State) (n w : Nat) : (s.withFetchWord n w).inMem = s.inMem := rfl
@[simp] theorem State.withFetchWord_outMem (s : State) (n w : Nat) : (s.withFetchWord n w).outMem = s.outMem := rfl
@[simp] theorem State.withFetchWord_host (s : State) (n w : Nat) : (s.withFetchWord n w).host = .coreTurn :: s.host := rfl
@[simp] theorem State.withFetchWord_reply (s : State) (n w : Nat) : (s.withFetchWord n w).reply = s.reply := rfl
@[simp] theorem State.withFetchWord_draws (s : State) (n w : Nat) : (s.withFetchWord n w).draws = s.draws := rfl

/-! `State.applyReset` (70_reset_and_hazards.md R280). -/

@[simp] theorem State.applyReset_params (s : State) : s.applyReset.params = s.params := rfl
@[simp] theorem State.applyReset_cmd (s : State) : s.applyReset.cmd = State.reset.cmd := rfl
@[simp] theorem State.applyReset_status (s : State) : s.applyReset.status = State.reset.status := rfl
@[simp] theorem State.applyReset_arg (s : State) : s.applyReset.arg = State.reset.arg := rfl
@[simp] theorem State.applyReset_result (s : State) : s.applyReset.result = State.reset.result := rfl
@[simp] theorem State.applyReset_inLen (s : State) : s.applyReset.inLen = State.reset.inLen := rfl
@[simp] theorem State.applyReset_rdPos (s : State) : s.applyReset.rdPos = State.reset.rdPos := rfl
@[simp] theorem State.applyReset_rdEnd (s : State) : s.applyReset.rdEnd = State.reset.rdEnd := rfl
@[simp] theorem State.applyReset_wrPos (s : State) : s.applyReset.wrPos = State.reset.wrPos := rfl
@[simp] theorem State.applyReset_decLen (s : State) : s.applyReset.decLen = State.reset.decLen := rfl
@[simp] theorem State.applyReset_valid (s : State) : s.applyReset.valid = State.reset.valid := rfl
@[simp] theorem State.applyReset_nodeCount (s : State) : s.applyReset.nodeCount = State.reset.nodeCount := rfl
@[simp] theorem State.applyReset_root (s : State) : s.applyReset.root = State.reset.root := rfl
@[simp] theorem State.applyReset_irqEn (s : State) : s.applyReset.irqEn = State.reset.irqEn := rfl
@[simp] theorem State.applyReset_freq (s : State) : s.applyReset.freq = State.reset.freq := rfl
@[simp] theorem State.applyReset_code (s : State) : s.applyReset.code = State.reset.code := rfl
@[simp] theorem State.applyReset_node (s : State) : s.applyReset.node = State.reset.node := rfl
@[simp] theorem State.applyReset_inMem (s : State) : s.applyReset.inMem = ⟨[], 2 * s.draws⟩ := rfl
@[simp] theorem State.applyReset_outMem (s : State) : s.applyReset.outMem = ⟨[], 2 * s.draws + 1⟩ := rfl
@[simp] theorem State.applyReset_host (s : State) : s.applyReset.host = s.host := rfl
@[simp] theorem State.applyReset_reply (s : State) : s.applyReset.reply = State.reset.reply := rfl
@[simp] theorem State.applyReset_draws (s : State) : s.applyReset.draws = s.draws + 1 := rfl

/-! STATUS updates (10_state.md R23). -/

@[simp] theorem Status.issued_busy (st : Status) : st.issued.busy = true := rfl
@[simp] theorem Status.issued_done (st : Status) : st.issued.done = false := rfl
@[simp] theorem Status.issued_err (st : Status) : st.issued.err = false := rfl
@[simp] theorem Status.issued_exh (st : Status) : st.issued.exh = false := rfl
@[simp] theorem Status.issued_ovr (st : Status) : st.issued.ovr = st.ovr := rfl
@[simp] theorem Status.issued_errcode (st : Status) : st.issued.errcode = .none := rfl
@[simp] theorem Status.completed_busy (st : Status) : st.completed.busy = false := rfl
@[simp] theorem Status.completed_done (st : Status) : st.completed.done = true := rfl
@[simp] theorem Status.completed_err (st : Status) : st.completed.err = st.err := rfl
@[simp] theorem Status.completed_exh (st : Status) : st.completed.exh = st.exh := rfl
@[simp] theorem Status.completed_ovr (st : Status) : st.completed.ovr = st.ovr := rfl
@[simp] theorem Status.completed_errcode (st : Status) : st.completed.errcode = st.errcode := rfl
@[simp] theorem Status.failed_busy (st : Status) (c : ErrCode) : (st.failed c).busy = st.busy := rfl
@[simp] theorem Status.failed_done (st : Status) (c : ErrCode) : (st.failed c).done = st.done := rfl
@[simp] theorem Status.failed_err (st : Status) (c : ErrCode) : (st.failed c).err = true := rfl
@[simp] theorem Status.failed_exh (st : Status) (c : ErrCode) : (st.failed c).exh = st.exh := rfl
@[simp] theorem Status.failed_ovr (st : Status) (c : ErrCode) : (st.failed c).ovr = st.ovr := rfl
@[simp] theorem Status.failed_errcode (st : Status) (c : ErrCode) : (st.failed c).errcode = c := rfl
@[simp] theorem Status.writeOneToClear_busy (st : Status) (w : Word) : (st.writeOneToClear w).busy = st.busy := rfl
@[simp] theorem Status.writeOneToClear_done (st : Status) (w : Word) : (st.writeOneToClear w).done = (st.done && !w.getLsbD 1) := rfl
@[simp] theorem Status.writeOneToClear_err (st : Status) (w : Word) : (st.writeOneToClear w).err = st.err := rfl
@[simp] theorem Status.writeOneToClear_exh (st : Status) (w : Word) : (st.writeOneToClear w).exh = st.exh := rfl
@[simp] theorem Status.writeOneToClear_ovr (st : Status) (w : Word) : (st.writeOneToClear w).ovr = (st.ovr && !w.getLsbD 4) := rfl
@[simp] theorem Status.writeOneToClear_errcode (st : Status) (w : Word) : (st.writeOneToClear w).errcode = st.errcode := rfl

/-- The writer of a state is its cursor and OUT_MEM (10_state.md R30, R43). -/
@[simp] theorem State.writer_pos (s : State) : s.writer.pos = s.wrPos := rfl
@[simp] theorem State.writer_mem (s : State) : s.writer.mem = s.outMem := rfl

end Sys2Proof.Machine
end

