-- ==== Sys2Proof/Laws/Commands.lean ====
section
/-! SUPPORT. The life of a command, said once: what `guarded`, `Ran.finish`, `Ran.finishWriter` and `Ran.andThen` can answer. -/

namespace Sys2Proof.Machine

/-- All checks passed: the body runs (60_exceptions.md R249). -/
theorem guarded_pass (s : State) (flags : List Bool) (range : Bool) (body : Host.Outcome State Fault Refusal)
    (hf : flags.all id = true) (hr : range = true) : guarded s flags range body = body := by
  simp [guarded, hf, hr]

/-- A valid flag is missing: BAD_STATE before anything else (60_exceptions.md R249). -/
theorem guarded_badState (s : State) (flags : List Bool) (range : Bool) (body : Host.Outcome State Fault Refusal)
    (hf : flags.all id = false) : guarded s flags range body = .next (s.raise .badState) := by
  simp [guarded, hf]

/-- The flags are there and IN_LEN is out of range: IN_RANGE (60_exceptions.md R249). -/
theorem guarded_inRange (s : State) (flags : List Bool) (body : Host.Outcome State Fault Refusal)
    (hf : flags.all id = true) : guarded s flags false body = .next (s.raise .inRange) := by
  simp [guarded, hf]

/-- Everything a guarded command can answer. -/
theorem guarded_cases (s : State) (flags : List Bool) (range : Bool) (body o : Host.Outcome State Fault Refusal)
    (h : guarded s flags range body = o) :
    (flags.all id = true ∧ range = true ∧ o = body)
      ∨ (flags.all id = false ∧ o = .next (s.raise .badState))
      ∨ (flags.all id = true ∧ range = false ∧ o = .next (s.raise .inRange)) := by
  subst h
  unfold guarded
  cases flags.all id <;> cases range <;> simp

/-- When a body that does not write the writer ends in a next state (60_exceptions.md R241, R245). -/
theorem finish_next (r : Ran) (t : State) (h : r.finish = .next t) :
    (∃ s, r = .ok s ∧ t = s.complete) ∨ (∃ c s, r = .error c s ∧ t = s.raise c) := by
  cases r with
  | ok s => exact .inl ⟨s, rfl, (Host.Outcome.next.inj h).symm⟩
  | error c s => exact .inr ⟨c, s, rfl, (Host.Outcome.next.inj h).symm⟩
  | stuck f => exact nomatch h

/-- When a body that writes the writer ends in a next state: an error empties the writer (60_exceptions.md R246). -/
theorem finishWriter_next (r : Ran) (t : State) (h : r.finishWriter = .next t) :
    (∃ s, r = .ok s ∧ t = s.complete) ∨ (∃ c s, r = .error c s ∧ t = s.emptyWriter.raise c) := by
  cases r with
  | ok s => exact .inl ⟨s, rfl, (Host.Outcome.next.inj h).symm⟩
  | error c s => exact .inr ⟨c, s, rfl, (Host.Outcome.next.inj h).symm⟩
  | stuck f => exact nomatch h

/-- No body is ever refused. -/
theorem finish_not_refused (r : Ran) (x : Refusal) : r.finish ≠ .refused x := by cases r <;> exact nofun

theorem finishWriter_not_refused (r : Ran) (x : Refusal) : r.finishWriter ≠ .refused x := by cases r <;> exact nofun

/-- A body after a body (46_orchestrator.md R220, R222). -/
theorem andThen_ok (r : Ran) (k : State → Ran) (t : State) (h : r.andThen k = .ok t) : ∃ s, r = .ok s ∧ k s = .ok t := by
  cases r with
  | ok s => exact ⟨s, rfl, h⟩
  | error c s => exact nomatch h
  | stuck f => exact nomatch h

theorem andThen_error (r : Ran) (k : State → Ran) (c : ErrCode) (t : State) (h : r.andThen k = .error c t) :
    r = .error c t ∨ ∃ s, r = .ok s ∧ k s = .error c t := by
  cases r with
  | ok s => exact .inr ⟨s, rfl, h⟩
  | error c' s => exact .inl h
  | stuck f => exact nomatch h

theorem andThen_stuck (r : Ran) (k : State → Ran) (f : Fault) (h : r.andThen k = .stuck f) :
    r = .stuck f ∨ ∃ s, r = .ok s ∧ k s = .stuck f := by
  cases r with
  | ok s => exact .inr ⟨s, rfl, h⟩
  | error c' s => exact nomatch h
  | stuck f' => exact .inl h

/-- A body that only writes bits (40_bitstream.md R123 to R125, 43_trie_codec.md R171). -/
theorem wrote_some (s : State) (w : Writer) : s.wrote (some w) = .ok (s.setWriter w) := rfl

theorem wrote_none (s : State) : s.wrote none = .error .outOverflow s := rfl

end Sys2Proof.Machine
end

