-- ==== Sys2Proof/Laws/HostPort.lean ====
section
/-! SUPPORT. The host port, said once: offsets, regions, responses and what a register or memory access does. -/

namespace Sys2Proof.Machine

/-! ### Offsets -/

theorem State.offset_base (s : State) (off : Word) : s.offset (s.params.blockBase + off) = off.toNat := by
  unfold State.offset
  rw [BitVec.add_comm, BitVec.add_sub_cancel]

theorem State.offset_base_add (s : State) (a b : Word) :
    s.offset (s.params.blockBase + a + b) = (a + b).toNat := by
  rw [BitVec.add_assoc, State.offset_base]

theorem State.offset_window (s : State) (a : Word) (k : Nat) (h : a.toNat + k < 2 ^ 32) :
    s.offset (s.params.blockBase + a + BitVec.ofNat 32 k) = a.toNat + k := by
  rw [State.offset_base_add, BitVec.toNat_add, BitVec.toNat_ofNat]
  omega

/-! ### Regions and responses (20_memory.md R61, R62, R64, R65, R67) -/

theorem regionOf_regs (off : Nat) (h : off < 0x1000) : regionOf off = .regs := by
  grind [regionOf]

theorem regionOf_freqWindow (off : Nat) (h1 : 0x1000 ≤ off) (h2 : off < 0x1400) : regionOf off = .freqWindow := by
  grind [regionOf]

theorem regionOf_codeWindow (off : Nat) (h1 : 0x2000 ≤ off) (h2 : off < 0x6000) : regionOf off = .codeWindow := by
  grind [regionOf]

theorem regionOf_nodeWindow (off : Nat) (h1 : 0x8000 ≤ off) (h2 : off < 0x10000) : regionOf off = .nodeWindow := by
  grind [regionOf]

theorem regionOf_reserved (off : Nat) (h : (0x1400 ≤ off ∧ off < 0x2000) ∨ (0x6000 ≤ off ∧ off < 0x8000)) :
    regionOf off = .reserved := by
  grind [regionOf]

theorem regionOf_inWindow (off : Nat) (h1 : 0x1000000 ≤ off) (h2 : off < 0x2000000) : regionOf off = .inWindow := by
  grind [regionOf]

theorem regionOf_outWindow (off : Nat) (h1 : 0x2000000 ≤ off) (h2 : off < 0x3000000) : regionOf off = .outWindow := by
  grind [regionOf]

theorem regionOf_unmapped (off : Nat) (h : (0x10000 ≤ off ∧ off < 0x1000000) ∨ 0x3000000 ≤ off) :
    regionOf off = .unmapped := by
  grind [regionOf]

/-- Below 0x10000 stand only word regions (20_memory.md R61, R62). -/
theorem regionOf_low (off : Nat) (h : off < 0x10000) :
    regionOf off ≠ .inWindow ∧ regionOf off ≠ .outWindow ∧ regionOf off ≠ .unmapped := by
  grind [regionOf]

theorem respOf_low (size : Size) (off : Nat) (h : off < 0x10000) :
    respOf size off = if size = .word ∧ off % 4 = 0 then .okay else .slverr := by
  obtain ⟨h1, h2, h3⟩ := regionOf_low off h
  unfold respOf
  cases hr : regionOf off
  case inWindow => exact absurd hr h1
  case outWindow => exact absurd hr h2
  case unmapped => exact absurd hr h3
  all_goals rfl

theorem respOf_inWindow (size : Size) (off : Nat) (h1 : 0x1000000 ≤ off) (h2 : off < 0x2000000) :
    respOf size off = if off % size.bytes = 0 then .okay else .slverr := by
  unfold respOf
  rw [regionOf_inWindow off h1 h2]

theorem respOf_outWindow (size : Size) (off : Nat) (h1 : 0x2000000 ≤ off) (h2 : off < 0x3000000) :
    respOf size off = if off % size.bytes = 0 then .okay else .slverr := by
  unfold respOf
  rw [regionOf_outWindow off h1 h2]

theorem respOf_unmapped (size : Size) (off : Nat) (h : (0x10000 ≤ off ∧ off < 0x1000000) ∨ 0x3000000 ≤ off) :
    respOf size off = .decerr := by
  unfold respOf
  rw [regionOf_unmapped off h]

/-- A misaligned write to OUT_MEM apart, a write is answered as a read is (20_memory.md R62, R64, R67). -/
theorem State.writeResp_eq (s : State) (size : Size) (off : Nat)
    (h : regionOf off ≠ .outWindow ∨ respOf size off = .okay) : s.writeResp size off = respOf size off := by
  unfold State.writeResp
  rcases h with h | h
  · simp [h]
  · simp [h]

/-! ### Steps of the host -/

theorem step_read (s : State) (size : Size) (addr : Word) (rest : List HostEvent) (h : s.host = .read size addr :: rest) :
    step s = .next ({ s with host := rest }.hostRead size addr) := by
  simp only [step, turn, h]

theorem step_write (s : State) (size : Size) (addr v : Word) (rest : List HostEvent)
    (h : s.host = .write size addr v :: rest) : step s = .next ({ s with host := rest }.hostWrite size addr v) := by
  simp only [step, turn, h]

theorem State.hostWrite_okay (s : State) (size : Size) (addr v : Word) (off : Nat) (ho : s.offset addr = off)
    (h : respOf size off = .okay) : s.hostWrite size addr v = (s.writeData size off v).answered ⟨.okay, none⟩ := by
  unfold State.hostWrite
  rw [ho, s.writeResp_eq size off (.inr h), h]

theorem State.hostWrite_slverr (s : State) (size : Size) (addr v : Word) (off : Nat) (ho : s.offset addr = off)
    (hr : regionOf off ≠ .outWindow) (h : respOf size off = .slverr) :
    s.hostWrite size addr v = s.answered ⟨.slverr, none⟩ := by
  unfold State.hostWrite
  rw [ho, s.writeResp_eq size off (.inl hr), h]

theorem State.hostWrite_decerr (s : State) (size : Size) (addr v : Word) (off : Nat) (ho : s.offset addr = off)
    (h : respOf size off = .decerr) : s.hostWrite size addr v = s.answered ⟨.decerr, none⟩ := by
  unfold State.hostWrite
  rw [ho]
  have : s.writeResp size off = .decerr := by simp [State.writeResp, h]
  rw [this]

theorem State.hostRead_eq (s : State) (size : Size) (addr : Word) (off : Nat) (ho : s.offset addr = off) :
    s.hostRead size addr = s.answered ⟨respOf size off, some (s.readData size off)⟩ := by
  unfold State.hostRead
  rw [ho]

/-- A data read of an accepted word in the register block (20_memory.md R61). -/
theorem State.readData_reg (s : State) (off : Nat) (h : off < 0x1000) (ha : off % 4 = 0) :
    s.readData .word off = s.readReg off := by
  unfold State.readData
  rw [respOf_low .word off (by omega), if_pos ⟨rfl, ha⟩, regionOf_regs off h]

/-- A reserved gap between the windows reads 0, busy or not (20_memory.md R61). -/
theorem State.readData_reserved (s : State) (off : Nat)
    (h : (0x1400 ≤ off ∧ off < 0x2000) ∨ (0x6000 ≤ off ∧ off < 0x8000)) (ha : off % 4 = 0) :
    s.readData .word off = 0 := by
  unfold State.readData
  rw [respOf_low .word off (by omega), if_pos ⟨rfl, ha⟩, regionOf_reserved off h]

/-- A lane of assembled bytes (20_memory.md R69). -/
theorem gatherLanes_lane (lane : Nat → Byte) (n j : Nat) (hn : n ≤ 4) (hj : j < n) :
    (gatherLanes lane n).extractLsb' (8 * j) 8 = lane j := by
  have bit : ∀ m, m ≤ 4 → ∀ i, i < 32 → (gatherLanes lane m).getLsbD i = (decide (i < 8 * m) && (lane (i / 8)).getLsbD (i % 8)) := by
    intro m
    induction m with
    | zero => intro _ i _; simp [gatherLanes]
    | succ m ih =>
      intro hm i hi
      rw [gatherLanes, BitVec.getLsbD_or, ih (by omega) i hi, BitVec.getLsbD_shiftLeft, BitVec.getLsbD_setWidth]
      by_cases h1 : i < 8 * m
      · simp [h1, show i < 8 * (m + 1) by omega]
      · by_cases h2 : i < 8 * (m + 1)
        · have h3 : i / 8 = m := by omega
          have h4 : i % 8 = i - 8 * m := by omega
          simp [h1, h2, h3, h4, hi]
          omega
        · simp [h1, h2]
          intro _ _
          exact BitVec.getLsbD_of_ge _ _ (by omega)
  apply BitVec.eq_of_getLsbD_eq
  intro i hi
  rw [BitVec.getLsbD_extractLsb', bit n hn _ (by omega)]
  simp [hi, show 8 * j + i < 8 * n by omega, show (8 * j + i) / 8 = j by omega, show (8 * j + i) % 8 = i by omega]

end Sys2Proof.Machine
end

