-- ==== Sys2Proof/Laws/Payload.lean ====
section
/-! SUPPORT. What the loops of PAYLOAD_ENC and PAYLOAD_DEC do over the part that goes well (45_payload_codec.md R200, R202), and
where EXTRACT's trie and payload begin (46_orchestrator.md R222). -/

namespace Sys2Proof.Machine

/-- `n` coded bytes append their codes; the loop goes on with the bytes after them (45_payload_codec.md R200). -/
theorem encFrom_prefix (m : Memory) (codeAt : Nat → CodeEntry) (cap n r k : Nat) (w w' : Writer)
    (hp : ∀ j < n, (codeAt (m.read (k + j)).toNat).present = true)
    (hw : wrSeq cap ((List.range n).flatMap fun j => (codeAt (m.read (k + j)).toNat).bits) w = some w') :
    encFrom m codeAt cap (r + n) k w = encFrom m codeAt cap r (k + n) w' := by
  induction n generalizing k w with
  | zero => simp only [List.range_zero, List.flatMap_nil, wrSeq, Option.some.injEq] at hw; rw [hw]; rfl
  | succ n ih =>
    rw [List.range_succ_eq_map, List.flatMap_cons, wrSeq_append, List.flatMap_map] at hw
    obtain ⟨w1, h1, h2⟩ := Option.bind_eq_some_iff.mp hw
    have step1 : encFrom m codeAt cap (r + n + 1) k w = encFrom m codeAt cap (r + n) (k + 1) w1 := by
      rw [Nat.add_zero] at h1
      have h0 := hp 0 n.succ_pos
      rw [Nat.add_zero] at h0
      rw [encFrom, if_pos h0, h1]
    have shift : ∀ j, k + (j + 1) = k + 1 + j := by omega
    rw [← Nat.add_assoc, step1, ih (k + 1) w1 (fun j hj => by rw [← shift]; exact hp (j + 1) (by omega))]
    · congr 1; omega
    · have hf : (fun j => (codeAt (m.read (k + 1 + j)).toNat).bits) = fun j => (codeAt (m.read (k + (j + 1))).toNat).bits :=
        funext fun j => congrArg (fun i => (codeAt (m.read i).toNat).bits) (shift j).symm
      rw [hf]
      exact h2

/-- Walks along the paths `ps` append their leaves' bytes and read exactly their bits; the loop goes on after them
(45_payload_codec.md R202, R203). -/
theorem decFrom_prefix (m : Memory) (e : Word) (cap : Nat) (t : Trie) (ps : List (Byte × List Bool)) (n : Nat) (pos : Word)
    (w w' : Writer) (hx : ∀ x ∈ ps, x ∈ t.paths) (he : pos.toNat + (ps.flatMap Prod.snd).length ≤ e.toNat)
    (hs : m.stream pos.toNat (ps.flatMap Prod.snd).length = ps.flatMap Prod.snd)
    (hw : wrSeq cap (ps.flatMap fun x => byteBits x.1) w = some w') :
    decFrom m e cap t (n + ps.length) pos w
      = decFrom m e cap t n (pos + BitVec.ofNat 32 (ps.flatMap Prod.snd).length) w' := by
  induction ps generalizing pos w with
  | nil =>
    simp only [List.flatMap_nil, wrSeq, Option.some.injEq] at hw
    simp [hw]
  | cons x ps ih =>
    simp only [List.flatMap_cons, List.length_append, stream_add] at he hs ⊢
    rw [List.flatMap_cons, wrSeq_append] at hw
    obtain ⟨w1, h1, h2⟩ := Option.bind_eq_some_iff.mp hw
    obtain ⟨s1, s2⟩ := List.append_inj hs (length_stream _ _ _)
    have hb := e.isLt
    have hq : (pos + BitVec.ofNat 32 x.2.length).toNat = pos.toNat + x.2.length := toNat_add_ofNat _ _ (by omega)
    have wd := walkDown_path m e t pos x (hx x List.mem_cons_self) s1 (by omega)
    have go := ih (pos + BitVec.ofNat 32 x.2.length) w1 (fun y hy => hx y (List.mem_cons_of_mem _ hy)) (by omega)
      (by rw [hq]; exact s2) h2
    have hwr : wrBits cap 8 x.1 w = some w1 := (wrBits_eq cap 8 x.1 w).trans h1
    rw [List.length_cons, ← Nat.add_assoc, decFrom]
    simp only [wd, hwr, go, add_ofNat_add]

/-- The state in which EXTRACT's TRIE_DESER body begins (46_orchestrator.md R222; 40_bitstream.md R118, R122). -/
def State.beforeTrie (s : State) : State :=
  { s with
    rdPos := 0
    rdEnd := 8 * s.inLen
    wrPos := 0
    valid := { s.valid with rd := true, wr := true, wrDumped := false } }

/-- EXTRACT past its IN_LEN check is the trie, the payload and the end of the buffer (46_orchestrator.md R222). -/
theorem exec_extract (s : State) (h : s.inLen.toNat ≤ s.params.inCap) :
    exec .extract s = ((trieDeserBody s.beforeTrie).andThen payloadDecBody |>.andThen wrDumpBody).finishWriter := by
  have hr : s.inLenInRange = true := decide_eq_true h
  simp only [exec, execExtract, guarded, List.all_nil, hr, if_true]
  rfl

end Sys2Proof.Machine
end

