-- ==== Sys2Proof/Laws/PerInstr.lean ====
section
/-! SUPPORT. What holds of every command as syntax, one lemma per constructor: its word has its reserved fields 0 and an
OPC of 30_encoding.md R95 (R91, R95). -/

namespace Sys2Proof

theorem fieldRsv0_packWord (opc n imm8 : _) : fieldRsv0 (packWord opc n imm8) = 0#4 := by
  apply BitVec.eq_of_getLsbD_eq
  intro i hi
  simp only [fieldRsv0, packWord, BitVec.getLsbD_extractLsb', BitVec.getLsbD_or, BitVec.getLsbD_shiftLeft,
    BitVec.getLsbD_setWidth, BitVec.getLsbD_zero]
  rw [BitVec.getLsbD_of_ge opc _ (by omega), BitVec.getLsbD_of_ge n _ (by omega)]
  simp only [show 12 + i < 16 by omega, decide_true, Bool.not_true, Bool.and_false, Bool.false_and, Bool.or_false]

theorem fieldRsv1_packWord (opc n imm8 : _) : fieldRsv1 (packWord opc n imm8) = 0#8 := by
  apply BitVec.eq_of_getLsbD_eq
  intro i hi
  simp only [fieldRsv1, packWord, BitVec.getLsbD_extractLsb', BitVec.getLsbD_or, BitVec.getLsbD_shiftLeft,
    BitVec.getLsbD_setWidth, BitVec.getLsbD_zero]
  rw [BitVec.getLsbD_of_ge opc _ (by omega), BitVec.getLsbD_of_ge n _ (by omega), BitVec.getLsbD_of_ge imm8 _ (by omega)]
  simp only [Bool.and_false, Bool.or_false]

theorem fieldOpc_packWord (opc n imm8 : _) : fieldOpc (packWord opc n imm8) = opc := by
  apply BitVec.eq_of_getLsbD_eq
  intro i hi
  simp only [fieldOpc, packWord, BitVec.getLsbD_extractLsb', BitVec.getLsbD_or, BitVec.getLsbD_shiftLeft,
    BitVec.getLsbD_setWidth, hi, Nat.zero_add, show i < 32 by omega, show i < 16 by omega, decide_true, Bool.not_true,
    Bool.true_and, Bool.false_and, Bool.and_false, Bool.or_false]

/-- The OPC values of 30_encoding.md R95. -/
def opcValues : List (BitVec 8) :=
  [0x10, 0x11, 0x12, 0x13, 0x20, 0x21, 0x22, 0x23, 0x24, 0x30, 0x40, 0x50, 0x51, 0x60, 0x70, 0x71, 0x80, 0x81]

theorem wordShape (opc n imm8 : _) (h : opc ∈ opcValues) :
    fieldRsv0 (packWord opc n imm8) = 0 ∧ fieldRsv1 (packWord opc n imm8) = 0
      ∧ fieldOpc (packWord opc n imm8) ∈ opcValues :=
  ⟨fieldRsv0_packWord _ _ _, fieldRsv1_packWord _ _ _, by rw [fieldOpc_packWord]; exact h⟩

namespace Laws.WordShape

/-- The word of a command has RSV0 = RSV1 = 0 and a defined OPC (30_encoding.md R91, R95). -/
def Statement (i : Instr) : Prop :=
  fieldRsv0 (encode i) = 0 ∧ fieldRsv1 (encode i) = 0 ∧ fieldOpc (encode i) ∈ opcValues

theorem rdInit : Statement .rdInit := wordShape _ _ _ (by decide)
theorem rdBit : Statement .rdBit := wordShape _ _ _ (by decide)
theorem rdBits (n : BitVec 4) : Statement (.rdBits n) := wordShape _ _ _ (by decide)
theorem rdU32be : Statement .rdU32be := wordShape _ _ _ (by decide)
theorem wrInit : Statement .wrInit := wordShape _ _ _ (by decide)
theorem wrBit (imm8 : Byte) : Statement (.wrBit imm8) := wordShape _ _ _ (by decide)
theorem wrBits (n : BitVec 4) (imm8 : Byte) : Statement (.wrBits n imm8) := wordShape _ _ _ (by decide)
theorem wrU32be : Statement .wrU32be := wordShape _ _ _ (by decide)
theorem wrDump : Statement .wrDump := wordShape _ _ _ (by decide)
theorem freqCount : Statement .freqCount := wordShape _ _ _ (by decide)
theorem trieBuild : Statement .trieBuild := wordShape _ _ _ (by decide)
theorem trieSer : Statement .trieSer := wordShape _ _ _ (by decide)
theorem trieDeser : Statement .trieDeser := wordShape _ _ _ (by decide)
theorem codeBuild : Statement .codeBuild := wordShape _ _ _ (by decide)
theorem payloadEnc : Statement .payloadEnc := wordShape _ _ _ (by decide)
theorem payloadDec : Statement .payloadDec := wordShape _ _ _ (by decide)
theorem compress : Statement .compress := wordShape _ _ _ (by decide)
theorem extract : Statement .extract := wordShape _ _ _ (by decide)

end Laws.WordShape

end Sys2Proof
end

