-- ==== Sys2Proof/Tests/Slice0.lean ====
section
/-! SUPPORT. The model's own tests: ill-formed terms refused, words written out from 30_encoding.md R96, vectors of
95_test_vectors.md, and a state that meets the hypotheses of each statement (and of each of its clauses). -/

namespace Sys2Proof.Tests
open Sys2Proof Sys2Proof.Machine

/-! ### Well-formedness: one ill-formed term for each check -/

theorem test_wf_rdBits_9 : (Instr.rdBits 9).wf = false := by decide
theorem test_wf_wrBits_15 : (Instr.wrBits 15 0).wf = false := by decide
theorem test_wf_rdBits_8 : (Instr.rdBits 8).wf = true := by decide
theorem test_wf_inCap_0 : { Params.default with inCap := 0 }.wf = false := by decide
theorem test_wf_inCap_over : { Params.default with inCap := 2 ^ 24 + 1 }.wf = false := by decide
theorem test_wf_outCap_0 : { Params.default with outCap := 0 }.wf = false := by decide
theorem test_wf_outCap_over : { Params.default with outCap := 2 ^ 24 + 1 }.wf = false := by decide
theorem test_wf_nodeCap_510 : { Params.default with nodeCap := 510 }.wf = false := by decide
theorem test_wf_nodeCap_2049 : { Params.default with nodeCap := 2049 }.wf = false := by decide
theorem test_wf_blockBase : { Params.default with blockBase := 0x800000 }.wf = false := by decide

/-! ### Decoding: each row's word, bit by bit from the patterns of 30_encoding.md R96 -/

theorem test_decode_rdInit : decode 0b00000000000000000000000000010000 = .ok .rdInit := by decide
theorem test_decode_rdBit : decode 0b00000000000000000000000000010001 = .ok .rdBit := by decide
theorem test_decode_rdBits_5 : decode 0b00000000000000000000010100010010 = .ok (.rdBits 5) := by decide
theorem test_decode_rdU32be : decode 0b00000000000000000000000000010011 = .ok .rdU32be := by decide
theorem test_decode_wrInit : decode 0b00000000000000000000000000100000 = .ok .wrInit := by decide
theorem test_decode_wrBit_xxxxxxx1 : decode 0b00000000101010110000000000100001 = .ok (.wrBit 0xAB) := by decide
theorem test_decode_wrBits_3_A5 : decode 0b00000000101001010000001100100010 = .ok (.wrBits 3 0xA5) := by decide
theorem test_decode_wrU32be : decode 0b00000000000000000000000000100011 = .ok .wrU32be := by decide
theorem test_decode_wrDump : decode 0b00000000000000000000000000100100 = .ok .wrDump := by decide
theorem test_decode_freqCount : decode 0b00000000000000000000000000110000 = .ok .freqCount := by decide
theorem test_decode_trieBuild : decode 0b00000000000000000000000001000000 = .ok .trieBuild := by decide
theorem test_decode_trieSer : decode 0b00000000000000000000000001010000 = .ok .trieSer := by decide
theorem test_decode_trieDeser : decode 0b00000000000000000000000001010001 = .ok .trieDeser := by decide
theorem test_decode_codeBuild : decode 0b00000000000000000000000001100000 = .ok .codeBuild := by decide
theorem test_decode_payloadEnc : decode 0b00000000000000000000000001110000 = .ok .payloadEnc := by decide
theorem test_decode_payloadDec : decode 0b00000000000000000000000001110001 = .ok .payloadDec := by decide
theorem test_decode_compress : decode 0b00000000000000000000000010000000 = .ok .compress := by decide
theorem test_decode_extract : decode 0b00000000000000000000000010000001 = .ok .extract := by decide

/-- Illegal words of V-ENC-1 with the model's names for the reasons. -/
theorem test_decode_illegal :
    [0x00000000, 0x00000810, 0x00010010, 0x00000912, 0x00000F12, 0x00001012, 0x01000012, 0x00000121, 0x00FF0922,
      0x00000025, 0x00000052, 0x00000082, 0x80000080, 0xFFFFFFFF].map decode
    = [.error .undefinedOpc, .error .strayOperand, .error .strayOperand, .error .countOver8, .error .countOver8,
      .error .reservedField, .error .reservedField, .error .strayOperand, .error .countOver8, .error .undefinedOpc,
      .error .undefinedOpc, .error .undefinedOpc, .error .reservedField, .error .undefinedOpc] := by decide

/-- V-ENC-2 and 30_encoding.md R100. -/
theorem test_assemble :
    [.rdBits 3, .wrBit 1, .wrBits 3 5, .wrBits 4 0xFF, .wrByte 0xA5, .rdSkip 4, .rdByte, .rdBits 9, .wrBit 2,
      .wrBits 3 256].map assemble
    = [some 0x00000312, some 0x00010021, some 0x00050322, some 0x00FF0422, some 0x00A50822, some 0x00000412,
      some 0x00000812, none, none, none] := by decide

/-! ### Small states -/

/-- A memory that holds the bytes `bs` from address 0. -/
def bytesAt0 (bs : List Byte) : Memory := ⟨bs.zipIdx.map fun x => (x.2, x.1), 0⟩

/-- The reset state after `LOADIN` of `bs` (30_encoding.md R102). -/
def loaded (bs : List Byte) : State :=
  { State.reset with inMem := bytesAt0 bs, inLen := BitVec.ofNat 32 bs.length }

/-- `loaded` after RD_INIT and the reads up to stream bit `p`, and after WR_INIT. -/
def reading (bs : List Byte) (p : Word) : State :=
  { loaded bs with
    rdPos := p
    rdEnd := BitVec.ofNat 32 (8 * bs.length)
    valid := ⟨false, false, false, true, true, false⟩ }

/-- A state in which WR_POS is `p` and OUT_MEM holds `bs`. -/
def writing (bs : List Byte) (p : Word) : State :=
  { State.reset with outMem := bytesAt0 bs, wrPos := p, valid := ⟨false, false, false, false, true, false⟩ }

/-- The state a command or a step goes on in. -/
def nextOf (o : Host.Outcome State Fault Refusal) : Option State :=
  match o with
  | .next t => some t
  | .fault _ => none
  | .refused _ => none

/-- What a test reads of an outcome. -/
def seen {α : Type} (o : Host.Outcome State Fault Refusal) (f : State → α) : Option α := (nextOf o).map f

/-- The bytes the writer has begun. -/
def outBytes (s : State) : List Byte := (List.range s.outLen).map s.outMem.read

def abracadabra : List Byte := [0x61, 0x62, 0x72, 0x61, 0x63, 0x61, 0x64, 0x61, 0x62, 0x72, 0x61]

/-- The arena of V-TB-1. -/
def abraNodes : List Node :=
  [.leaf 0x61 5, .leaf 0x62 2, .leaf 0x63 1, .leaf 0x64 1, .leaf 0x72 2, .internal 2 2 3, .internal 4 1 4,
   .internal 6 5 6, .internal 11 0 7]

/-- The state after V-TB-1, with an empty writer. -/
def built : State :=
  { loaded abracadabra with
    node := abraNodes
    nodeCount := 9
    root := 8
    valid := ⟨true, true, false, false, true, false⟩ }

/-- The arena and flags of V-TD-1, the reader at bit 19, an empty writer. -/
def readTrieAB (bs : List Byte) : State :=
  { reading bs 19 with
    node := [.internal 0 1 2, .leaf 0x61 0, .leaf 0x62 0]
    nodeCount := 3
    valid := ⟨false, true, false, true, true, false⟩ }

/-! ### Commands: vectors of 95_test_vectors.md -/

/-- V-RD-1. -/
theorem test_rdInit : seen (exec .rdInit (loaded [0xB5])) (fun t => (t.rdPos, t.rdEnd, t.valid.word, t.status.word))
    = some (0, 8, 0x08, 0x0002) := by decide

/-- V-RD-6: IN_RANGE changes only STATUS. -/
theorem test_rdInit_inRange : seen (exec .rdInit { State.reset with inLen := 65537 })
    (fun t => (t.rdEnd, t.valid.word, t.status.word)) = some (0, 0x00, 0x0406) := by decide

/-- V-RD-1. -/
theorem test_rdBit : seen (exec .rdBit (reading [0xB5] 0)) (fun t => (t.result, t.rdPos, t.status.word))
    = some (1, 1, 0x0002) := by decide

/-- V-RD-1: exhausted. -/
theorem test_rdBit_exhausted : seen (exec .rdBit (reading [0xB5] 8)) (fun t => (t.result, t.rdPos, t.status.word))
    = some (0, 8, 0x000A) := by decide

/-- V-RD-1. -/
theorem test_rdBits : seen (exec (.rdBits 3) (reading [0xB5] 1)) (fun t => (t.result, t.rdPos, t.status.word))
    = some (3, 4, 0x0002) := by decide

/-- V-RD-1: only 4 of 5 bits remain. -/
theorem test_rdBits_exhausted : seen (exec (.rdBits 5) (reading [0xB5] 4)) (fun t => (t.result, t.rdPos, t.status.word))
    = some (0, 8, 0x000A) := by decide

/-- V-RD-2: not byte-aligned. -/
theorem test_rdU32be : seen (exec .rdU32be (reading [0x12, 0x34, 0x56, 0x78, 0x9A] 4))
    (fun t => (t.result, t.rdPos, t.status.word)) = some (0x23456789, 36, 0x0002) := by decide

/-- V-RD-2: 4 of 32 bits remain. -/
theorem test_rdU32be_exhausted : seen (exec .rdU32be (reading [0x12, 0x34, 0x56, 0x78, 0x9A] 36))
    (fun t => (t.result, t.rdPos, t.status.word)) = some (0, 40, 0x000A) := by decide

/-- V-WR-1. -/
theorem test_wrInit : seen (exec .wrInit State.reset) (fun t => (t.wrPos, t.valid.word, t.status.word))
    = some (0, 0x10, 0x0002) := by decide

/-- V-WR-1: the byte is cleared when it is begun, IMM8[7:1] is don't-care. -/
theorem test_wrBit : seen (exec (.wrBit 0xFE) (writing [0xDD, 0xEA, 0xDB, 0xEE, 0xFF, 0x55] 40))
    (fun t => (outBytes t, t.wrPos)) = some ([0xDD, 0xEA, 0xDB, 0xEE, 0xFF, 0x00], 41) := by decide

/-- V-WR-1: no writer. -/
theorem test_wrBit_badState : seen (exec (.wrBit 1) State.reset) (fun t => (t.wrPos, t.status.word))
    = some (0, 0x0306) := by decide

/-- V-WR-1. -/
theorem test_wrBits : seen (exec (.wrBits 3 5) (writing [0x80] 1)) (fun t => (outBytes t, t.wrPos))
    = some ([0xD0], 4) := by decide

/-- V-WR-3, with OUT_CAP = 1: the second bit does not fit. -/
theorem test_wrBits_overflow :
    seen (exec (.wrBits 2 3) { writing [0xFE] 7 with params := { Params.default with outCap := 1 } })
      (fun t => (t.status.word, t.wrPos, t.outLen, t.valid.word)) = some (0x0506, 0, 0, 0x10) := by decide

/-- V-WR-1. -/
theorem test_wrU32be : seen (exec .wrU32be { writing [0xD0] 4 with arg := 0xDEADBEEF }) (fun t => (outBytes t, t.wrPos))
    = some ([0xDD, 0xEA, 0xDB, 0xEE, 0xF0], 36) := by decide

/-- V-WR-1. -/
theorem test_wrDump : seen (exec .wrDump (writing [0xDD] 5)) (fun t => (t.wrPos, t.valid.word, t.status.word))
    = some (5, 0x20, 0x0002) := by decide

/-- V-WR-1: single use. -/
theorem test_wrDump_twice : seen (exec .wrDump { writing [0xDD] 5 with valid := ⟨false, false, false, false, false, true⟩ })
    (fun t => (t.valid.word, t.status.word)) = some (0x20, 0x0306) := by decide

/-- V-FREQ-1. -/
theorem test_freqCount : seen (exec .freqCount (loaded abracadabra))
    (fun t => ([0x61, 0x62, 0x63, 0x64, 0x72, 0x65].map fun v => t.freqAt v, t.valid.word))
    = some ([5, 2, 1, 1, 2, 0], 0x01) := by decide +kernel

/-- V-TB-1, from the counters of V-FREQ-1. -/
theorem test_trieBuild :
    ((nextOf (exec .freqCount (loaded abracadabra))).bind fun t => seen (exec .trieBuild t)
      (fun u => (u.node, u.nodeCount, u.root, u.valid.word))) = some (abraNodes, 9, 8, 0x03) := by decide +kernel

/-- V-TB-2: the placeholder leaf of the empty input. -/
theorem test_trieBuild_empty :
    ((nextOf (exec .freqCount (loaded []))).bind fun t => seen (exec .trieBuild t)
      (fun u => (u.node, u.nodeCount, u.root))) = some ([.leaf 0 0], 1, 0) := by decide +kernel

/-- V-TS-1. -/
theorem test_trieSer : seen (exec .trieSer built) (fun t => (outBytes t, t.wrPos))
    = some ([0x58, 0x4B, 0x1D, 0x91, 0x62, 0xB9, 0x00], 49) := by decide +kernel

/-- V-TS-3: no trie. -/
theorem test_trieSer_badState : seen (exec .trieSer (writing [] 0)) (fun t => (t.wrPos, t.status.word))
    = some (0, 0x0306) := by decide

/-- V-TD-1. -/
theorem test_trieDeser : seen (exec .trieDeser (reading [0x58, 0x6C, 0x40] 0))
    (fun t => (t.node, t.rdPos, t.nodeCount, t.status.word))
    = some ([.internal 0 1 2, .leaf 0x61 0, .leaf 0x62 0], 19, 3, 0x0002) := by decide +kernel

/-- V-TD-2: eight internal tags, then exhaustion. -/
theorem test_trieDeser_corrupt : seen (exec .trieDeser (reading [0x00] 0))
    (fun t => (t.status.word, t.rdPos, t.nodeCount, t.valid.trie)) = some (0x010E, 8, 0, false) := by decide +kernel

/-- V-CB-1, seen through the CODE window at 0x3840, 0x38C0, 0x38C4, 0x3884 and 0x2000. -/
theorem test_codeBuild : seen (exec .codeBuild built)
    (fun t => [0x3840, 0x38C0, 0x38C4, 0x3884, 0x2000].map fun o => t.readCodeWindow o)
    = some [0x80000001, 0x80000003, 0x80000000, 0xC0000000, 0x00000000] := by decide +kernel

/-- V-PE-1. -/
theorem test_payloadEnc :
    ((nextOf (exec .codeBuild built)).bind fun t => seen (exec .payloadEnc t) (fun u => (outBytes u, u.wrPos)))
      = some ([0x00, 0x00, 0x00, 0x0B, 0x6E, 0x8A, 0xDC], 55) := by decide +kernel

/-- V-PE-2: "abz" with the codes of "abracadabra". -/
theorem test_payloadEnc_missing :
    ((nextOf (exec .codeBuild built)).bind fun t =>
      seen (exec .payloadEnc { t with inMem := bytesAt0 [0x61, 0x62, 0x7A], inLen := 3 })
        (fun u => (u.status.word, u.wrPos, u.valid.word))) = some (0x0806, 0, 0x17) := by decide +kernel

/-- V-PD-1. -/
theorem test_payloadDec :
    seen (exec .payloadDec (readTrieAB [0x58, 0x6C, 0x40, 0x00, 0x00, 0x00, 0x6C, 0x54]))
      (fun t => (outBytes t, t.rdPos, t.decLen, t.wrPos, t.status.word))
      = some ([0x61, 0x62, 0x62], 54, 3, 24, 0x0002) := by decide +kernel

/-- V-PD-3: the stream ends inside the length. -/
theorem test_payloadDec_corrupt : seen (exec .payloadDec (readTrieAB [0x58, 0x6C, 0x40, 0x00, 0x00]))
    (fun t => (t.status.word, t.rdPos, t.decLen, t.wrPos, t.valid.word)) = some (0x010E, 40, 0, 0, 0x1A) := by
  decide +kernel

/-- V-ORC-1. -/
theorem test_compress : seen (exec .compress (loaded abracadabra)) (fun t => (outBytes t, t.wrPos, t.valid.word))
    = some ([0x58, 0x4B, 0x1D, 0x91, 0x62, 0xB9, 0x00, 0x00, 0x00, 0x05, 0xB7, 0x45, 0x6E], 104, 0x27) := by
  decide +kernel

/-- V-ORC-3: the empty input. -/
theorem test_compress_empty : seen (exec .compress (loaded [])) (fun t => (outBytes t, t.wrPos))
    = some ([0x80, 0x00, 0x00, 0x00, 0x00, 0x00], 41) := by decide +kernel

/-- V-ORC-1, the way back. -/
theorem test_extract :
    seen (exec .extract (loaded [0x58, 0x4B, 0x1D, 0x91, 0x62, 0xB9, 0x00, 0x00, 0x00, 0x05, 0xB7, 0x45, 0x6E]))
      (fun t => (outBytes t, t.rdPos, t.decLen, t.valid.word)) = some (abracadabra, 104, 11, 0x2A) := by decide +kernel

/-- V-ORC-11: the empty input is CORRUPT_STREAM. -/
theorem test_extract_empty : seen (exec .extract (loaded [])) (fun t => (t.status.word, t.rdPos, t.valid.word))
    = some (0x010E, 0, 0x18) := by decide +kernel

/-! ### Host port and steps -/

/-- The reset state with host events. -/
def hosted (es : List HostEvent) : State := { State.reset with host := es }

/-- V-ENC-1, one word from reset: the illegal word 0 ends with ILLEGAL_CMD. -/
theorem test_step_illegal : seen (step (State.reset.withFetchWord 32 0)) (fun t => (t.status.word, t.cmd))
    = some (0x0206, 0) := by decide

/-- V-ENC-1, one word from reset: RD_BITS 8 decodes and finds no reader. -/
theorem test_step_rdBits : seen (step (State.reset.withFetchWord 32 0x812)) (fun t => (t.status.word, t.cmd))
    = some (0x0306, 0x812) := by decide

/-- Program P5: a CMD write while BUSY is dropped and sets OVR. -/
theorem test_busy_overrun :
    seen (step { hosted [.write .word 0x004 0x81] with
      cmd := 0x80, status := { State.reset.status with busy := true }, irqEn := ⟨false, true⟩ })
      (fun t => (t.cmd, t.status.word, t.irq)) = some (0x80, 0x0011, true) := by decide

/-- Little-endian lanes (20_memory.md R69; program P2: `ST.W 0x0100_0000, 0x0040_6C58`). -/
theorem test_inMem_write : seen (step (hosted [.write .word 0x01000000 0x00406C58]))
    (fun t => (List.range 4).map t.inMem.read) = some [0x58, 0x6C, 0x40, 0x00] := by decide

/-- Program P1: `LD.W 0x0200_0000` reads 0x911D_4B58. -/
theorem test_outMem_read :
    seen (step { writing [0x58, 0x4B, 0x1D, 0x91] 32 with host := [.read .word 0x02000000] }) (fun t => t.reply)
      = some (some ⟨.okay, some 0x911D4B58⟩) := by decide

/-- 20_memory.md R62 and R67: a byte access to a register, and an unmapped write. -/
theorem test_bus_errors :
    seen (step (hosted [.write .byte 0x00C 5])) (fun t => (t.reply, t.arg)) = some (some ⟨.slverr, none⟩, 0)
      ∧ seen (step (hosted [.write .word 0x00010000 5])) (fun t => t.reply) = some (some ⟨.decerr, none⟩) := by decide

/-- `CMD m` and `WAIT` of 30_encoding.md R102 as host events. -/
theorem test_program : programEvents 0 [.cmd (.rdBits 8), .wait, .wrU32 7, .loadIn [0x41]]
    = some [.write .word 0x004 0x812, .wait, .write .word 0x00C 7, .write .word 0x004 0x23,
      .write .byte 0x01000000 0x41, .write .word 0x014 1] := by decide

/-! ### States that meet the hypotheses of the statements

`full` holds a reader, an empty writer, the trie of V-TD-1 with its code table, and counters; `BLOCK_BASE` is not 0. A
witness of a statement about a next state shows that there is one. -/

/-- The trie of V-TD-1. -/
def trieAB : Trie := .node (.leaf 0x61) (.leaf 0x62)

def full : State :=
  { readTrieAB [0x58, 0x6C, 0x40, 0x00, 0x00, 0x00, 0x6C, 0x54] with
    params := { Params.default with inCap := 8, outCap := 8, blockBase := 0x40000000 }
    freq := (List.range 256).map fun v => if v = 0x61 then 1 else if v = 0x62 then 2 else 0
    code := (List.range 256).map fun v => trieAB.codeOf (BitVec.ofNat 8 v)
    outMem := bytesAt0 [1, 2, 3, 4, 5, 6, 7, 8]
    valid := ⟨true, true, true, true, true, false⟩ }

/-- `full` with BUSY and the host events given. -/
def fullWith (busy : Bool) (es : List HostEvent) : State :=
  { full with status := { full.status with busy := busy }, host := es }

theorem full_inv : full.Inv = true := by decide +kernel
theorem full_trie : full.trie? = some trieAB := by decide

theorem next_of_any (o : Host.Outcome State Fault Refusal) (p : State → Bool) (h : (nextOf o).any p = true) :
    ∃ t, o = .next t ∧ p t = true := by
  cases o with
  | next t => exact ⟨t, rfl, h⟩
  | fault f => exact nomatch h
  | refused r => exact nomatch h

/-! Encoding. -/

theorem witness_DecodeEncodeRoundTrip : (Instr.rdBits 8).wf = true ∧ (Instr.wrBits 8 0xFF).wf = true := by decide

theorem witness_EncodeOfDecodeIsTheWord : decode 0x00000812 = .ok (.rdBits 8) := by decide

/-- One word for each clause; the words next to them are legal. -/
theorem witness_IllegalWordsExactly :
    fieldOpc 0x25 = 0x25 ∧ fieldRsv0 0x1012 ≠ 0 ∧ fieldRsv1 0x01000012 ≠ 0 ∧ fieldN 0x0810 ≠ 0 ∧ fieldImm8 0x00010010 ≠ 0
      ∧ (fieldN 0x0912).toNat = 9 ∧ decode 0x0812 = .ok (.rdBits 8) ∧ decode 0x00FF0021 = .ok (.wrBit 0xFF) := by decide

theorem witness_DontCareBitsHaveNoEffect :
    (0x01 : Byte).getLsbD 0 = (0xFF : Byte).getLsbD 0
      ∧ ∀ j < (3 : BitVec 4).toNat, (0x05 : Byte).getLsbD j = (0xFD : Byte).getLsbD j := by decide

/-! Steps. -/

theorem witness_StepRunsDecodedCommand :
    (fullWith true []).status.busy = true ∧ decode { full with cmd := 0x20 }.cmd = .ok .wrInit
      ∧ (fullWith true []).host = [] ∧ (fullWith true [.coreTurn]).host = .coreTurn :: []
      ∧ (fullWith true [.wait]).host = .wait :: [] := by decide

/-- Each of the three turns, busy with an illegal word and idle. -/
theorem witness_IllegalWordAndIdleTurn :
    (fullWith true []).host = [] ∧ (fullWith true []).status.busy = true ∧ decode (fullWith true []).cmd = .error .undefinedOpc
      ∧ (fullWith true [.coreTurn]).host = .coreTurn :: [] ∧ (fullWith true [.wait]).host = .wait :: []
      ∧ (fullWith false []).host = [] ∧ (fullWith false []).status.busy = false
      ∧ (fullWith false [.coreTurn]).host = .coreTurn :: [] ∧ (fullWith false [.wait]).host = .wait :: [] := by decide

theorem witness_IssuedCommandCompletes :
    (fullWith true [.read .byte 0, .reset]).params.wf = true ∧ (fullWith true [.read .byte 0, .reset]).trieOk = true
      ∧ (fullWith true [.read .byte 0, .reset]).status.busy = true := by decide +kernel

/-! Host port. -/

theorem witness_IssueAcceptsCommand :
    (fullWith false [.write .word 0x40000004 0x80]).status.busy = false
      ∧ (fullWith false [.write .word 0x40000004 0x80]).host
        = .write .word ((fullWith false []).params.blockBase + 0x004) 0x80 :: [] := by decide

/-- The four kinds of clause of BusyWritesAreDropped, the last IN_MEM byte, the first and the last read-only offset. -/
theorem witness_BusyWritesAreDropped :
    (fullWith true [.write .word 0x40000014 7]).status.busy = true
      ∧ (fullWith true [.write .word 0x40000014 7]).host = .write .word (full.params.blockBase + 0x014) 7 :: []
      ∧ (7 < full.params.inCap ∧ 7 < 2 ^ 24 ∧ 7 % Size.byte.bytes = 0
        ∧ (fullWith true [.write .byte 0x41000007 7]).host
          = .write .byte (full.params.blockBase + 0x01000000 + BitVec.ofNat 32 7) 7 :: [])
      ∧ (fullWith true [.write .word 0x40000008 0x12]).host = .write .word (full.params.blockBase + 0x008) 0x12 :: []
      ∧ (fullWith true [.write .word 0x40000038 3]).host = .write .word (full.params.blockBase + 0x038) 3 :: []
      ∧ (0x40000000 - full.params.blockBase).toNat = 0 ∧ 0 ∉ [0x004, 0x008, 0x00C, 0x014, 0x038]
      ∧ (0x4000FFFC - full.params.blockBase).toNat = 0xFFFC ∧ 0xFFFC < 0x10000 ∧ 0xFFFC % 4 = 0
      ∧ (0x42FFFFFF - full.params.blockBase).toNat = 0x2FFFFFF ∧ 0x2FFFFFF % Size.byte.bytes = 0 := by decide

theorem witness_RegisterWritesTakeEffect :
    (fullWith false [.write .word 0x4000000C 7]).status.busy = false
      ∧ (fullWith false [.write .word 0x4000000C 7]).host = .write .word (full.params.blockBase + 0x00C) 7 :: []
      ∧ (fullWith false [.write .word 0x40000014 7]).host = .write .word (full.params.blockBase + 0x014) 7 :: []
      ∧ (fullWith false [.write .word 0x40000008 7]).host = .write .word (full.params.blockBase + 0x008) 7 :: []
      ∧ (fullWith false [.write .word 0x40000038 7]).host = .write .word (full.params.blockBase + 0x038) 7 :: [] := by
  decide

theorem witness_RegisterReadsGiveTheirValue :
    (fullWith true [.read .word 0x40000000]).host = .read .word (full.params.blockBase + 0x000) :: []
      ∧ (fullWith true [.read .word 0x40000044]).host = .read .word (full.params.blockBase + 0x044) :: []
      ∧ (fullWith false [.read .word 0x40000034]).status.busy = false
      ∧ (fullWith false [.read .word 0x40000034]).host = .read .word (full.params.blockBase + 0x034) :: []
      ∧ (fullWith false [.read .word 0x40000FFC]).host = .read .word (full.params.blockBase + BitVec.ofNat 32 0xFFC) :: []
      ∧ 0x048 ≤ 0xFFC ∧ 0xFFC < 0x1000 ∧ 0xFFC % 4 = 0 ∧ 0x048 % 4 = 0
      ∧ (fullWith true [.read .word 0x40001400]).host = .read .word (full.params.blockBase + BitVec.ofNat 32 0x1400) :: []
      ∧ (0x40007FFC : Word) = full.params.blockBase + BitVec.ofNat 32 0x7FFC ∧ 0x1400 % 4 = 0 ∧ 0x1FFC % 4 = 0
      ∧ 0x6000 % 4 = 0 ∧ 0x7FFC % 4 = 0 := by decide

theorem witness_HostReadChangesNothing :
    (fullWith true [.read .half 0x41000001]).host = .read .half 0x41000001 :: [] := by decide

/-- The boundary offsets of each clause. -/
theorem witness_BusErrorsChangeNothing :
    (0x4000FFFF - full.params.blockBase).toNat = 0xFFFF ∧ (Size.byte ≠ Size.word) ∧ 0xFFFF < 0x10000
      ∧ (0x41000001 - full.params.blockBase).toNat = 0x1000001 ∧ 0x1000001 % Size.half.bytes ≠ 0
      ∧ (0x40010000 - full.params.blockBase).toNat = 0x10000 ∧ (0x3FFFFFFF - full.params.blockBase).toNat = 0xFFFFFFFF
      ∧ (0x43000000 - full.params.blockBase).toNat = 0x3000000
      ∧ (0x42FFFFFE - full.params.blockBase).toNat = 0x2FFFFFE ∧ 0x2FFFFFE % Size.word.bytes ≠ 0
      ∧ (fullWith true [.write .word 0x42FFFFFE 1]).host = .write .word 0x42FFFFFE 1 :: [] := by decide

theorem witness_ReadOnlyWritesAreIgnored :
    (0x40001000 - full.params.blockBase).toNat = 0x1000 ∧ 0x1000 % 4 = 0 ∧ 0x1000 ∉ [0x004, 0x008, 0x00C, 0x014, 0x038]
      ∧ (0x42000000 - full.params.blockBase).toNat = 0x2000000 ∧ 0x2000000 % Size.word.bytes = 0
      ∧ (fullWith false [.write .word 0x40001000 1]).host = .write .word 0x40001000 1 :: [] := by decide

/-- The first byte, the last byte of IN_MEM's window, and a misaligned access. -/
theorem witness_InMemAccessesUseLittleEndianLanes :
    full.inMem.wf = true ∧ (fullWith false []).status.busy = false ∧ 0 % Size.word.bytes = 0
      ∧ (0x41000000 : Word) = full.params.blockBase + 0x01000000 + BitVec.ofNat 32 0
      ∧ (2 ^ 24 - 1) % Size.byte.bytes = 0
      ∧ (0x41FFFFFF : Word) = full.params.blockBase + 0x01000000 + BitVec.ofNat 32 (2 ^ 24 - 1)
      ∧ 2 % Size.word.bytes ≠ 0 := by decide

/-- Bytes below OUT_LEN, and bytes from OUT_CAP on. -/
theorem witness_OutMemReadsGiveBegunBytes :
    (fullWith false []).status.busy = false ∧ 4 % Size.half.bytes = 0 ∧ 4 + 1 < full.params.outCap
      ∧ 4 + 1 < ({ full with wrPos := 41 }.wrPos.toNat + 7) / 8 ∧ full.params.outCap ≤ 8 + 0
      ∧ (0x42000004 : Word) = full.params.blockBase + 0x02000000 + BitVec.ofNat 32 4 := by decide

/-- The last FREQ, CODE and NODE entries shown, the first NODE entry past NODE_CAP. -/
theorem witness_WindowReadsShowTheTables :
    full.valid.freq = true ∧ full.freq[255]? = some 0
      ∧ (0x400013FC : Word) = full.params.blockBase + 0x1000 + BitVec.ofNat 32 (4 * 255)
      ∧ full.valid.code = true ∧ full.code[0x62]? = some ⟨true, [true]⟩ ∧ [true].length ≤ 255
      ∧ (0x40003880 : Word) = full.params.blockBase + 0x2000 + BitVec.ofNat 32 (64 * 0x62 + 4 * 0)
      ∧ full.valid.trie = true ∧ 2 < full.params.nodeCap ∧ 2 < full.nodeCount.toNat ∧ full.node[2]? = some (.leaf 0x62 0)
      ∧ full.params.nodeCap ≤ 511 ∧ 511 < 2048 := by decide +kernel

theorem witness_InterruptFollowsStatus :
    (∃ t, step (fullWith true [.write .word (full.params.blockBase + 0x008) 0x12]) = .next t)
      ∧ (0x12 : Word).getLsbD 1 = true ∧ (0x12 : Word).getLsbD 4 = true
      ∧ (∃ t, step (fullWith true [.write .word (full.params.blockBase + 0x038) 0]) = .next t)
      ∧ (∃ t, step (fullWith false [.write .word (full.params.blockBase + 0x004) 0]) = .next t)
      ∧ (∃ t, step (fullWith true [.reset]) = .next t)
      ∧ (∃ t, exec .wrInit { full with irqEn := ⟨true, false⟩ } = .next t)
      ∧ (∃ t, step (fullWith true []) = .next t) ∧ decode (fullWith true []).cmd = .error .undefinedOpc :=
  ⟨⟨_, rfl⟩, by decide, by decide, ⟨_, rfl⟩, ⟨_, rfl⟩, ⟨_, rfl⟩, ⟨_, rfl⟩, ⟨_, rfl⟩, by decide⟩

theorem witness_ResetSetsEveryRegister : (fullWith true [.reset]).host = .reset :: [] := by decide

/-! What holds of every command. -/

theorem witness_ChecksComeFirst :
    (needs State.reset .trieSer).all id = false
      ∧ (needs { full with inLen := 9 } .payloadEnc).all id = true ∧ checksInLen .payloadEnc = true
      ∧ full.params.inCap < { full with inLen := 9 }.inLen.toNat := by decide

/-- Each kind of end that ErrorsAreThoseListed names. -/
theorem witness_ErrorsAreThoseListed :
    full.status.err = false ∧ full.status.errcode = .none
      ∧ (∃ t, exec .wrInit full = .next t ∧ decide (t.status.errcode = .none) = true)
      ∧ (∃ t, exec .trieSer State.reset = .next t ∧ decide (t.status.errcode = .badState) = true)
      ∧ (∃ t, exec .rdInit { full with inLen := 9 } = .next t ∧ decide (t.status.errcode = .inRange) = true)
      ∧ (∃ t, exec (.wrBit 1) { full with wrPos := 64 } = .next t ∧ decide (t.status.errcode = .outOverflow) = true) :=
  ⟨by decide, by decide, ⟨_, rfl, by decide⟩, ⟨_, rfl, by decide⟩, ⟨_, rfl, by decide⟩, ⟨_, rfl, by decide⟩⟩

theorem witness_CommandsKeepHostState : ∃ t, exec (.rdBits 8) full = .next t := ⟨_, rfl⟩

theorem witness_EachRegisterHasItsWriters :
    (∃ t, exec .wrInit full = .next t) ∧ writesWriter .rdBit = false ∧ ∃ t, exec .rdBit full = .next t :=
  ⟨⟨_, rfl⟩, rfl, ⟨_, rfl⟩⟩

theorem witness_ExecutionErrorEmptiesTheWriter :
    writesWriter (.wrBit 1) = true ∧ full.status.errcode = .none
      ∧ ∃ t, exec (.wrBit 1) { full with wrPos := 64 } = .next t
        ∧ decide (t.status.errcode ∈ executionErrors (.wrBit 1)) = true := ⟨by decide, by decide, _, rfl, by decide⟩

/-- TablesAfterAnError: TRIE_DESER and EXTRACT of a stream without a trie, EXTRACT of a payload that does not fit, a trie
deeper than 255 (next theorem), COMPRESS into one byte. -/
theorem witness_TablesAfterAnError :
    (∃ t, exec .trieDeser { full with rdPos := 64 } = .next t ∧ decide (t.status.errcode ∈ executionErrors .trieDeser) = true)
      ∧ (∃ t, exec .extract { full with inLen := 0 } = .next t ∧ decide (t.status.errcode = .corruptStream) = true)
      ∧ (∃ t, exec .extract { full with inLen := 8, params := { full.params with outCap := 2 } } = .next t
        ∧ decide (t.status.errcode = .outOverflow) = true)
      ∧ (∃ t, exec .compress { full with inLen := 2, params := { full.params with outCap := 1 } } = .next t
        ∧ decide (t.status.errcode = .outOverflow) = true) :=
  ⟨next_of_any _ _ (by decide +kernel), next_of_any _ _ (by decide +kernel), next_of_any _ _ (by decide +kernel),
    next_of_any _ _ (by decide +kernel)⟩

/-- A trie of 257 leaves, one of them at depth 256: more than CODE_MAX. -/
def deepTrie : Nat → Trie
  | 0 => .leaf 0
  | n + 1 => .node (.leaf 1) (deepTrie n)

/-- A state that holds the trie `t` in pre-order. -/
def holding (t : Trie) : State :=
  { full with
    params := { full.params with nodeCap := 2048 }
    node := t.preorder 0
    nodeCount := BitVec.ofNat 32 t.size
    root := 0 }

theorem holding_trie (t : Trie) : (holding t).trie? = some t := by
  have h := arenaVisit_preorder t (t.preorder 0).length (t.preorder 0) 0 (fun j _ => by rw [Nat.zero_add])
    (by rw [Trie.length_preorder]; exact t.depth_lt_size)
  exact h.2

theorem depth_deepTrie (n : Nat) : (deepTrie n).depth = n := by
  induction n with
  | zero => rfl
  | succ n ih => simp only [deepTrie, Trie.depth, ih]; omega

theorem tooDeep_errcode (s : State) (t : Trie) (hv : s.valid.trie = true) (ht : s.trie? = some t)
    (hd : Config.codeMax < t.depth) : ∃ u, exec .codeBuild s = .next u ∧ u.status.errcode = .codeTooLong := by
  have hw : walkCodes t [] absentCodes = none := walkCodes_deep t [] absentCodes (by simpa using hd)
  simp [exec, execCodeBuild, guarded, hv, codeBuildBody, ht, hw, Ran.finish, Status.completed, Status.failed]

theorem witness_CodeTooLong :
    (holding (deepTrie 256)).valid.trie = true ∧ 255 < (deepTrie 256).depth
      ∧ (holding (deepTrie 256)).trie? = some (deepTrie 256) ∧ (deepTrie 255).depth = 255
      ∧ ∃ t, exec .codeBuild (holding (deepTrie 256)) = .next t ∧ t.status.errcode = .codeTooLong :=
  ⟨rfl, by rw [depth_deepTrie]; decide, holding_trie _, depth_deepTrie 255,
    tooDeep_errcode _ _ rfl (holding_trie _) (by rw [depth_deepTrie]; decide)⟩

/-- NODE_OVERFLOW: an internal node where the arena has one node. -/
theorem witness_NodeOverflow :
    ∃ t, exec .extract { full with inLen := 8, params := { full.params with nodeCap := 1 } } = .next t
      ∧ decide (t.status.errcode = .nodeOverflow) = true := next_of_any _ _ (by decide +kernel)

theorem witness_CorruptStreamLeavesReaderAtEnd :
    full.status.errcode = .none
      ∧ ∃ t, exec .trieDeser { full with rdPos := 64 } = .next t ∧ decide (t.status.errcode = .corruptStream) = true :=
  ⟨by decide, next_of_any _ _ (by decide +kernel)⟩

/-! Reader commands: `full` has RD_POS 19 of RD_END 64. -/

theorem witness_RdInitStartsTheReader :
    full.params.inCap < { full with inLen := 9 }.inLen.toNat ∧ { full with inLen := 8 }.inLen.toNat ≤ full.params.inCap := by
  decide

theorem witness_RdBitReadsOneBit :
    State.reset.valid.rd = false ∧ full.valid.rd = true ∧ { full with rdPos := 63 }.rdPos ≠ full.rdEnd
      ∧ { full with rdPos := 64 }.rdPos = full.rdEnd := by decide

/-- Just enough bits, and one too few; no bits at the end; N = 9 is illegal. -/
theorem witness_RdBitsReadsNBits :
    (8 : BitVec 4).toNat ≤ 8 ∧ { full with rdPos := 56 }.rdPos.toNat + (8 : BitVec 4).toNat ≤ full.rdEnd.toNat
      ∧ { full with rdPos := 64 }.rdPos.toNat + (0 : BitVec 4).toNat ≤ full.rdEnd.toNat
      ∧ { full with rdPos := 57 }.rdPos.toNat ≤ full.rdEnd.toNat
      ∧ full.rdEnd.toNat < { full with rdPos := 57 }.rdPos.toNat + (8 : BitVec 4).toNat ∧ 8 < (9 : BitVec 4).toNat := by decide

theorem witness_RdU32beReadsBigEndian :
    { full with rdPos := 32 }.rdPos.toNat + 32 ≤ full.rdEnd.toNat ∧ { full with rdPos := 33 }.rdPos.toNat ≤ full.rdEnd.toNat
      ∧ full.rdEnd.toNat < { full with rdPos := 33 }.rdPos.toNat + 32 := by decide

/-! Writer commands: `full` has OUT_CAP 8. -/

theorem witness_WrBitAppendsOneBit :
    State.reset.valid.wr = false ∧ full.valid.wr = true ∧ full.params.wf = true ∧ full.outMem.wf = true
      ∧ { full with wrPos := 63 }.wrPos.toNat < 8 * full.params.outCap
      ∧ { full with wrPos := 64 }.wrPos.toNat = 8 * full.params.outCap := by decide

theorem witness_WrBitsAppendsNBits :
    (8 : BitVec 4).toNat ≤ 8 ∧ { full with wrPos := 56 }.wrPos.toNat + (8 : BitVec 4).toNat ≤ 8 * full.params.outCap
      ∧ { full with wrPos := 57 }.wrPos.toNat ≤ 8 * full.params.outCap
      ∧ 8 * full.params.outCap < { full with wrPos := 57 }.wrPos.toNat + (8 : BitVec 4).toNat ∧ 8 < (15 : BitVec 4).toNat := by
  decide

theorem witness_WrU32beAppendsArg :
    { full with wrPos := 32 }.wrPos.toNat + 32 ≤ 8 * full.params.outCap
      ∧ { full with wrPos := 33 }.wrPos.toNat ≤ 8 * full.params.outCap
      ∧ 8 * full.params.outCap < { full with wrPos := 33 }.wrPos.toNat + 32 := by decide

theorem witness_WrDumpFinishesTheBuffer : State.reset.valid.wr = false ∧ full.valid.wr = true := by decide

/-! Analyzer and builder. -/

theorem witness_FreqCountCountsTheInput :
    full.params.inCap < { full with inLen := 9 }.inLen.toNat ∧ { full with inLen := 8 }.inLen.toNat ≤ full.params.inCap := by
  decide

theorem witness_FrequenciesSumToInputLength :
    { full with inLen := 8 }.inLen.toNat ≤ full.params.inCap ∧ (∃ t, exec .freqCount { full with inLen := 8 } = .next t)
      ∧ ∃ t, exec .compress { full with inLen := 8 } = .next t ∧ t.status.done = true :=
  ⟨by decide, ⟨_, rfl⟩, next_of_any _ _ (by decide +kernel)⟩

/-- No counter set, one set, two set. -/
theorem witness_TrieBuildMakesATrie :
    State.reset.valid.freq = false ∧ full.valid.freq = true
      ∧ ((List.range 256).filter fun v => decide (full.freqAt v ≠ 0)).length = 2
      ∧ ((List.range 256).filter fun v => decide ({ full with freq := List.replicate 256 0 }.freqAt v ≠ 0)).length = 0 := by
  decide +kernel

theorem witness_TrieBuildMergesLeastPair :
    full.params.tiePolicy = .index ∧ full.valid.freq = true
      ∧ ∃ t, exec .trieBuild full = .next t ∧ decide (t.node[2]? = some (.internal 3 0 1)) = true :=
  ⟨rfl, rfl, next_of_any _ _ (by decide +kernel)⟩

theorem witness_TrieBuildConformsUnderAny :
    { full with params := { full.params with tiePolicy := .any } }.valid.freq = true
      ∧ ∃ t, exec .trieBuild full = .next t ∧ decide (t.node[2]? = some (.internal 3 0 1)) = true :=
  ⟨rfl, next_of_any _ _ (by decide +kernel)⟩

/-! Trie codec: 19 bits of trie. -/

theorem witness_TrieSerAppendsThePreorder :
    State.reset.valid.wr = false ∧ full.valid.trie = true ∧ full.trie? = some trieAB ∧ full.params.wf = true
      ∧ full.outMem.wf = true ∧ { full with wrPos := 45 }.wrPos.toNat + trieAB.bits.length ≤ 8 * full.params.outCap
      ∧ 8 * full.params.outCap < { full with wrPos := 46 }.wrPos.toNat + trieAB.bits.length
      ∧ { full with wrPos := 46 }.wrPos.toNat ≤ 8 * full.params.outCap := by decide

theorem witness_TrieDeserReadsThePreorder :
    State.reset.valid.rd = false ∧ full.valid.rd = true ∧ trieAB.size ≤ full.params.nodeCap
      ∧ { full with rdPos := 0 }.rdPos.toNat + trieAB.bits.length ≤ full.rdEnd.toNat
      ∧ full.inMem.stream 0 trieAB.bits.length = trieAB.bits := by decide

theorem bits_pos (t : Trie) : 9 ≤ t.bits.length := by
  have h := t.length_bits
  have := t.leaves_pos
  omega

/-- `full` with one node of arena, its reader at the internal node of bit 0, and `e` bits of stream. -/
def oneNode (e : Word) : State := { full with params := { full.params with nodeCap := 1 }, rdPos := 0, rdEnd := e }

theorem oneNode_noTrie (e : Word) : ¬ ∃ t : Trie, t.size ≤ (oneNode e).params.nodeCap
    ∧ (oneNode e).rdPos.toNat + t.bits.length ≤ (oneNode e).rdEnd.toNat
    ∧ (oneNode e).inMem.stream (oneNode e).rdPos.toNat t.bits.length = t.bits := by
  rintro ⟨t, h, -, hs⟩
  cases t with
  | leaf sym =>
    have h0 : (oneNode e).inMem.streamBit (oneNode e).rdPos.toNat = false := by
      show full.inMem.streamBit 0 = false
      decide
    simp only [Trie.bits, List.length_cons, stream_cons, h0, List.cons.injEq, Bool.false_eq_true, false_and] at hs
  | node l r =>
    have h1 : (Trie.node l r).size ≤ 1 := h
    have := l.size_eq; have := l.leaves_pos; have := r.size_eq; have := r.leaves_pos
    simp only [Trie.size] at h1
    omega

/-- No bit left; the tag bit of the second node just past the stream, and the last bit of it. -/
theorem witness_TrieDeserFailsOtherwise :
    full.valid.rd = true ∧ { full with rdPos := 64 }.rdPos.toNat ≤ full.rdEnd.toNat
      ∧ (¬ ∃ t : Trie, t.size ≤ full.params.nodeCap ∧ 64 + t.bits.length ≤ full.rdEnd.toNat
        ∧ full.inMem.stream 64 t.bits.length = t.bits)
      ∧ full.rdEnd.toNat ≤ full.inMem.tagPos 64 full.params.nodeCap
      ∧ (oneNode 1).rdEnd.toNat ≤ (oneNode 1).inMem.tagPos 0 1 ∧ (oneNode 2).inMem.tagPos 0 1 < (oneNode 2).rdEnd.toNat := by
  refine ⟨by decide, by decide, ?_, Nat.le_trans (by decide) (le_tagPos _ _ _), by decide, by decide⟩
  rintro ⟨t, -, h, -⟩
  have h64 : full.rdEnd.toNat = 64 := by decide
  have := bits_pos t
  omega

theorem witness_TrieSurvivesSerialization :
    full.valid.wr = true ∧ full.valid.trie = true ∧ full.trie? = some trieAB ∧ full.params.wf = true
      ∧ full.outMem.wf = true ∧ full.wrPos.toNat + trieAB.bits.length ≤ 8 * full.params.outCap
      ∧ (∃ u, exec .trieSer full = .next u ∧ decide ({ full with rdPos := 0 }.inMem.stream 0 trieAB.bits.length
          = u.outMem.stream full.wrPos.toNat trieAB.bits.length) = true)
      ∧ full.valid.rd = true ∧ trieAB.size ≤ full.params.nodeCap
      ∧ { full with rdPos := 0 }.rdPos.toNat + trieAB.bits.length ≤ full.rdEnd.toNat :=
  ⟨rfl, rfl, by decide, by decide, by decide, by decide, next_of_any _ _ (by decide +kernel), rfl, by decide, by decide⟩

/-! Code table. -/

theorem witness_CodeBuildStoresThePaths :
    State.reset.valid.trie = false ∧ full.valid.trie = true ∧ full.trie? = some trieAB ∧ trieAB.depth ≤ 255 := by decide

theorem witness_CodesArePrefixFree :
    full.trie? = some trieAB ∧ (trieAB.paths.map Prod.fst).Nodup ∧ full.valid.trie = true ∧ trieAB.depth ≤ 255
      ∧ 1 < trieAB.leaves
      ∧ ∃ u, exec .codeBuild full = .next u
        ∧ decide (u.code[0x61]? = some ⟨true, [false]⟩ ∧ u.code[0x62]? = some ⟨true, [true]⟩) = true :=
  ⟨by decide, by decide, rfl, by decide, by decide, next_of_any _ _ (by decide +kernel)⟩

/-! Payload codec. -/

/-- `full` with the input "ab" and then a byte without a code. -/
def encoding : State := { full with inMem := bytesAt0 [0x61, 0x62, 0x63, 0, 0, 0, 0, 0] }

/-- All bytes coded and fitting; the third byte has no code; the writer too full for the length. -/
theorem witness_PayloadEncAppendsLengthAndCodes :
    State.reset.valid.wr = false ∧ encoding.valid.code = true ∧ { encoding with inLen := 3 }.inLen.toNat ≤ encoding.params.inCap
      ∧ encoding.params.wf = true ∧ encoding.outMem.wf = true
      ∧ (∀ j < 2, (encoding.codeAt (encoding.inMem.read j).toNat).present = true)
      ∧ (encoding.codeAt (encoding.inMem.read 2).toNat).present = false
      ∧ { encoding with inLen := 2 }.inLen.toNat = 2
      ∧ (wordBits 2 ++ ((List.range 2).flatMap fun j => (encoding.codeAt (encoding.inMem.read j).toNat).bits)).length = 34
      ∧ { encoding with wrPos := 30 }.wrPos.toNat + 34 ≤ 8 * encoding.params.outCap
      ∧ 8 * encoding.params.outCap < { encoding with wrPos := 31 }.wrPos.toNat + 34 := by decide +kernel

/-- Length 3 and the paths of "abb" at bit 19. -/
theorem witness_PayloadDecDecodesTheSymbols :
    State.reset.valid.wr = false ∧ full.valid.wr = true ∧ full.valid.rd = true ∧ full.valid.trie = true
      ∧ full.trie? = some trieAB ∧ (∀ x ∈ [((0x61 : Byte), [false]), (0x62, [true]), (0x62, [true])], x ∈ trieAB.paths)
      ∧ full.rdPos.toNat + (wordBits 3 ++ [false, true, true]).length ≤ full.rdEnd.toNat
      ∧ full.inMem.stream full.rdPos.toNat (wordBits 3 ++ [false, true, true]).length = wordBits 3 ++ [false, true, true]
      ∧ { full with wrPos := 40 }.wrPos.toNat + 8 * 3 ≤ 8 * full.params.outCap := by decide

/-- The stream ends inside the length; after the symbols "abb" of a length 3 that ends one bit early; a third byte that
does not fit. -/
theorem witness_PayloadDecErrors :
    { full with rdPos := 33 }.rdPos.toNat ≤ full.rdEnd.toNat ∧ full.rdEnd.toNat < { full with rdPos := 33 }.rdPos.toNat + 32
      ∧ (∀ x ∈ [((0x61 : Byte), [false]), (0x62, [true])], x ∈ trieAB.paths) ∧ 2 < (3 : Word).toNat
      ∧ { full with rdEnd := 53 }.rdPos.toNat + (wordBits 3 ++ [false, true]).length ≤ { full with rdEnd := 53 }.rdEnd.toNat
      ∧ full.inMem.stream full.rdPos.toNat (wordBits 3 ++ [false, true]).length = wordBits 3 ++ [false, true]
      ∧ (∀ x ∈ trieAB.paths, ¬ (full.rdPos.toNat + (wordBits 3 ++ [false, true]).length + x.2.length
        ≤ { full with rdEnd := 53 }.rdEnd.toNat))
      ∧ { full with wrPos := 48 }.wrPos.toNat + 8 * (3 - 1) ≤ 8 * full.params.outCap
      ∧ 8 * full.params.outCap < { full with wrPos := 48 }.wrPos.toNat + 8 * 3 := by decide

/-! Orchestrator. -/

theorem witness_CompressWritesTheWireFormat :
    full.params.inCap < { full with inLen := 9 }.inLen.toNat ∧ full.params.wf = true ∧ full.outMem.wf = true
      ∧ { full with inLen := 1 }.inLen.toNat ≤ full.params.inCap
      ∧ (({ full with inLen := 1 }.inputTrie).any fun t =>
        decide (({ full with inLen := 1 }.wireBits t).length ≤ 8 * full.params.outCap)) = true
      ∧ (({ full with inLen := 3 }.inputTrie).any fun t =>
        decide (8 * full.params.outCap < ({ full with inLen := 3 }.wireBits t).length)) = true := by decide +kernel

theorem witness_ExtractDecodesTheWireFormat :
    full.params.inCap < { full with inLen := 9 }.inLen.toNat ∧ { full with inLen := 0 }.inLen = 0
      ∧ { full with inLen := 8 }.inLen.toNat ≤ full.params.inCap ∧ trieAB.size ≤ full.params.nodeCap
      ∧ 3 ≤ full.params.outCap
      ∧ (trieAB.bits ++ (wordBits 3 ++ [false, true, true])).length ≤ 8 * { full with inLen := 8 }.inLen.toNat
      ∧ full.inMem.stream 0 (trieAB.bits ++ (wordBits 3 ++ [false, true, true])).length
        = trieAB.bits ++ (wordBits 3 ++ [false, true, true]) := by decide

/-- 64 zero bytes: 512 internal nodes, one more than NODE_CAP. -/
def zeros : State :=
  { full with params := { full.params with inCap := 64 }, inMem := bytesAt0 (List.replicate 64 0), inLen := 64 }

theorem true_mem_bits (t : Trie) : true ∈ t.bits := by
  induction t with
  | leaf _ => exact List.mem_cons_self
  | node l r ihl _ => exact List.mem_cons_of_mem _ (List.mem_append_left _ ihl)

theorem zeros_read : ∀ k < 64, zeros.inMem.read k = 0 := by decide +kernel

theorem zeros_streamBit (i : Nat) (h : i < 512) : zeros.inMem.streamBit i = false := by
  rw [Memory.streamBit, zeros_read _ (by omega)]
  exact BitVec.getLsbD_zero

theorem zeros_tagPos (k p : Nat) (h : p + k ≤ 512) : zeros.inMem.tagPos p k = p + k := by
  induction k generalizing p with
  | zero => rfl
  | succ k ih => rw [Memory.tagPos, zeros_streamBit p (by omega), if_neg nofun, ih (p + 1) (by omega)]; omega

theorem zeros_noTrie : ¬ ∃ t : Trie, t.size ≤ zeros.params.nodeCap ∧ t.bits.length ≤ 8 * zeros.inLen.toNat
    ∧ zeros.inMem.stream 0 t.bits.length = t.bits := by
  rintro ⟨t, -, hl, hs⟩
  have hm := true_mem_bits t
  rw [← hs] at hm
  obtain ⟨i, hi, hb⟩ := List.mem_map.mp hm
  have h512 : 8 * zeros.inLen.toNat = 512 := by decide
  rw [List.mem_range] at hi
  rw [Nat.zero_add, zeros_streamBit i (by omega)] at hb
  exact nomatch hb

/-- `full` with a stream of `trieAB`, the length 15 and five symbols (V-PD of 95_test_vectors.md, `L = 0x0F`). -/
def shortWalk : State := { full with inMem := bytesAt0 [0x58, 0x6C, 0x40, 0x00, 0x00, 0x01, 0xFF, 0x00], inLen := 7 }

/-- The error clauses: 8 bits hold no trie; the arena is full; the stream ends inside the length, inside the sixth walk, and a
third byte does not fit. -/
theorem witness_ExtractErrors :
    { full with inLen := 1 }.inLen.toNat ≤ full.params.inCap
      ∧ (¬ ∃ t : Trie, t.size ≤ full.params.nodeCap ∧ t.bits.length ≤ 8 * { full with inLen := 1 }.inLen.toNat
        ∧ full.inMem.stream 0 t.bits.length = t.bits)
      ∧ 8 * { full with inLen := 1 }.inLen.toNat ≤ full.inMem.tagPos 0 full.params.nodeCap
      ∧ (zeros.params.wf = true ∧ zeros.inLen.toNat ≤ zeros.params.inCap)
      ∧ zeros.inMem.tagPos 0 zeros.params.nodeCap < 8 * zeros.inLen.toNat
      ∧ (trieAB.bits.length ≤ 8 * { full with inLen := 6 }.inLen.toNat
        ∧ 8 * { full with inLen := 6 }.inLen.toNat < trieAB.bits.length + 32)
      ∧ (shortWalk.inMem.stream 0 56 = trieAB.bits ++ (wordBits 15 ++ List.replicate 5 true)
        ∧ 5 < (15 : Word).toNat ∧ ∀ x ∈ trieAB.paths, ¬ 56 + x.2.length ≤ 8 * shortWalk.inLen.toNat)
      ∧ { full.params with outCap := 2 }.wf = true ∧ 3 = { full.params with outCap := 2 }.outCap + 1
      ∧ 3 ≤ (3 : Word).toNat := by
  refine ⟨by decide, ?_, Nat.le_trans (by decide) (le_tagPos _ _ _), by decide,
    by rw [zeros_tagPos _ _ (by decide)]; decide, by decide, by decide, by decide, by decide, by decide⟩
  rintro ⟨t, -, h, -⟩
  have h8 : 8 * { full with inLen := 1 }.inLen.toNat = 8 := by decide
  have := bits_pos t
  omega

/-- The block that extracts what COMPRESS of the input "X" made: a 9-bit trie, the length 1, 6 bytes. -/
def extracting (outCap : Nat) : State :=
  { full with
    inMem := bytesAt0 [0xAC, 0x00, 0x00, 0x00, 0x00, 0x80, 0, 0]
    inLen := 6
    params := { full.params with outCap := outCap } }

theorem witness_ExtractInvertsCompress :
    full.params.wf = true ∧ full.outMem.wf = true ∧ full.status.err = false
      ∧ { full with inLen := 1 }.inLen.toNat ≤ full.params.inCap
      ∧ (∃ t, exec .compress { full with inLen := 1 } = .next t ∧ decide (t.status.err = false
          ∧ (extracting 8).inLen.toNat = t.outLen ∧ t.outLen ≤ (extracting 8).params.inCap
          ∧ ∀ k < t.outLen, (extracting 8).inMem.read k = t.outMem.read k) = true)
      ∧ (extracting 8).params.wf = true ∧ (extracting 8).outMem.wf = true ∧ (extracting 8).status.err = false :=
  ⟨by decide, by decide, by decide, by decide, next_of_any _ _ (by decide +kernel), by decide, by decide, by decide⟩

/-! Invariants. -/

theorem witness_StepKeepsStatusConsistent :
    (fullWith true []).status.wf = true ∧ ∃ t, step (fullWith true []) = .next t := ⟨by decide, _, rfl⟩

theorem witness_StepKeepsCursorsAndMemories :
    (fullWith true []).cursorsOk = true ∧ (fullWith true []).memoriesOk = true ∧ (fullWith true []).bufferOk = true
      ∧ ∃ t, step (fullWith true []) = .next t := ⟨by decide, by decide, by decide, _, rfl⟩

theorem witness_StepKeepsValidTables :
    (fullWith true []).params.wf = true ∧ (fullWith true []).trieOk = true ∧ (fullWith true []).freqOk = true
      ∧ (fullWith true []).codeOk = true ∧ ∃ t, step (fullWith true []) = .next t :=
  ⟨by decide, by decide +kernel, by decide +kernel, by decide +kernel, _, rfl⟩

theorem witness_StepNeverStops : (fullWith true []).params.wf = true ∧ (fullWith true []).trieOk = true :=
  ⟨by decide, by decide +kernel⟩

end Sys2Proof.Tests
end

section
/-! SUPPORT. What a step, a command and a command's body can do, said once; every invariant of the steps is proved
through `StepInvariant.step`. -/

namespace Sys2Proof.Machine

/-! ### Ends of a body -/

/-- A body ends well in a state with `P`, or in an error (60_exceptions.md R245) that leaves a state with `Q`. -/
def Ran.Ends (P Q : State → Prop) : Ran → Prop
  | .ok s => P s
  | .error _ s => Q s
  | .stuck _ => True

theorem Ran.Ends.mono {P P' Q Q' : State → Prop} {r : Ran} (hr : r.Ends P Q) (hP : ∀ s, P s → P' s)
    (hQ : ∀ s, Q s → Q' s) : r.Ends P' Q' := by
  cases r with
  | ok s => exact hP s hr
  | error c s => exact hQ s hr
  | stuck f => trivial

/-- A body after a body (46_orchestrator.md R220, R222): an error of the first ends the command. -/
theorem Ran.Ends.andThen {P P' Q : State → Prop} {r : Ran} {k : State → Ran} (hr : r.Ends P Q)
    (hk : ∀ s, P s → (k s).Ends P' Q) : (r.andThen k).Ends P' Q := by
  cases r with
  | ok s => exact hk s hr
  | error c s => exact hr
  | stuck f => trivial

/-- A body that only writes bits (40_bitstream.md R123 to R125, 43_trie_codec.md R171). -/
theorem wrote_ends {P Q : State → Prop} (s : State) (w : Option Writer) (ok : ∀ w', w = some w' → P (s.setWriter w'))
    (error : Q s) : (s.wrote w).Ends P Q := by
  cases w with
  | none => exact error
  | some w' => exact ok w' rfl

/-! ### Readers stay in their stream (10_state.md R29) -/

theorem rdBit_le (m : Memory) (e pos : Word) (h : pos.toNat ≤ e.toNat) : (rdBit m e pos).2.toNat ≤ e.toNat := by
  by_cases hp : pos = e
  · subst hp; simp
  · have hlt : pos.toNat < e.toNat := lt_of_le_of_ne h fun h => hp (BitVec.eq_of_toNat_eq h)
    rw [rdBit_more m e pos hlt, toNat_add_one pos e hlt]
    exact hlt

theorem rdBitsFrom_le (m : Memory) (e : Word) (n : Nat) (v : Byte) (pos : Word) (h : pos.toNat ≤ e.toNat) :
    (rdBitsFrom m e n v pos).2.toNat ≤ e.toNat := by
  induction n generalizing v pos with
  | zero => exact h
  | succ n ih =>
    have h1 := rdBit_le m e pos h
    rw [rdBitsFrom]
    split
    · next p hb => rwa [hb] at h1
    · next b p hb => rw [hb] at h1; exact ih _ p h1

theorem rdBits_le (m : Memory) (e : Word) (n : Nat) (pos : Word) (h : pos.toNat ≤ e.toNat) :
    (rdBits m e n pos).2.toNat ≤ e.toNat :=
  rdBitsFrom_le m e n 0 pos h

theorem rdBytesFrom_le (m : Memory) (e : Word) (n : Nat) (v pos : Word) (h : pos.toNat ≤ e.toNat) :
    (rdBytesFrom m e n v pos).2.toNat ≤ e.toNat := by
  induction n generalizing v pos with
  | zero => exact h
  | succ n ih =>
    have h1 := rdBits_le m e 8 pos h
    rw [rdBytesFrom]
    split
    · next p hb => rwa [hb] at h1
    · next c p hb => rw [hb] at h1; exact ih _ p h1

theorem rdU32be_le (m : Memory) (e pos : Word) (h : pos.toNat ≤ e.toNat) : (rdU32be m e pos).2.toNat ≤ e.toNat :=
  rdBytesFrom_le m e 4 0 pos h

theorem walkDown_le (m : Memory) (e : Word) (t : Trie) (pos : Word) (h : pos.toNat ≤ e.toNat) :
    (walkDown m e t pos).2.toNat ≤ e.toNat := by
  induction t generalizing pos with
  | leaf sym => exact h
  | node l r ihl ihr =>
    have h1 := rdBit_le m e pos h
    rw [walkDown]
    split
    · next p hb => rwa [hb] at h1
    · next p hb => rw [hb] at h1; exact ihl p h1
    · next p hb => rw [hb] at h1; exact ihr p h1

/-- RD_POS where `des()` ends (43_trie_codec.md R172). -/
def Des.pos : Des → Word
  | .done _ pos => pos
  | .fail _ pos => pos

theorem desTrie_le (m : Memory) (e : Word) (cap depth cnt : Nat) (pos : Word) (h : pos.toNat ≤ e.toNat) :
    (desTrie m e cap depth cnt pos).pos.toNat ≤ e.toNat := by
  induction depth generalizing cnt pos with
  | zero => exact h
  | succ depth ih =>
    have h1 := rdBit_le m e pos h
    rw [desTrie]
    split
    · next p hb => rwa [hb] at h1
    · next t p hb =>
      rw [hb] at h1
      split
      · exact h1
      · split
        · have h8 := rdBits_le m e 8 p h1
          split
          · next p1 hs => rwa [hs] at h8
          · next sym p1 hs => rwa [hs] at h8
        · have hl := ih (cnt + 1) p h1
          split
          · next c p1 hd => rwa [hd] at hl
          · next ls p1 hd =>
            rw [hd] at hl
            have hr := ih (cnt + 1 + ls.length) p1 hl
            split
            · next c p2 hd2 => rwa [hd2] at hr
            · next rs p2 hd2 => rwa [hd2] at hr

/-- RD_POS where the decoding loop ends (45_payload_codec.md R202). -/
def Dec.pos : Dec → Word
  | .done pos _ => pos
  | .fail _ pos => pos

theorem decFrom_le (m : Memory) (e : Word) (cap : Nat) (t : Trie) (n : Nat) (pos : Word) (w : Writer)
    (h : pos.toNat ≤ e.toNat) : (decFrom m e cap t n pos w).pos.toNat ≤ e.toNat := by
  induction n generalizing pos w with
  | zero => exact h
  | succ n ih =>
    have h1 := walkDown_le m e t pos h
    rw [decFrom]
    split
    · next p hw => rwa [hw] at h1
    · next sym p hw =>
      rw [hw] at h1
      split
      · exact h1
      · exact ih p _ h1

/-! ### Loops only append bits, and `des()` only makes tries -/

/-- The encoding loop appends some bits (45_payload_codec.md R200). -/
theorem encFrom_done (m : Memory) (codeAt : Nat → CodeEntry) (cap n k : Nat) (w w' : Writer)
    (h : encFrom m codeAt cap n k w = .done w') : ∃ bs, wrSeq cap bs w = some w' := by
  induction n generalizing k w with
  | zero => exact ⟨[], congrArg some (Enc.done.inj h)⟩
  | succ n ih =>
    rw [encFrom] at h
    split at h
    · split at h
      · cases h
      · next w1 hw =>
        obtain ⟨bs, hbs⟩ := ih _ w1 h
        exact ⟨_ ++ bs, by rw [wrSeq_append, hw]; exact hbs⟩
    · cases h

/-- The decoding loop appends some bits (45_payload_codec.md R202). -/
theorem decFrom_done (m : Memory) (e : Word) (cap : Nat) (t : Trie) (n : Nat) (pos p : Word) (w w' : Writer)
    (h : decFrom m e cap t n pos w = .done p w') : ∃ bs, wrSeq cap bs w = some w' := by
  induction n generalizing pos w with
  | zero => exact ⟨[], congrArg some (Dec.done.inj h).2⟩
  | succ n ih =>
    rw [decFrom] at h
    split at h
    · cases h
    · next sym p1 _ =>
      split at h
      · cases h
      · next w1 hw =>
        obtain ⟨bs, hbs⟩ := ih p1 w1 h
        exact ⟨byteBits sym ++ bs, by rw [wrSeq_append, byteBits, ← wrBits_eq, hw]; exact hbs⟩

/-- What `des()` completes is a trie in pre-order within NODE_CAP, wherever the reader stands (43_trie_codec.md R172, R173). -/
theorem desTrie_done (m : Memory) (e : Word) (cap depth cnt : Nat) (pos p : Word) (ns : List Node) (hc : cnt ≤ cap)
    (h : desTrie m e cap depth cnt pos = .done ns p) : ∃ t : Trie, ns = t.preorder cnt ∧ cnt + t.size ≤ cap := by
  induction depth generalizing cnt pos p ns with
  | zero => cases h
  | succ depth ih =>
    rw [desTrie] at h
    split at h
    · cases h
    · split at h
      · cases h
      · next hne =>
        split at h
        · split at h
          · cases h
          · next sym p1 _ =>
            obtain ⟨rfl, -⟩ := Des.done.inj h
            exact ⟨.leaf sym, rfl, by simp only [Trie.size]; omega⟩
        · split at h
          · cases h
          · next ls p1 hl =>
            split at h
            · cases h
            · next rs p2 hr =>
              obtain ⟨rfl, -⟩ := Des.done.inj h
              obtain ⟨l, rfl, hlc⟩ := ih _ _ _ _ (by omega) hl
              rw [Trie.length_preorder] at hr
              obtain ⟨r, rfl, hrc⟩ := ih _ _ _ _ hlc hr
              exact ⟨.node l r, by simp [Trie.preorder], by simp only [Trie.size]; omega⟩

/-! ### What each body can end in -/

theorem wrBitBody_ends {P Q : State → Prop} (imm8 : Byte) (s : State)
    (ok : ∀ bs w, wrSeq s.params.outCap bs s.writer = some w → P (s.setWriter w)) (error : Q s) :
    (wrBitBody imm8 s).Ends P Q := by
  refine wrote_ends s _ (fun w hw => ok [operandBit imm8] w ?_) error
  simp only [wrSeq, hw]

theorem wrBitsBody_ends {P Q : State → Prop} (n : BitVec 4) (imm8 : Byte) (s : State)
    (ok : ∀ bs w, wrSeq s.params.outCap bs s.writer = some w → P (s.setWriter w)) (error : Q s) :
    (wrBitsBody n imm8 s).Ends P Q :=
  wrote_ends s _ (fun w hw => ok _ w ((wrBits_eq _ _ _ _).symm.trans hw)) error

theorem wrU32beBody_ends {P Q : State → Prop} (s : State)
    (ok : ∀ bs w, wrSeq s.params.outCap bs s.writer = some w → P (s.setWriter w)) (error : Q s) :
    (wrU32beBody s).Ends P Q :=
  wrote_ends s _ (fun w hw => ok _ w ((wrU32be_eq _ _ _).symm.trans hw)) error

theorem trieSerBody_ends {P Q : State → Prop} (s : State)
    (ok : ∀ bs w, wrSeq s.params.outCap bs s.writer = some w → P (s.setWriter w)) (error : Q s) :
    (trieSerBody s).Ends P Q := by
  unfold trieSerBody
  cases s.trie? with
  | none => trivial
  | some t => exact wrote_ends s _ (fun w hw => ok _ w ((serTrie_eq _ _ _).symm.trans hw)) error

theorem payloadEncBody_ends {P Q : State → Prop} (s : State)
    (ok : ∀ bs w, wrSeq s.params.outCap bs s.writer = some w → P (s.setWriter w)) (error : Q s) :
    (payloadEncBody s).Ends P Q := by
  unfold payloadEncBody
  split
  · exact error
  · next w hw =>
    split
    · exact error
    · next w1 he =>
      obtain ⟨bs, hbs⟩ := encFrom_done _ _ _ _ _ _ _ he
      refine ok (wordBits s.inLen ++ bs) w1 ?_
      rw [wrSeq_append, ← wrU32be_eq, hw]
      exact hbs

/-- PAYLOAD_DEC writes DEC_LEN, RD_POS, EXH and, when it succeeds, the writer (45_payload_codec.md R202). -/
theorem payloadDecBody_ends {P Q : State → Prop} (s : State)
    (ok : ∀ len pos bs w, wrSeq s.params.outCap bs s.writer = some w →
      (s.rdPos.toNat ≤ s.rdEnd.toNat → pos.toNat ≤ s.rdEnd.toNat) →
      P { s.setWriter w with decLen := len, rdPos := pos })
    (error : ∀ exh len pos, (s.rdPos.toNat ≤ s.rdEnd.toNat → pos.toNat ≤ s.rdEnd.toNat) →
      Q { s.noteExhausted exh with decLen := len, rdPos := pos }) :
    (payloadDecBody s).Ends P Q := by
  have hlen := rdU32be_le s.inMem s.rdEnd s.rdPos
  unfold payloadDecBody
  split
  · next p hr =>
    rw [hr] at hlen
    exact error _ _ _ hlen
  · next len p hr =>
    rw [hr] at hlen
    cases s.trie? with
    | none => trivial
    | some t =>
      have hdec h := decFrom_le s.inMem s.rdEnd s.params.outCap t len.toNat p s.writer (hlen h)
      dsimp only
      split
      · next c p1 hd =>
        rw [hd] at hdec
        exact error _ _ _ hdec
      · next p1 w hd =>
        rw [hd] at hdec
        obtain ⟨bs, hbs⟩ := decFrom_done _ _ _ _ _ _ _ _ _ hd
        exact ok _ _ bs w hbs hdec

/-- TRIE_DESER completes a trie in pre-order, or leaves no trie (43_trie_codec.md R172 to R174; 60_exceptions.md R247). -/
theorem trieDeserBody_ends {P Q : State → Prop} (s : State)
    (ok : ∀ (t : Trie) (pos : Word), t.size ≤ s.params.nodeCap →
      (s.rdPos.toNat ≤ s.rdEnd.toNat → pos.toNat ≤ s.rdEnd.toNat) →
      P { s with
        node := t.preorder 0
        nodeCount := BitVec.ofNat 32 t.size
        root := 0
        rdPos := pos
        valid := { s.valid with trie := true, code := false } })
    (error : ∀ exh pos, (s.rdPos.toNat ≤ s.rdEnd.toNat → pos.toNat ≤ s.rdEnd.toNat) →
      Q { s.beginTrie.noteExhausted exh with rdPos := pos }) :
    (trieDeserBody s).Ends P Q := by
  have hle := desTrie_le s.inMem s.rdEnd s.params.nodeCap (s.params.nodeCap + 1) 0 s.rdPos
  unfold trieDeserBody
  split
  · next c pos hd =>
    rw [hd] at hle
    exact error _ _ hle
  · next ns pos hd =>
    rw [hd] at hle
    obtain ⟨t, rfl, hsize⟩ := desTrie_done _ _ _ _ _ _ _ _ (Nat.zero_le _) hd
    rw [Trie.length_preorder]
    exact ok t pos (by omega) hle

/-- CODE_BUILD stores the code table of the current trie, or leaves no table (44_code_table.md R190 to R192). -/
theorem codeBuildBody_ends {P Q : State → Prop} (s : State)
    (ok : ∀ t : Trie, s.trie? = some t → t.depth ≤ Config.codeMax →
      P { s with
        code := (List.range 256).map fun v => t.codeOf (BitVec.ofNat 8 v)
        valid := { s.valid with code := true } })
    (error : Q { s with code := [], valid := { s.valid with code := false } }) :
    (codeBuildBody s).Ends P Q := by
  unfold codeBuildBody
  cases ht : s.trie? with
  | none => trivial
  | some t =>
    by_cases hd : t.depth ≤ Config.codeMax
    · simp only [walkCodes_codeOf t hd]
      exact ok t ht hd
    · simp only [walkCodes_deep t [] absentCodes (by simpa using hd)]
      exact error

/-! ### A command is a check line over a body -/

/-- The body each command runs past its checks. -/
def bodyOf : Instr → State → Ran
  | .rdInit => rdInitBody
  | .rdBit => rdBitBody
  | .rdBits n => rdBitsBody n
  | .rdU32be => rdU32beBody
  | .wrInit => wrInitBody
  | .wrBit imm8 => wrBitBody imm8
  | .wrBits n imm8 => wrBitsBody n imm8
  | .wrU32be => wrU32beBody
  | .wrDump => wrDumpBody
  | .freqCount => freqCountBody
  | .trieBuild => trieBuildBody
  | .trieSer => trieSerBody
  | .trieDeser => trieDeserBody
  | .codeBuild => codeBuildBody
  | .payloadEnc => payloadEncBody
  | .payloadDec => payloadDecBody
  | .compress => compressBody
  | .extract => extractBody

/-- What an execution error of a command does to the writer (60_exceptions.md R246). -/
def State.afterError (i : Instr) (s : State) : State := if writesWriter i then s.emptyWriter else s

/-- Every command checks the flags and the length of 60_exceptions.md R244, then runs its body (R249). -/
theorem exec_eq (i : Instr) (s : State) :
    exec i s = guarded s (needs s i) (!checksInLen i || s.inLenInRange)
      (if writesWriter i then (bodyOf i s).finishWriter else (bodyOf i s).finish) := by
  cases i <;> rfl

/-- Everything a command that answers a next state can have done (60_exceptions.md R241, R245, R246, R249). -/
theorem exec_next (i : Instr) (s t : State) (h : exec i s = .next t) :
    ((needs s i).all id = false ∧ t = s.raise .badState)
      ∨ ((needs s i).all id = true ∧ checksInLen i = true ∧ s.params.inCap < s.inLen.toNat ∧ t = s.raise .inRange)
      ∨ ((needs s i).all id = true ∧ (checksInLen i = true → s.inLen.toNat ≤ s.params.inCap)
        ∧ ((∃ u, bodyOf i s = .ok u ∧ t = u.complete) ∨ ∃ c u, bodyOf i s = .error c u ∧ t = (u.afterError i).raise c)) := by
  rw [exec_eq] at h
  rcases guarded_cases _ _ _ _ _ h with ⟨hf, hr, hb⟩ | ⟨hf, hb⟩ | ⟨hf, hr, hb⟩
  · refine .inr (.inr ⟨hf, fun hc => by simpa [hc, State.inLenInRange] using hr, ?_⟩)
    unfold State.afterError
    split at hb
    · next hw => simpa [hw] using finishWriter_next _ _ hb.symm
    · next hw => simpa [hw] using finish_next _ _ hb.symm
  · exact .inl ⟨hf, Host.Outcome.next.inj hb⟩
  · rw [Bool.or_eq_false_iff] at hr
    exact .inr (.inl ⟨hf, by simpa using hr.1, by simpa [State.inLenInRange] using hr.2, Host.Outcome.next.inj hb⟩)

/-! ### A step is a move of the host or of the Core -/

/-- The Core's turn (60_exceptions.md R241, R261). -/
theorem coreTurn_cases (s : State) :
    coreTurn s = .moved s ∨ coreTurn s = .moved (s.raise .illegalCmd) ∨ ∃ i, coreTurn s = .run i s := by
  unfold coreTurn
  split
  · split
    · next i _ => exact .inr (.inr ⟨i, rfl⟩)
    · exact .inr (.inl rfl)
  · exact .inl rfl

/-- Every turn takes at most one event off the list of host moves and is an access, RESET or the Core's. -/
theorem turn_cases (s : State) : ∃ rest u, u = { s with host := rest }
    ∧ ((∃ size addr, turn s = .moved (u.hostRead size addr)) ∨ (∃ size addr v, turn s = .moved (u.hostWrite size addr v))
      ∨ turn s = .moved u.applyReset ∨ turn s = coreTurn u) := by
  unfold turn
  split
  · exact ⟨s.host, s, rfl, .inr (.inr (.inr rfl))⟩
  · next size addr rest _ => exact ⟨rest, _, rfl, .inl ⟨size, addr, rfl⟩⟩
  · next size addr v rest _ => exact ⟨rest, _, rfl, .inr (.inl ⟨size, addr, v, rfl⟩)⟩
  · next rest _ => exact ⟨rest, _, rfl, .inr (.inr (.inl rfl))⟩
  · next rest _ => exact ⟨rest, _, rfl, .inr (.inr (.inr rfl))⟩
  · next rest _ =>
    split
    · exact ⟨s.host, s, rfl, .inr (.inr (.inr rfl))⟩
    · exact ⟨rest, _, rfl, .inl ⟨_, _, rfl⟩⟩

theorem step_moved {s u : State} (h : turn s = .moved u) : step s = .next u := by
  rw [step, h]

theorem step_run {s u : State} {i : Instr} (h : turn s = .run i u) : step s = exec i u := by
  rw [step, h]

/-- Everything a step that answers a next state can be. -/
theorem step_next (s t : State) (h : step s = .next t) : ∃ rest u, u = { s with host := rest }
    ∧ ((∃ size addr, t = u.hostRead size addr) ∨ (∃ size addr v, t = u.hostWrite size addr v) ∨ t = u.applyReset
      ∨ t = u ∨ t = u.raise .illegalCmd ∨ ∃ i, exec i u = .next t) := by
  have moved {u} (hm : turn s = .moved u) : t = u := Host.Outcome.next.inj (h.symm.trans (step_moved hm))
  obtain ⟨rest, u, hu, ⟨size, addr, hm⟩ | ⟨size, addr, v, hm⟩ | hm | hm⟩ := turn_cases s
  · exact ⟨rest, u, hu, .inl ⟨size, addr, moved hm⟩⟩
  · exact ⟨rest, u, hu, .inr (.inl ⟨size, addr, v, moved hm⟩)⟩
  · exact ⟨rest, u, hu, .inr (.inr (.inl (moved hm)))⟩
  · refine ⟨rest, u, hu, .inr (.inr (.inr ?_))⟩
    rcases coreTurn_cases u with hc | hc | ⟨i, hc⟩
    · exact .inl (moved (hm.trans hc))
    · exact .inr (.inl (moved (hm.trans hc)))
    · exact .inr (.inr ⟨i, (step_run (hm.trans hc)).symm.trans h⟩)

/-- An accepted write stores into IN_MEM, or leaves all but CMD, STATUS, ARG, IN_LEN and IRQ_EN (20_memory.md R63 to R65,
R82). -/
theorem State.writeData_cases (s : State) (size : Size) (off : Nat) (v : Word) :
    (∃ k n, s.writeData size off v = { s with inMem := storeIn s.params.inCap v k n s.inMem })
      ∨ ∃ cmd status arg inLen irqEn, s.writeData size off v =
        { s with cmd := cmd, status := status, arg := arg, inLen := inLen, irqEn := irqEn } := by
  unfold State.writeData
  split
  · right
    unfold State.writeReg
    repeat' split
    all_goals exact ⟨_, _, _, _, _, rfl⟩
  · split
    · right
      unfold State.dropInWrite
      split <;> exact ⟨_, _, _, _, _, rfl⟩
    · exact .inl ⟨_, _, rfl⟩
  all_goals exact .inr ⟨_, _, _, _, _, rfl⟩

/-- A host write is answered, with or without its effect (20_memory.md R62, R67, R68). -/
theorem State.hostWrite_cases (s : State) (size : Size) (addr v : Word) :
    ∃ r, s.hostWrite size addr v = s.answered r
      ∨ s.hostWrite size addr v = (s.writeData size (s.offset addr) v).answered r := by
  unfold State.hostWrite
  split
  · exact ⟨_, .inr rfl⟩
  · exact ⟨_, .inl rfl⟩
  · exact ⟨_, .inl rfl⟩

/-! ### Invariants of the steps -/

/-- What makes `P` an invariant of every step: each move of the host and each part of the life of a command keeps it. -/
structure StepInvariant (P : State → Prop) : Prop where
  host : ∀ s rest, P s → P { s with host := rest }
  answered : ∀ s r, P s → P (s.answered r)
  write : ∀ s size off v, P s → P (s.writeData size off v)
  reset : ∀ s, P s → P s.applyReset
  raise : ∀ s c, P s → P (s.raise c)
  complete : ∀ s, P s → P s.complete
  emptyWriter : ∀ s, P s → P s.emptyWriter
  body : ∀ i s, P s → (needs s i).all id = true → (checksInLen i = true → s.inLen.toNat ≤ s.params.inCap) →
    (bodyOf i s).Ends P P

theorem StepInvariant.exec {P : State → Prop} (hP : StepInvariant P) (i : Instr) (s t : State) (hs : P s)
    (h : exec i s = .next t) : P t := by
  rcases exec_next i s t h with ⟨-, rfl⟩ | ⟨-, -, -, rfl⟩ | ⟨hf, hr, hb⟩
  · exact hP.raise s _ hs
  · exact hP.raise s _ hs
  · have hbody := hP.body i s hs hf hr
    rcases hb with ⟨u, hu, rfl⟩ | ⟨c, u, hu, rfl⟩
    · rw [hu] at hbody
      exact hP.complete u hbody
    · rw [hu] at hbody
      refine hP.raise _ c ?_
      unfold State.afterError
      split
      · exact hP.emptyWriter u hbody
      · exact hbody

theorem StepInvariant.step {P : State → Prop} (hP : StepInvariant P) (s t : State) (hs : P s)
    (h : step s = .next t) : P t := by
  obtain ⟨rest, u, hu, hc⟩ := step_next s t h
  have hPu : P u := hu ▸ hP.host s rest hs
  rcases hc with ⟨size, addr, rfl⟩ | ⟨size, addr, v, rfl⟩ | rfl | rfl | rfl | ⟨i, hi⟩
  · exact hP.answered u _ hPu
  · obtain ⟨r, hr | hr⟩ := u.hostWrite_cases size addr v
    · exact hr ▸ hP.answered u r hPu
    · exact hr ▸ hP.answered _ r (hP.write u size _ v hPu)
  · exact hP.reset u hPu
  · exact hPu
  · exact hP.raise u _ hPu
  · exact hP.exec i u t hPu hi

end Sys2Proof.Machine
end

section
/-! PROOFS. Every step keeps the cursors, the memories and the padding (10_state.md R29, R30, R42, R43; 40_bitstream.md R116). -/

namespace Sys2Proof.Machine

/-- A writer inside a buffer of `cap` bytes, whose begun bytes are defined and padded with 0 (10_state.md R30, R43;
40_bitstream.md R116). -/
structure Writer.Ok (cap : Nat) (w : Writer) : Prop where
  pos : w.pos.toNat ≤ 8 * cap
  wf : w.mem.wf = true
  below : w.mem.below cap = true
  begun : ∀ k < (w.pos.toNat + 7) / 8, (cellsFind w.mem.cells k).isSome
  padding : ∀ q, w.pos.toNat ≤ q → q < 8 * ((w.pos.toNat + 7) / 8) → w.mem.streamBit q = false

/-- A writer at its start has begun no byte (40_bitstream.md R122). -/
theorem Writer.ok_start (cap : Nat) (m : Memory) (hwf : m.wf = true) (hbelow : m.below cap = true) :
    Writer.Ok cap ⟨0, m⟩ where
  pos := Nat.zero_le _
  wf := hwf
  below := hbelow
  begun := fun k hk => by simp at hk
  padding := fun q _ hq => by simp at hq

/-- Whatever bits the writer takes, it stays inside its buffer, its bytes defined and its padding 0 (40_bitstream.md R113, R116). -/
theorem Writer.Ok.wrSeq {cap : Nat} {w w' : Writer} (h : w.Ok cap) (hcap : 8 * cap < 2 ^ 32) (bs : List Bool)
    (hw : wrSeq cap bs w = some w') : w'.Ok cap := by
  have hfit : w.pos.toNat + bs.length ≤ 8 * cap := by
    by_contra hover
    rw [wrSeq_over cap bs w hcap h.pos (by omega)] at hw
    cases hw
  obtain ⟨w1, hw1, -, hpos, hwf, hbelow, ⟨-, -, -, hpad⟩, -, hbegun⟩ := wrSeq_fits cap bs w hcap h.wf hfit
  obtain rfl : w1 = w' := Option.some.inj (hw1.symm.trans hw)
  rw [← hpos] at hpad
  refine ⟨by omega, hwf, hbelow h.below, fun k hk => hbegun k ?_, hpad h.padding⟩
  by_cases hold : k < (w.pos.toNat + 7) / 8
  · exact .inr (h.begun k hold)
  · refine .inl ⟨by omega, by omega, ?_⟩
    rintro rfl
    rw [List.length_nil] at hpos
    omega

/-- The ranges of the parameters (00_scope.md R7). -/
theorem Params.wf_iff (p : Params) : p.wf = true ↔ 1 ≤ p.inCap ∧ p.inCap ≤ 2 ^ 24 ∧ 1 ≤ p.outCap ∧ p.outCap ≤ 2 ^ 24
    ∧ 511 ≤ p.nodeCap ∧ p.nodeCap ≤ 2048 ∧ p.blockBase.toNat % 2 ^ 24 = 0 := by
  simp only [Params.wf, Bool.and_eq_true, decide_eq_true_eq, and_assoc]

/-- The cursors are in their streams, the memories canonical and in their capacities, the padding 0. -/
def State.streamsOk (s : State) : Prop := s.cursorsOk = true ∧ s.memoriesOk = true ∧ s.bufferOk = true

theorem State.streamsOk_iff (s : State) : s.streamsOk ↔ s.params.wf = true ∧ s.rdPos.toNat ≤ s.rdEnd.toNat
    ∧ s.rdEnd.toNat ≤ 8 * s.params.inCap ∧ s.inMem.wf = true ∧ s.inMem.below s.params.inCap = true
    ∧ s.writer.Ok s.params.outCap := by
  simp only [State.streamsOk, State.cursorsOk, State.memoriesOk, State.bufferOk, State.outLen, Bool.and_eq_true,
    decide_eq_true_eq, List.all_eq_true, List.mem_range, Bool.not_eq_true', and_assoc]
  constructor
  · rintro ⟨hp, hrd, hend, hpos, hiwf, hibelow, howf, hobelow, hbegun, hpad⟩
    refine ⟨hp, hrd, hend, hiwf, hibelow, hpos, howf, hobelow, hbegun, fun q hle hlt => ?_⟩
    simp only [State.writer_pos, State.writer_mem] at hle hlt ⊢
    have := hpad (q - s.wrPos.toNat) (by omega)
    rwa [Nat.add_sub_cancel' hle] at this
  · rintro ⟨hp, hrd, hend, hiwf, hibelow, ⟨hpos, howf, hobelow, hbegun, hpad⟩⟩
    refine ⟨hp, hrd, hend, hpos, hiwf, hibelow, howf, hobelow, hbegun, fun i hi => ?_⟩
    exact hpad _ (Nat.le_add_right _ _) (by simp only [State.writer_pos]; omega)

/-! ### What each body leaves -/

/-- Moving the reader inside its stream keeps the streams (10_state.md R29). -/
theorem State.streamsOk.moveReader {s : State} (h : s.streamsOk) (pos : Word)
    (hpos : s.rdPos.toNat ≤ s.rdEnd.toNat → pos.toNat ≤ s.rdEnd.toNat) : State.streamsOk { s with rdPos := pos } := by
  rw [State.streamsOk_iff] at h ⊢
  obtain ⟨hp, hrd, hrest⟩ := h
  exact ⟨hp, hpos hrd, hrest⟩

/-- Appending bits keeps the streams (40_bitstream.md R113, R116). -/
theorem State.streamsOk.append {s : State} (h : s.streamsOk) (bs : List Bool) (w : Writer)
    (hw : wrSeq s.params.outCap bs s.writer = some w) : (s.setWriter w).streamsOk := by
  rw [State.streamsOk_iff] at h ⊢
  obtain ⟨hp, hrd, hend, hwf, hbelow, hwr⟩ := h
  obtain ⟨-, -, -, hcap, -⟩ := (Params.wf_iff _).mp hp
  exact ⟨hp, hrd, hend, hwf, hbelow, hwr.wrSeq (by omega) bs hw⟩

/-- RD_INIT puts the reader at the start of an input inside IN_MEM (40_bitstream.md R118). -/
theorem State.streamsOk.rdInit {s : State} (h : s.streamsOk) (hlen : s.inLen.toNat ≤ s.params.inCap) :
    (rdInitBody s).Ends State.streamsOk State.streamsOk := by
  rw [State.streamsOk_iff] at h
  obtain ⟨hp, -, -, hrest⟩ := h
  obtain ⟨-, hcap, -⟩ := (Params.wf_iff _).mp hp
  refine (State.streamsOk_iff _).mpr ⟨hp, Nat.zero_le _, ?_, hrest⟩
  show (8 * s.inLen).toNat ≤ 8 * s.params.inCap
  rw [BitVec.toNat_mul, show (8 : Word).toNat = 8 from rfl, Nat.mod_eq_of_lt (by omega)]
  omega

/-- WR_INIT puts the writer at its start (40_bitstream.md R122). -/
theorem State.streamsOk.wrInit {s : State} (h : s.streamsOk) :
    (wrInitBody s).Ends State.streamsOk State.streamsOk := by
  rw [State.streamsOk_iff] at h
  obtain ⟨hp, hrd, hend, hwf, hbelow, hwr⟩ := h
  exact (State.streamsOk_iff _).mpr ⟨hp, hrd, hend, hwf, hbelow, Writer.ok_start _ _ hwr.wf hwr.below⟩

theorem State.streamsOk.trieDeser {s : State} (h : s.streamsOk) :
    (trieDeserBody s).Ends State.streamsOk State.streamsOk :=
  trieDeserBody_ends s (fun _ pos _ hpos => h.moveReader pos hpos) fun _ pos hpos => h.moveReader pos hpos

theorem State.streamsOk.payloadDec {s : State} (h : s.streamsOk) :
    (payloadDecBody s).Ends State.streamsOk State.streamsOk :=
  payloadDecBody_ends s (fun _ pos bs w hw hpos => (h.append bs w hw).moveReader pos hpos)
    fun _ _ pos hpos => h.moveReader pos hpos

theorem State.streamsOk.codeBuild {s : State} (h : s.streamsOk) :
    (codeBuildBody s).Ends State.streamsOk State.streamsOk :=
  codeBuildBody_ends s (fun _ _ _ => h) h

/-- COMPRESS moves only the writer (46_orchestrator.md R220). -/
theorem State.streamsOk.compress {s : State} (h : s.streamsOk) :
    (compressBody s).Ends State.streamsOk State.streamsOk := by
  have counts : (freqCountBody s).Ends State.streamsOk State.streamsOk := h
  have trie := counts.andThen (P' := State.streamsOk) (k := trieBuildBody) fun _ h => h
  have code := trie.andThen fun _ h => h.codeBuild
  have start := code.andThen fun _ h => h.wrInit
  have ser := start.andThen fun u h => trieSerBody_ends u h.append h
  have payload := ser.andThen fun u h => payloadEncBody_ends u h.append h
  exact payload.andThen (k := wrDumpBody) fun _ h => h

/-- EXTRACT moves the reader over its input and the writer (46_orchestrator.md R222). -/
theorem State.streamsOk.extract {s : State} (h : s.streamsOk) (hlen : s.inLen.toNat ≤ s.params.inCap) :
    (extractBody s).Ends State.streamsOk State.streamsOk := by
  have start := (h.rdInit hlen).andThen fun _ h => h.wrInit
  have trie := start.andThen fun _ h => h.trieDeser
  have payload := trie.andThen fun _ h => h.payloadDec
  exact payload.andThen (k := wrDumpBody) fun _ h => h

theorem State.streamsOk.body (i : Instr) {s : State} (h : s.streamsOk)
    (hlen : checksInLen i = true → s.inLen.toNat ≤ s.params.inCap) :
    (bodyOf i s).Ends State.streamsOk State.streamsOk := by
  cases i with
  | rdInit => exact h.rdInit (hlen rfl)
  | rdBit => exact h.moveReader _ (rdBit_le s.inMem s.rdEnd s.rdPos)
  | rdBits n => exact h.moveReader _ (rdBits_le s.inMem s.rdEnd (operandCount n) s.rdPos)
  | rdU32be => exact h.moveReader _ (rdU32be_le s.inMem s.rdEnd s.rdPos)
  | wrInit => exact h.wrInit
  | wrBit imm8 => exact wrBitBody_ends imm8 s h.append h
  | wrBits n imm8 => exact wrBitsBody_ends n imm8 s h.append h
  | wrU32be => exact wrU32beBody_ends s h.append h
  | wrDump => exact h
  | freqCount => exact h
  | trieBuild => exact h
  | trieSer => exact trieSerBody_ends s h.append h
  | trieDeser => exact h.trieDeser
  | codeBuild => exact h.codeBuild
  | payloadEnc => exact payloadEncBody_ends s h.append h
  | payloadDec => exact h.payloadDec
  | compress => exact h.compress
  | extract => exact h.extract (hlen rfl)

/-! ### What the host's moves leave -/

/-- A host store stays in IN_MEM (20_memory.md R64); every other write leaves cursors and memories. -/
theorem State.streamsOk.write {s : State} (h : s.streamsOk) (size : Size) (off : Nat) (v : Word) :
    (s.writeData size off v).streamsOk := by
  rcases s.writeData_cases size off v with ⟨k, n, hw⟩ | ⟨_, _, _, _, _, hw⟩
  · rw [hw]
    rw [State.streamsOk_iff] at h ⊢
    obtain ⟨hp, hrd, hend, hwf, hbelow, hwr⟩ := h
    exact ⟨hp, hrd, hend, storeIn_wf _ _ _ _ _ hwf, storeIn_below _ _ _ _ _ hbelow, hwr⟩
  · exact hw ▸ h

/-- RESET empties both memories and puts every cursor at 0 (70_reset_and_hazards.md R280, R281). -/
theorem State.streamsOk_applyReset (s : State) (hp : s.params.wf = true) : s.applyReset.streamsOk :=
  (State.streamsOk_iff _).mpr ⟨hp, Nat.zero_le _, Nat.zero_le _, rfl, rfl, Writer.ok_start _ _ rfl rfl⟩

/-- The writer emptied after an error is at its start (60_exceptions.md R246). -/
theorem State.streamsOk.emptyWriter {s : State} (h : s.streamsOk) : s.emptyWriter.streamsOk := by
  rw [State.streamsOk_iff] at h ⊢
  obtain ⟨hp, hrd, hend, hwf, hbelow, -⟩ := h
  exact ⟨hp, hrd, hend, hwf, hbelow, Writer.ok_start _ _ rfl rfl⟩

theorem stepInvariant_streamsOk : StepInvariant State.streamsOk where
  host := fun _ _ h => h
  answered := fun _ _ h => h
  write := fun _ size off v h => h.write size off v
  reset := fun s h => s.streamsOk_applyReset (s.streamsOk_iff.mp h).1
  raise := fun _ _ h => h
  complete := fun _ h => h
  emptyWriter := fun _ h => h.emptyWriter
  body := fun i _ h _ hlen => h.body i hlen

/-- Settles O58: the ranges, canonical forms and zero padding are an invariant of the steps. -/
theorem stepKeepsCursorsAndMemories : Obligations.StepKeepsCursorsAndMemories :=
  fun s t hc hm hb h => stepInvariant_streamsOk.step s t ⟨hc, hm, hb⟩ h

end Sys2Proof.Machine
end

section
/-! PROOFS. Every step keeps what the valid flags promise (10_state.md R31, R41; 42_trie_builder.md R158; 43_trie_codec.md
R173). -/

namespace Sys2Proof.Machine

/-! ### The arena -/

/-- An arena all of whose indices are met once below `root` is a trie (10_state.md R33, R41). -/
theorem State.arenaOk_of_visit (s : State) (is : List Nat) (hv : arenaVisit s.node.length s.node s.root.toNat = some is)
    (hp : is.Perm (List.range s.node.length)) (hcount : s.nodeCount = BitVec.ofNat 32 s.node.length)
    (hcap : s.node.length ≤ s.params.nodeCap) (hwf : s.params.wf = true) : s.arenaOk = true := by
  obtain ⟨-, -, -, -, -, h2048, -⟩ := (Params.wf_iff _).mp hwf
  have hnodup : is.Nodup := hp.nodup_iff.mpr List.nodup_range
  have hlen : is.length = s.node.length := hp.length_eq.trans List.length_range
  have hnat : s.nodeCount.toNat = s.node.length := by
    rw [hcount, BitVec.toNat_ofNat, Nat.mod_eq_of_lt (by omega)]
  simp only [State.arenaOk, hv, hnodup, hlen, hnat, hcap, decide_true, Bool.and_self]

/-- The arena the builder makes is a trie below its last node (42_trie_builder.md R157, R158). -/
theorem arenaOk_trieBuild (s u : State) (hu : trieBuildBody s = .ok u) (hwf : s.params.wf = true) : u.arenaOk = true := by
  obtain rfl := Ran.ok.inj hu
  obtain ⟨is, hv, hp, -, h511⟩ := buildArena_trie s.params s.draws s.freqAt
  obtain ⟨-, -, -, -, hcap, -⟩ := (Params.wf_iff _).mp hwf
  refine State.arenaOk_of_visit _ is ?_ hp rfl (h511.trans hcap) hwf
  dsimp only
  rwa [BitVec.toNat_ofNat, Nat.mod_eq_of_lt (by omega)]

/-- A pre-order arena is a trie below its first node (43_trie_codec.md R173). -/
theorem State.arenaOk_preorder (s : State) (t : Trie) (hnode : s.node = t.preorder 0) (hroot : s.root = 0)
    (hcount : s.nodeCount = BitVec.ofNat 32 t.size) (hcap : t.size ≤ s.params.nodeCap) (hwf : s.params.wf = true) :
    s.arenaOk = true := by
  have hlen : s.node.length = t.size := by rw [hnode, Trie.length_preorder]
  obtain ⟨hvisit, -⟩ := arenaVisit_preorder t s.node.length s.node 0 (fun j _ => by rw [hnode, Nat.zero_add])
    (hlen ▸ t.depth_lt_size)
  refine s.arenaOk_of_visit _ (by rw [hroot]; exact hvisit) ?_ (hlen ▸ hcount) (hlen ▸ hcap) hwf
  rw [hlen, List.range_eq_range']

/-! ### The counters -/

/-- One more byte counts at most 1 (41_frequency.md R140). -/
theorem sum_bumpCount (t : List Word) (b : Byte) :
    ((bumpCount t b).map BitVec.toNat).sum ≤ (t.map BitVec.toNat).sum + 1 := by
  have bump : ∀ (l : List Word) (i : Nat),
      ((l.modify i (· + 1)).map BitVec.toNat).sum ≤ (l.map BitVec.toNat).sum + 1 := by
    intro l
    induction l with
    | nil => intro i; simp
    | cons c l ih =>
      intro i
      cases i with
      | zero =>
        have hc : (c + 1).toNat ≤ c.toNat + 1 := by
          rw [BitVec.toNat_add]
          exact Nat.mod_le _ _
        simp only [List.modify_zero_cons, List.map_cons, List.sum_cons]
        omega
      | succ i =>
        have := ih i
        simp only [List.modify_succ_cons, List.map_cons, List.sum_cons]
        omega
  exact bump t b.toNat

/-- Counting `n` bytes keeps the table's length and adds at most `n` (41_frequency.md R140, R141). -/
theorem countFrom_bounds (m : Memory) (n k : Nat) (t : List Word) :
    (countFrom m n k t).length = t.length
      ∧ ((countFrom m n k t).map BitVec.toNat).sum ≤ (t.map BitVec.toNat).sum + n := by
  induction n generalizing k t with
  | zero => exact ⟨rfl, Nat.le_refl _⟩
  | succ n ih =>
    obtain ⟨hlen, hsum⟩ := ih (k + 1) (bumpCount t (m.read k))
    have := sum_bumpCount t (m.read k)
    exact ⟨hlen.trans (List.length_modify ..), by rw [countFrom]; omega⟩

/-- FREQ_COUNT's table holds the counts of an input inside IN_MEM (41_frequency.md R141). -/
theorem freqOk_freqCount (s u : State) (hu : freqCountBody s = .ok u) (hlen : s.inLen.toNat ≤ s.params.inCap) :
    u.freqOk = true := by
  obtain rfl := Ran.ok.inj hu
  obtain ⟨hl, hs⟩ := countFrom_bounds s.inMem s.inLen.toNat 0 zeroCounts
  have h0 : (zeroCounts.map BitVec.toNat).sum = 0 := by
    rw [zeroCounts, List.map_replicate, List.sum_replicate]
    rfl
  have h256 : zeroCounts.length = 256 := List.length_replicate
  have hsum : ((countFrom s.inMem s.inLen.toNat 0 zeroCounts).map BitVec.toNat).sum ≤ s.params.inCap := by omega
  simp [State.freqOk, hl, h256, hsum]

/-! ### The tables -/

/-- Each valid flag tells the truth, under the parameters `p`. -/
def State.tablesOk (p : Params) (s : State) : Prop :=
  s.params = p ∧ s.trieOk = true ∧ s.freqOk = true ∧ s.codeOk = true

theorem State.trieOk_iff (s : State) : s.trieOk = true ↔ (s.valid.trie = true → s.arenaOk = true) := by
  cases h : s.valid.trie <;> simp [State.trieOk, h]

/-- FREQ is new, the other tables stay (41_frequency.md R140). -/
theorem State.tablesOk.freqCount {p : Params} {s : State} (h : s.tablesOk p) (hlen : s.inLen.toNat ≤ s.params.inCap) :
    (freqCountBody s).Ends (State.tablesOk p) (State.tablesOk p) := by
  obtain ⟨hparams, htrie, -, hcode⟩ := h
  exact ⟨hparams, htrie, freqOk_freqCount s _ rfl hlen, hcode⟩

/-- The trie is new and CODE, the table of the old one, no longer valid (42_trie_builder.md R150). -/
theorem State.tablesOk.trieBuild {p : Params} {s : State} (h : s.tablesOk p) (hp : p.wf = true) :
    (trieBuildBody s).Ends (fun u => u.tablesOk p ∧ u.valid.trie = true) (State.tablesOk p) := by
  obtain ⟨rfl, -, hfreq, -⟩ := h
  exact ⟨⟨rfl, (State.trieOk_iff _).mpr fun _ => arenaOk_trieBuild s _ rfl hp, hfreq, rfl⟩, rfl⟩

theorem State.tablesOk.trieDeser {p : Params} {s : State} (h : s.tablesOk p) (hp : p.wf = true) :
    (trieDeserBody s).Ends (State.tablesOk p) (State.tablesOk p) := by
  obtain ⟨rfl, -, hfreq, -⟩ := h
  refine trieDeserBody_ends s (fun t pos hsize _ => ⟨rfl, (State.trieOk_iff _).mpr fun _ => ?_, hfreq, rfl⟩)
    fun _ _ _ => ⟨rfl, rfl, hfreq, rfl⟩
  exact State.arenaOk_preorder _ t rfl rfl rfl hsize hp

/-- CODE is the code table of the trie TRIE_VALID promises (44_code_table.md R190 to R192). -/
theorem State.tablesOk.codeBuild {p : Params} {s : State} (h : s.tablesOk p) (hv : s.valid.trie = true) :
    (codeBuildBody s).Ends (State.tablesOk p) (State.tablesOk p) := by
  obtain ⟨hparams, htrie, hfreq, -⟩ := h
  refine codeBuildBody_ends s (fun t ht hd => ⟨hparams, htrie, hfreq, ?_⟩) ⟨hparams, htrie, hfreq, rfl⟩
  have ht' : readTrie s.node.length s.node s.root.toNat = some t := ht
  simp [State.codeOk, State.trie?, ht', hv, hd]

/-- A body that writes only the writer keeps every table. -/
theorem State.tablesOk.setWriter {p : Params} {s : State} (h : s.tablesOk p) (bs : List Bool) (w : Writer)
    (_ : wrSeq s.params.outCap bs s.writer = some w) : (s.setWriter w).tablesOk p :=
  h

theorem State.tablesOk.payloadDec {p : Params} {s : State} (h : s.tablesOk p) :
    (payloadDecBody s).Ends (State.tablesOk p) (State.tablesOk p) :=
  payloadDecBody_ends s (fun _ _ _ _ _ _ => h)
    fun _ _ _ _ => h

theorem State.tablesOk.compress {p : Params} {s : State} (h : s.tablesOk p) (hp : p.wf = true)
    (hlen : s.inLen.toNat ≤ s.params.inCap) : (compressBody s).Ends (State.tablesOk p) (State.tablesOk p) := by
  have trie := (h.freqCount hlen).andThen fun _ h => h.trieBuild hp
  have code := trie.andThen fun _ h => h.1.codeBuild h.2
  have start := code.andThen (P' := State.tablesOk p) (k := wrInitBody) fun _ h => h
  have ser := start.andThen fun u h => trieSerBody_ends u h.setWriter h
  have payload := ser.andThen fun u h => payloadEncBody_ends u h.setWriter h
  exact payload.andThen (k := wrDumpBody) fun _ h => h

theorem State.tablesOk.extract {p : Params} {s : State} (h : s.tablesOk p) (hp : p.wf = true) :
    (extractBody s).Ends (State.tablesOk p) (State.tablesOk p) := by
  have reader : (rdInitBody s).Ends (State.tablesOk p) (State.tablesOk p) := h
  have start := reader.andThen (P' := State.tablesOk p) (k := wrInitBody) fun _ h => h
  have trie := start.andThen fun _ h => h.trieDeser hp
  have payload := trie.andThen fun _ h => h.payloadDec
  exact payload.andThen (k := wrDumpBody) fun _ h => h

theorem State.tablesOk.body (i : Instr) {p : Params} {s : State} (h : s.tablesOk p) (hp : p.wf = true)
    (hneeds : (needs s i).all id = true) (hlen : checksInLen i = true → s.inLen.toNat ≤ s.params.inCap) :
    (bodyOf i s).Ends (State.tablesOk p) (State.tablesOk p) := by
  cases i with
  | rdInit => exact h
  | rdBit => exact h
  | rdBits n => exact h
  | rdU32be => exact h
  | wrInit => exact h
  | wrBit imm8 => exact wrBitBody_ends imm8 s h.setWriter h
  | wrBits n imm8 => exact wrBitsBody_ends n imm8 s h.setWriter h
  | wrU32be => exact wrU32beBody_ends s h.setWriter h
  | wrDump => exact h
  | freqCount => exact h.freqCount (hlen rfl)
  | trieBuild => exact (h.trieBuild hp).1
  | trieSer => exact trieSerBody_ends s h.setWriter h
  | trieDeser => exact h.trieDeser hp
  | codeBuild => exact h.codeBuild (by simpa [needs] using hneeds)
  | payloadEnc => exact payloadEncBody_ends s h.setWriter h
  | payloadDec => exact h.payloadDec
  | compress => exact h.compress hp (hlen rfl)
  | extract => exact h.extract hp

/-- No host write reaches a table (20_memory.md R63). -/
theorem State.tablesOk.write {p : Params} {s : State} (h : s.tablesOk p) (size : Size) (off : Nat) (v : Word) :
    (s.writeData size off v).tablesOk p := by
  rcases s.writeData_cases size off v with ⟨_, _, hw⟩ | ⟨_, _, _, _, _, hw⟩
  · exact hw ▸ h
  · exact hw ▸ h

theorem stepInvariant_tablesOk (p : Params) (hp : p.wf = true) : StepInvariant (State.tablesOk p) where
  host := fun _ _ h => h
  answered := fun _ _ h => h
  write := fun _ size off v h => h.write size off v
  reset := fun _ ⟨hparams, _⟩ => ⟨hparams, rfl, rfl, rfl⟩
  raise := fun _ _ h => h
  complete := fun _ h => h
  emptyWriter := fun _ h => h
  body := fun i _ h hneeds hlen => h.body i hp hneeds hlen

/-- Settles O59: that each valid flag tells the truth, under the same parameters, is an invariant of the steps. -/
theorem stepKeepsValidTables : Obligations.StepKeepsValidTables :=
  fun s t hp htrie hfreq hcode h => (stepInvariant_tablesOk s.params hp).step s t ⟨rfl, htrie, hfreq, hcode⟩ h

end Sys2Proof.Machine
end

section
/-! PROOFS. Which commands write which state (10_state.md R26, R29, R31 to R33, R38 to R40, R43). -/

namespace Sys2Proof.Machine

/-- From `s` to `u` only state that command `i` may write has changed. -/
def WritesOnly (i : Instr) (s u : State) : Prop :=
  ((∀ n, i ≠ .rdBits n) → i ≠ .rdBit → i ≠ .rdU32be → u.result = s.result)
    ∧ (i ≠ .freqCount → i ≠ .compress → u.freq = s.freq ∧ u.valid.freq = s.valid.freq)
    ∧ (i ≠ .codeBuild → i ≠ .compress → u.code = s.code)
    ∧ (i ≠ .trieBuild → i ≠ .trieDeser → i ≠ .compress → i ≠ .extract →
        u.node = s.node ∧ u.nodeCount = s.nodeCount ∧ u.root = s.root ∧ u.valid.trie = s.valid.trie)
    ∧ (i ≠ .rdInit → i ≠ .extract → u.rdEnd = s.rdEnd ∧ u.valid.rd = s.valid.rd)
    ∧ (i ≠ .payloadDec → i ≠ .extract → u.decLen = s.decLen)
    ∧ (writesWriter i = false → u.outMem = s.outMem)

theorem WritesOnly.refl (i : Instr) (s : State) : WritesOnly i s s := by
  simp [WritesOnly]

theorem WritesOnly.trans {i : Instr} {s u v : State} (h1 : WritesOnly i s u) (h2 : WritesOnly i u v) :
    WritesOnly i s v := by
  obtain ⟨r1, f1, c1, n1, e1, d1, o1⟩ := h1
  obtain ⟨r2, f2, c2, n2, e2, d2, o2⟩ := h2
  refine ⟨fun a b c => (r2 a b c).trans (r1 a b c), fun a b => ?_, fun a b => (c2 a b).trans (c1 a b), fun a b c d => ?_,
    fun a b => ?_, fun a b => (d2 a b).trans (d1 a b), fun a => (o2 a).trans (o1 a)⟩
  · exact ⟨(f2 a b).1.trans (f1 a b).1, (f2 a b).2.trans (f1 a b).2⟩
  · obtain ⟨n1, c1, r1, v1⟩ := n1 a b c d
    obtain ⟨n2, c2, r2, v2⟩ := n2 a b c d
    exact ⟨n2.trans n1, c2.trans c1, r2.trans r1, v2.trans v1⟩
  · exact ⟨(e2 a b).1.trans (e1 a b).1, (e2 a b).2.trans (e1 a b).2⟩

/-- Writing the writer is allowed to every command of R246's list, and to no other. -/
theorem WritesOnly.setWriter {i : Instr} (hi : writesWriter i = true) (s : State) (bs : List Bool) (w : Writer)
    (_ : wrSeq s.params.outCap bs s.writer = some w) : WritesOnly i s (s.setWriter w) := by
  simp [WritesOnly, State.setWriter, hi]

/-- The body of a command that is no composition writes only state of its command, ending well or in an error. -/
theorem bodyOf_writesOnly_single (i : Instr) (s : State) (hc : i ≠ .compress) (he : i ≠ .extract) :
    (bodyOf i s).Ends (WritesOnly i s) (WritesOnly i s) := by
  cases i with
  | rdInit => simp [bodyOf, rdInitBody, Ran.Ends, WritesOnly]
  | rdBit => simp [bodyOf, rdBitBody, Ran.Ends, WritesOnly]
  | rdBits n => simp [bodyOf, rdBitsBody, Ran.Ends, WritesOnly]
  | rdU32be => simp [bodyOf, rdU32beBody, Ran.Ends, WritesOnly]
  | wrInit => simp [bodyOf, wrInitBody, Ran.Ends, WritesOnly]
  | wrBit imm8 => exact wrBitBody_ends imm8 s (.setWriter rfl s) (.refl _ s)
  | wrBits n imm8 => exact wrBitsBody_ends n imm8 s (.setWriter rfl s) (.refl _ s)
  | wrU32be => exact wrU32beBody_ends s (.setWriter rfl s) (.refl _ s)
  | wrDump => simp [bodyOf, wrDumpBody, Ran.Ends, WritesOnly]
  | freqCount => simp [bodyOf, freqCountBody, Ran.Ends, WritesOnly]
  | trieBuild => simp [bodyOf, trieBuildBody, Ran.Ends, WritesOnly]
  | trieSer => exact trieSerBody_ends s (.setWriter rfl s) (.refl _ s)
  | trieDeser => exact trieDeserBody_ends s (fun _ _ _ _ => by simp [WritesOnly]) fun _ _ _ => by simp [WritesOnly]
  | codeBuild => exact codeBuildBody_ends s (fun _ _ _ => by simp [WritesOnly]) (by simp [WritesOnly])
  | payloadEnc => exact payloadEncBody_ends s (.setWriter rfl s) (.refl _ s)
  | payloadDec =>
    exact payloadDecBody_ends s (fun _ _ _ _ _ _ => by simp [WritesOnly, writesWriter])
      fun _ _ _ _ => by simp [WritesOnly]
  | compress => exact absurd rfl hc
  | extract => exact absurd rfl he

/-! ### Compositions (46_orchestrator.md R220, R222) -/

/-- The bodies of the commands `js`, one after another, after `r`. -/
def Ran.thenAll (r : Ran) (js : List Instr) : Ran := js.foldl (fun r j => r.andThen (bodyOf j)) r

/-- The commands COMPRESS is made of (46_orchestrator.md R220). -/
def compressParts : List Instr := [.freqCount, .trieBuild, .codeBuild, .wrInit, .trieSer, .payloadEnc, .wrDump]

/-- The commands EXTRACT is made of (46_orchestrator.md R222). -/
def extractParts : List Instr := [.rdInit, .wrInit, .trieDeser, .payloadDec, .wrDump]

theorem compressBody_eq (s : State) : compressBody s = (Ran.ok s).thenAll compressParts := rfl

theorem extractBody_eq (s : State) : extractBody s = (Ran.ok s).thenAll extractParts := rfl

/-- COMPRESS may write whatever its parts may. -/
theorem WritesOnly.compress {j : Instr} {s u : State} (hj : j ∈ compressParts) (h : WritesOnly j s u) :
    WritesOnly .compress s u := by
  obtain ⟨hres, -, -, -, hrd, hdec, -⟩ := h
  simp only [compressParts, List.mem_cons, List.not_mem_nil, or_false] at hj
  refine ⟨fun _ _ _ => hres ?_ ?_ ?_, nofun, nofun, nofun, fun _ _ => hrd ?_ ?_, fun _ _ => hdec ?_ ?_, nofun⟩ <;> grind

/-- EXTRACT may write whatever its parts may. -/
theorem WritesOnly.extract {j : Instr} {s u : State} (hj : j ∈ extractParts) (h : WritesOnly j s u) :
    WritesOnly .extract s u := by
  obtain ⟨hres, hfreq, hcode, -⟩ := h
  simp only [extractParts, List.mem_cons, List.not_mem_nil, or_false] at hj
  refine ⟨fun _ _ _ => hres ?_ ?_ ?_, fun _ _ => hfreq ?_ ?_, fun _ _ => hcode ?_ ?_, nofun, nofun, nofun, nofun⟩ <;> grind

/-- A composition writes only what its command `i` may, when its parts do. -/
theorem Ran.Ends.thenAll_writesOnly {i : Instr} {s : State} {r : Ran} (hr : r.Ends (WritesOnly i s) (WritesOnly i s))
    (js : List Instr) (hjs : ∀ j ∈ js, j ≠ .compress ∧ j ≠ .extract ∧ ∀ u v, WritesOnly j u v → WritesOnly i u v) :
    (r.thenAll js).Ends (WritesOnly i s) (WritesOnly i s) := by
  induction js generalizing r with
  | nil => exact hr
  | cons j js ih =>
    obtain ⟨hc, he, lift⟩ := hjs j List.mem_cons_self
    refine ih (hr.andThen fun u hu => ?_) fun k hk => hjs k (List.mem_cons_of_mem _ hk)
    exact (bodyOf_writesOnly_single j u hc he).mono (fun v hv => hu.trans (lift u v hv)) fun v hv => hu.trans (lift u v hv)

theorem compressBody_writesOnly (s : State) : (compressBody s).Ends (WritesOnly .compress s) (WritesOnly .compress s) := by
  rw [compressBody_eq]
  refine Ran.Ends.thenAll_writesOnly (r := .ok s) (WritesOnly.refl _ s) _ fun j hj => ⟨?_, ?_, fun _ _ => .compress hj⟩
  · exact ne_of_mem_of_not_mem hj (by decide)
  · exact ne_of_mem_of_not_mem hj (by decide)

theorem extractBody_writesOnly (s : State) : (extractBody s).Ends (WritesOnly .extract s) (WritesOnly .extract s) := by
  rw [extractBody_eq]
  refine Ran.Ends.thenAll_writesOnly (r := .ok s) (WritesOnly.refl _ s) _ fun j hj => ⟨?_, ?_, fun _ _ => .extract hj⟩
  · exact ne_of_mem_of_not_mem hj (by decide)
  · exact ne_of_mem_of_not_mem hj (by decide)

theorem bodyOf_writesOnly (i : Instr) (s : State) : (bodyOf i s).Ends (WritesOnly i s) (WritesOnly i s) := by
  by_cases hc : i = .compress
  · subst hc
    exact compressBody_writesOnly s
  · by_cases he : i = .extract
    · subst he
      exact extractBody_writesOnly s
    · exact bodyOf_writesOnly_single i s hc he

/-- Emptying the writer (60_exceptions.md R246) writes OUT_MEM, and only where the command writes the writer. -/
theorem WritesOnly.afterError {i : Instr} {s u : State} (h : WritesOnly i s u) : WritesOnly i s (u.afterError i) := by
  refine h.trans ?_
  cases hi : writesWriter i <;> simp [State.afterError, hi, WritesOnly]

/-- Settles O27: a failed check writes only STATUS, and a body only state of its command. -/
theorem eachRegisterHasItsWriters : Obligations.EachRegisterHasItsWriters := by
  intro i s t h
  have hbody := bodyOf_writesOnly i s
  rcases exec_next i s t h with ⟨-, rfl⟩ | ⟨-, -, -, rfl⟩ | ⟨-, -, ⟨u, hu, rfl⟩ | ⟨c, u, hu, rfl⟩⟩
  · exact WritesOnly.refl i s
  · exact WritesOnly.refl i s
  · rw [hu] at hbody
    exact hbody
  · rw [hu] at hbody
    exact WritesOnly.afterError hbody

end Sys2Proof.Machine
end

section
/-! PROOFS. The host's view of the registers: the flag words, register reads and writes, RESET (10_state.md R20 to R36, R47;
20_memory.md R61, R83; 70_reset_and_hazards.md R280 to R283). -/

namespace Sys2Proof.Machine

/-! ### Flag words (10_state.md R23, R31, R34) -/

theorem getLsbD_flagBit (b : Bool) (k i : Nat) (hi : i < 32) : (flagBit b k).getLsbD i = (b && decide (i = k)) := by
  cases b
  · simp [flagBit]
  · simp only [flagBit, if_true, BitVec.getLsbD_shiftLeft, BitVec.getLsbD_one, Bool.true_and, hi, decide_true]
    by_cases h : i = k
    · subst h; simp
    · simp [h]; omega

/-- Bits 8 to 11 of STATUS are the number of the error code (10_state.md R23; 60_exceptions.md R243). -/
theorem getLsbD_errcodeField (c : ErrCode) (i : Nat) (hi : i < 32) :
    (c.number.setWidth 32 <<< 8).getLsbD i = (decide (8 ≤ i ∧ i < 12) && c.number.getLsbD (i - 8)) := by
  rw [BitVec.getLsbD_shiftLeft, BitVec.getLsbD_setWidth]
  by_cases h12 : i < 12
  · by_cases h8 : i < 8
    · simp [h8]
    · simp [hi, h8, h12, show i - 8 < 32 by omega]; omega
  · rw [BitVec.getLsbD_of_ge c.number (i - 8) (by omega)]
    simp

theorem Status.getLsbD_word (st : Status) (i : Nat) (hi : i < 32) : st.word.getLsbD i =
    if i = 0 then st.busy else if i = 1 then st.done else if i = 2 then st.err else if i = 3 then st.exh
    else if i = 4 then st.ovr else if 8 ≤ i ∧ i < 12 then st.errcode.number.getLsbD (i - 8) else false := by
  simp only [Status.word, BitVec.getLsbD_or, getLsbD_flagBit _ _ i hi, getLsbD_errcodeField _ i hi]
  by_cases h : i < 5
  · interval_cases i <;> simp
  · simp [show i ≠ 0 by omega, show i ≠ 1 by omega, show i ≠ 2 by omega, show i ≠ 3 by omega, show i ≠ 4 by omega]

theorem Valid.getLsbD_word (v : Valid) (i : Nat) (hi : i < 32) : v.word.getLsbD i =
    if i = 0 then v.freq else if i = 1 then v.trie else if i = 2 then v.code else if i = 3 then v.rd
    else if i = 4 then v.wr else if i = 5 then v.wrDumped else false := by
  simp only [Valid.word, BitVec.getLsbD_or, getLsbD_flagBit _ _ i hi]
  by_cases h : i < 6
  · interval_cases i <;> simp
  · simp [show i ≠ 0 by omega, show i ≠ 1 by omega, show i ≠ 2 by omega, show i ≠ 3 by omega, show i ≠ 4 by omega,
      show i ≠ 5 by omega]

theorem IrqEn.getLsbD_word (e : IrqEn) (i : Nat) (hi : i < 32) : e.word.getLsbD i =
    if i = 0 then e.doneIe else if i = 1 then e.ovrIe else false := by
  simp only [IrqEn.word, BitVec.getLsbD_or, getLsbD_flagBit _ _ i hi]
  by_cases h : i < 2
  · interval_cases i <;> simp
  · simp [show i ≠ 0 by omega, show i ≠ 1 by omega]

/-- Settles O13: each flag word is the disjunction of its flags' bits. -/
theorem flagWordLayouts : Obligations.FlagWordLayouts :=
  ⟨Status.getLsbD_word, Valid.getLsbD_word, IrqEn.getLsbD_word, rfl, rfl, rfl, rfl, rfl, rfl, rfl, rfl, rfl⟩

/-! ### Register accesses -/

/-- A word read of the register block (20_memory.md R61, R62). -/
theorem step_readReg (s : State) (rest : List HostEvent) (off : Word) (hoff : off.toNat < 0x1000)
    (halign : off.toNat % 4 = 0) (h : s.host = .read .word (s.params.blockBase + off) :: rest) :
    step s = .next { s with
      host := rest, reply := some ⟨.okay, some (s.readReg off.toNat)⟩, draws := s.draws + 1 } := by
  rw [step_read s _ _ rest h, State.hostRead_eq _ _ _ off.toNat (State.offset_base { s with host := rest } off),
    respOf_low .word off.toNat (by omega), if_pos ⟨rfl, halign⟩, State.readData_reg _ _ hoff halign]
  rfl

/-- A word write to the register block (20_memory.md R61, R62). -/
theorem step_writeReg (s : State) (v : Word) (rest : List HostEvent) (off : Word) (hoff : off.toNat < 0x1000)
    (halign : off.toNat % 4 = 0) (h : s.host = .write .word (s.params.blockBase + off) v :: rest) :
    step s = .next (({ s with host := rest }.writeReg off.toNat v).answered ⟨.okay, none⟩) := by
  have hresp : respOf .word off.toNat = .okay := by
    rw [respOf_low .word off.toNat (by omega), if_pos ⟨rfl, halign⟩]
  rw [step_write s _ _ v rest h,
    State.hostWrite_okay _ _ _ v off.toNat (State.offset_base { s with host := rest } off) hresp]
  unfold State.writeData
  rw [regionOf_regs off.toNat hoff]

/-- Settles O12: with BUSY = 0 each of the four writes is the register's own. -/
theorem registerWritesTakeEffect : Obligations.RegisterWritesTakeEffect := by
  intro s v rest hbusy
  refine ⟨fun h => ?_, fun h => ?_, fun h => ?_, fun h => ?_⟩
  · rw [step_writeReg s v rest 0x00C (by decide) (by decide) h]
    have hreg : ({ s with host := rest } : State).writeReg (0x00C : Word).toNat v = { s with host := rest, arg := v } :=
      if_neg (by simp [hbusy])
    rw [hreg]
    rfl
  · rw [step_writeReg s v rest 0x014 (by decide) (by decide) h]
    have hreg : ({ s with host := rest } : State).writeReg (0x014 : Word).toNat v = { s with host := rest, inLen := v } :=
      if_neg (by simp [hbusy])
    rw [hreg]
    rfl
  · exact step_writeReg s v rest 0x008 (by decide) (by decide) h
  · exact step_writeReg s v rest 0x038 (by decide) (by decide) h

/-- A register the Core does not write reads its value, BUSY or not; every register does with BUSY = 0 (20_memory.md R83). -/
theorem State.readReg_value (s : State) (off : Nat) (r : RegName) (hr : regAt off = some r)
    (h : s.status.busy = false ∨ r.coreWritten = false) : s.readReg off = s.regValue r := by
  have hb : (s.status.busy && r.coreWritten) = false := by
    rcases h with h | h <;> simp [h]
  simp [State.readReg, hr, hb]

/-- A word read of a register that may be read now gives its value. -/
theorem step_readReg_value (s : State) (rest : List HostEvent) (off : Word) (r : RegName)
    (hr : regAt off.toNat = some r) (hoff : off.toNat < 0x1000) (halign : off.toNat % 4 = 0)
    (hnow : s.status.busy = false ∨ r.coreWritten = false)
    (h : s.host = .read .word (s.params.blockBase + off) :: rest) :
    step s = .next { s with host := rest, reply := some ⟨.okay, some (s.regValue r)⟩, draws := s.draws + 1 } := by
  rw [step_readReg s rest off hoff halign h, s.readReg_value _ r hr hnow]

/-- The register block holds registers up to offset 0x044 (10_state.md R20, R36). -/
theorem State.readReg_reserved (s : State) (off : Nat) (h : 0x048 ≤ off) : s.readReg off = 0 := by
  have hr : regAt off = none := List.getElem?_eq_none (show 18 ≤ off / 4 by omega)
  simp [State.readReg, hr]

theorem step_readReserved (s : State) (rest : List HostEvent) (off : Nat)
    (hoff : (0x1400 ≤ off ∧ off < 0x2000) ∨ (0x6000 ≤ off ∧ off < 0x8000)) (halign : off % 4 = 0)
    (h : s.host = .read .word (s.params.blockBase + BitVec.ofNat 32 off) :: rest) :
    step s = .next { s with host := rest, reply := some ⟨.okay, some 0⟩, draws := s.draws + 1 } := by
  have hnat : (BitVec.ofNat 32 off).toNat = off := by
    rw [BitVec.toNat_ofNat, Nat.mod_eq_of_lt (by omega)]
  have ho : ({ s with host := rest } : State).offset (s.params.blockBase + BitVec.ofNat 32 off) = off :=
    (State.offset_base { s with host := rest } _).trans hnat
  rw [step_read s _ _ rest h, State.hostRead_eq _ _ _ off ho, respOf_low .word off (by omega), if_pos ⟨rfl, halign⟩,
    State.readData_reserved _ off hoff halign]
  rfl

/-- Settles O14: each offset is its register's, and a reserved one reads 0. -/
theorem registerReadsGiveTheirValue : Obligations.RegisterReadsGiveTheirValue := by
  intro s rest
  refine ⟨?_, fun hbusy => ?_, fun off hoff halign h => ?_⟩
  · simp only [List.forall_mem_cons, List.not_mem_nil, false_imp_iff, implies_true, and_true]
    exact ⟨step_readReg_value s rest 0x000 .id rfl (by decide) (by decide) (.inr rfl),
      step_readReg_value s rest 0x004 .cmd rfl (by decide) (by decide) (.inr rfl),
      step_readReg_value s rest 0x008 .status rfl (by decide) (by decide) (.inr rfl),
      step_readReg_value s rest 0x00C .arg rfl (by decide) (by decide) (.inr rfl),
      step_readReg_value s rest 0x014 .inLen rfl (by decide) (by decide) (.inr rfl),
      step_readReg_value s rest 0x038 .irqEn rfl (by decide) (by decide) (.inr rfl),
      step_readReg_value s rest 0x03C .inCap rfl (by decide) (by decide) (.inr rfl),
      step_readReg_value s rest 0x040 .outCap rfl (by decide) (by decide) (.inr rfl),
      step_readReg_value s rest 0x044 .nodeCap rfl (by decide) (by decide) (.inr rfl)⟩
  · simp only [List.forall_mem_cons, List.not_mem_nil, false_imp_iff, implies_true, and_true]
    exact ⟨step_readReg_value s rest 0x010 .result rfl (by decide) (by decide) (.inl hbusy),
      step_readReg_value s rest 0x018 .outLen rfl (by decide) (by decide) (.inl hbusy),
      step_readReg_value s rest 0x01C .rdPos rfl (by decide) (by decide) (.inl hbusy),
      step_readReg_value s rest 0x020 .rdEnd rfl (by decide) (by decide) (.inl hbusy),
      step_readReg_value s rest 0x024 .wrPos rfl (by decide) (by decide) (.inl hbusy),
      step_readReg_value s rest 0x028 .decLen rfl (by decide) (by decide) (.inl hbusy),
      step_readReg_value s rest 0x02C .valid rfl (by decide) (by decide) (.inl hbusy),
      step_readReg_value s rest 0x030 .nodeCount rfl (by decide) (by decide) (.inl hbusy),
      step_readReg_value s rest 0x034 .root rfl (by decide) (by decide) (.inl hbusy)⟩
  · rcases hoff with ⟨hlo, hhi⟩ | hgap
    · have hnat : (BitVec.ofNat 32 off).toNat = off := by
        rw [BitVec.toNat_ofNat, Nat.mod_eq_of_lt (by omega)]
      rw [step_readReg s rest _ (by omega) (by omega) h, s.readReg_reserved _ (by omega)]
    · exact step_readReserved s rest off hgap halign h

/-! ### RESET -/

/-- RESET's turn is the whole of it (70_reset_and_hazards.md R280, R282). -/
theorem step_reset (s : State) (rest : List HostEvent) (h : s.host = .reset :: rest) :
    step s = .next { s with host := rest }.applyReset := by
  simp only [step, turn, h]

/-- Settles O22: the state after RESET, field by field. -/
theorem resetSetsEveryRegister : Obligations.ResetSetsEveryRegister :=
  fun s rest h => ⟨_, step_reset s rest h, by simp [State.outLen, State.reset], rfl, rfl, rfl, rfl, rfl⟩

/-- Settles O23: the reset state is concrete, and no free value is in it. -/
theorem resetMeetsInvariant : Obligations.ResetMeetsInvariant := by
  refine ⟨by decide, rfl, rfl, rfl, rfl, rfl, rfl, rfl, rfl, rfl, rfl, rfl, by decide, by decide, by decide, by decide⟩

end Sys2Proof.Machine
end

section
/-! PROOFS. The FREQ, CODE and NODE windows as the host reads them (10_state.md R38, R39, R40). -/

namespace Sys2Proof.Machine

/-- A word read of a word region, `k` bytes past offset `base` (20_memory.md R61, R62). -/
theorem step_readWord (s : State) (rest : List HostEvent) (base : Word) (k : Nat) (hlow : base.toNat + k < 0x10000)
    (halign : (base.toNat + k) % 4 = 0) (h : s.host = .read .word (s.params.blockBase + base + BitVec.ofNat 32 k) :: rest) :
    step s = .next { s with
      host := rest
      reply := some ⟨.okay, some (({ s with host := rest } : State).readData .word (base.toNat + k))⟩
      draws := s.draws + 1 } := by
  have hoff : ({ s with host := rest } : State).offset (s.params.blockBase + base + BitVec.ofNat 32 k) = base.toNat + k :=
    State.offset_window { s with host := rest } base k (by omega)
  rw [step_read s _ _ rest h, State.hostRead_eq _ _ _ _ hoff, respOf_low .word _ hlow, if_pos ⟨rfl, halign⟩]
  rfl

theorem State.readData_freqWindow (s : State) (off : Nat) (h1 : 0x1000 ≤ off) (h2 : off < 0x1400) (ha : off % 4 = 0) :
    s.readData .word off = s.readFreqWindow off := by
  unfold State.readData
  rw [respOf_low .word off (by omega), if_pos ⟨rfl, ha⟩, regionOf_freqWindow off h1 h2]

theorem State.readData_codeWindow (s : State) (off : Nat) (h1 : 0x2000 ≤ off) (h2 : off < 0x6000) (ha : off % 4 = 0) :
    s.readData .word off = s.readCodeWindow off := by
  unfold State.readData
  rw [respOf_low .word off (by omega), if_pos ⟨rfl, ha⟩, regionOf_codeWindow off h1 h2]

theorem State.readData_nodeWindow (s : State) (off : Nat) (h1 : 0x8000 ≤ off) (h2 : off < 0x10000) (ha : off % 4 = 0) :
    s.readData .word off = s.readNodeWindow off := by
  unfold State.readData
  rw [respOf_low .word off (by omega), if_pos ⟨rfl, ha⟩, regionOf_nodeWindow off h1 h2]

/-! ### FREQ -/

theorem State.readFreqWindow_entry (s : State) (v : Nat) (c : Word) (hbusy : s.status.busy = false)
    (hvalid : s.valid.freq = true) (hc : s.freq[v]? = some c) : s.readFreqWindow (0x1000 + 4 * v) = c := by
  have hv : (0x1000 + 4 * v - 0x1000) / 4 = v := by omega
  rw [State.readFreqWindow, State.freqAt, hbusy, hvalid, hv, hc]
  rfl

/-! ### CODE -/

/-- Code bit `b` of a bits word stands at bit 31 - b (10_state.md R39). -/
theorem getLsbD_codeBitsWord (bits : List Bool) (j n b : Nat) (hn : n ≤ 32) (hb : b < 32) :
    (codeBitsWord bits j n).getLsbD (31 - b) = (decide (b < n) && bits.getD (32 * j + b) false) := by
  induction n with
  | zero => simp [codeBitsWord]
  | succ n ih =>
    rw [codeBitsWord, BitVec.getLsbD_or, getLsbD_flagBit _ _ _ (by omega), ih (by omega)]
    rcases Nat.lt_trichotomy b n with hlt | heq | hgt
    · simp [hlt, show b < n + 1 by omega, show ¬ 31 - b = 31 - n by omega]
    · subst heq; simp
    · simp [show ¬ b < n by omega, show ¬ b < n + 1 by omega, show ¬ 31 - b = 31 - n by omega]

/-- Word 0 of a CODE entry: PRESENT at bit 31, LEN in bits 7 to 0 (10_state.md R39). -/
theorem getLsbD_codeEntryWord_zero (e : CodeEntry) (b : Nat) (hb : b < 32) :
    (codeEntryWord e 0).getLsbD b = ((e.present && decide (b = 31)) || (BitVec.ofNat 8 e.bits.length).getLsbD b) := by
  rw [codeEntryWord, if_pos rfl, BitVec.getLsbD_or, getLsbD_flagBit _ _ _ hb, BitVec.getLsbD_setWidth]
  simp [hb]

theorem codeEntryWord_zero_len (e : CodeEntry) (hlen : e.bits.length ≤ 255) :
    ((codeEntryWord e 0).extractLsb' 0 8).toNat = e.bits.length := by
  have hfield : (codeEntryWord e 0).extractLsb' 0 8 = BitVec.ofNat 8 e.bits.length := by
    apply BitVec.eq_of_getLsbD_eq
    intro b hb
    rw [BitVec.getLsbD_extractLsb', Nat.zero_add, getLsbD_codeEntryWord_zero e b (by omega)]
    simp [hb, show ¬ b = 31 by omega]
  rw [hfield, BitVec.toNat_ofNat, Nat.mod_eq_of_lt (by omega)]

theorem State.readCodeWindow_entry (s : State) (v j : Nat) (e : CodeEntry) (hj : j < 16) (hbusy : s.status.busy = false)
    (hvalid : s.valid.code = true) (he : s.code[v]? = some e) :
    s.readCodeWindow (0x2000 + (64 * v + 4 * j)) = codeEntryWord e j := by
  have hv : (0x2000 + (64 * v + 4 * j) - 0x2000) / 64 = v := by omega
  have hw : (0x2000 + (64 * v + 4 * j) - 0x2000) % 64 / 4 = j := by omega
  rw [State.readCodeWindow, State.codeAt, hbusy, hvalid, hv, hw, he]
  rfl

/-! ### NODE -/

theorem State.readNodeWindow_entry (s : State) (i j : Nat) (n : Node) (hj : j < 4) (hbusy : s.status.busy = false)
    (hvalid : s.valid.trie = true) (hcap : i < s.params.nodeCap) (hcount : i < s.nodeCount.toNat)
    (hn : s.node[i]? = some n) : s.readNodeWindow (0x8000 + (16 * i + 4 * j)) = nodeWord n j := by
  have hi : (0x8000 + (16 * i + 4 * j) - 0x8000) / 16 = i := by omega
  have hw : (0x8000 + (16 * i + 4 * j) - 0x8000) % 16 / 4 = j := by omega
  simp only [State.readNodeWindow, hi, hw, hbusy, hvalid, hn, Nat.not_le.mpr hcap, Nat.not_le.mpr hcount, Bool.false_eq_true,
    if_false, Bool.not_true, decide_false, Bool.or_self]

theorem State.readNodeWindow_pastCap (s : State) (i j : Nat) (hj : j < 4) (hbusy : s.status.busy = false)
    (hcap : s.params.nodeCap ≤ i) : s.readNodeWindow (0x8000 + (16 * i + 4 * j)) = 0 := by
  have hi : (0x8000 + (16 * i + 4 * j) - 0x8000) / 16 = i := by omega
  simp only [State.readNodeWindow, hi, hbusy, hcap, Bool.false_eq_true, if_false, if_true]

/-- Settles O20: each window word is the word of its table entry. -/
theorem windowReadsShowTheTables : Obligations.WindowReadsShowTheTables := by
  intro s rest hbusy
  refine ⟨fun v c hvalid hv hc h => ?_, fun v e j hvalid hv he hlen hj h => ?_,
    fun i n j hvalid hcap hi hcount hn hj h => ?_, fun i j hcap hi hj h => ?_⟩
  · have hbase : (0x1000 : Word).toNat = 0x1000 := rfl
    rw [step_readWord s rest 0x1000 (4 * v) (by omega) (by omega) h, hbase,
      State.readData_freqWindow _ _ (by omega) (by omega) (by omega),
      State.readFreqWindow_entry { s with host := rest } v c hbusy hvalid hc]
  · have hbase : (0x2000 : Word).toNat = 0x2000 := rfl
    refine ⟨codeEntryWord e j, ?_, ?_, fun h1 h8 b hb => ?_, fun h9 => ?_⟩
    · rw [step_readWord s rest 0x2000 (64 * v + 4 * j) (by omega) (by omega) h, hbase,
        State.readData_codeWindow _ _ (by omega) (by omega) (by omega),
        State.readCodeWindow_entry { s with host := rest } v j e hj hbusy hvalid he]
    · rintro rfl
      refine ⟨?_, codeEntryWord_zero_len e hlen, fun b hb8 hb31 => ?_⟩
      · rw [getLsbD_codeEntryWord_zero e 31 (by decide), BitVec.getLsbD_of_ge _ 31 (by decide)]
        simp
      · rw [getLsbD_codeEntryWord_zero e b (by omega), BitVec.getLsbD_of_ge _ b hb8]
        simp [show ¬ b = 31 by omega]
    · rw [codeEntryWord, if_neg (by omega), if_pos h8, getLsbD_codeBitsWord _ _ _ _ (Nat.le_refl 32) hb]
      simp [hb]
    · rw [codeEntryWord, if_neg (by omega), if_neg (by omega)]
  · have hbase : (0x8000 : Word).toNat = 0x8000 := rfl
    rw [step_readWord s rest 0x8000 (16 * i + 4 * j) (by omega) (by omega) h, hbase,
      State.readData_nodeWindow _ _ (by omega) (by omega) (by omega),
      State.readNodeWindow_entry { s with host := rest } i j n hj hbusy hvalid hcap hcount hn]
    cases n <;> interval_cases j <;> rfl
  · have hbase : (0x8000 : Word).toNat = 0x8000 := rfl
    rw [step_readWord s rest 0x8000 (16 * i + 4 * j) (by omega) (by omega) h, hbase,
      State.readData_nodeWindow _ _ (by omega) (by omega) (by omega),
      State.readNodeWindow_pastCap { s with host := rest } i j hj hbusy hcap]

end Sys2Proof.Machine
end

section
/-! PROOFS. The host's accesses to read-only places and to the two memories, bus errors, and writes while BUSY = 1
(20_memory.md R62 to R69, R73, R82). -/

namespace Sys2Proof.Machine

/-! ### A host access as one step -/

/-- A read changes only the model's record of the answer (20_memory.md R73). -/
theorem step_readAt (s : State) (size : Size) (addr : Word) (rest : List HostEvent) (off : Nat) (resp : Resp)
    (hoff : s.offset addr = off) (hresp : respOf size off = resp) (h : s.host = .read size addr :: rest) :
    step s = .next { s with
      host := rest
      reply := some ⟨resp, some (({ s with host := rest } : State).readData size off)⟩
      draws := s.draws + 1 } := by
  subst hresp
  exact (step_read s size addr rest h).trans (congrArg _ (State.hostRead_eq { s with host := rest } size addr off hoff))

/-- An accepted write takes its effect (20_memory.md R63 to R65). -/
theorem step_writeOkay (s : State) (size : Size) (addr v : Word) (rest : List HostEvent) (off : Nat)
    (hoff : s.offset addr = off) (hresp : respOf size off = .okay) (h : s.host = .write size addr v :: rest) :
    step s = .next ((({ s with host := rest } : State).writeData size off v).answered ⟨.okay, none⟩) := by
  rw [step_write s size addr v rest h, State.hostWrite_okay { s with host := rest } size addr v off hoff hresp]

/-- A write answered with an error, outside OUT_MEM, changes nothing (20_memory.md R68). -/
theorem step_writeError (s : State) (size : Size) (addr v : Word) (rest : List HostEvent) (off : Nat) (resp : Resp)
    (hoff : s.offset addr = off) (hregion : regionOf off ≠ .outWindow) (hresp : respOf size off = resp)
    (herror : resp ≠ .okay) (h : s.host = .write size addr v :: rest) :
    step s = .next { s with host := rest, reply := some ⟨resp, none⟩, draws := s.draws + 1 } := by
  rw [step_write s size addr v rest h]
  cases resp with
  | okay => exact absurd rfl herror
  | slverr => exact congrArg _ (State.hostWrite_slverr { s with host := rest } size addr v off hoff hregion hresp)
  | decerr => exact congrArg _ (State.hostWrite_decerr { s with host := rest } size addr v off hoff hresp)

/-- Settles O15: whatever the answer, a read is the answer alone. -/
theorem hostReadChangesNothing : Obligations.HostReadChangesNothing :=
  fun s size addr rest h => ⟨_, _, step_readAt s size addr rest _ _ rfl rfl h⟩

/-! ### Read-only places (20_memory.md R63, R65; 10_state.md R36) -/

/-- An aligned access to a word region outside the registers the host may write, or to OUT_MEM. -/
def ReadOnlyAccess (size : Size) (off : Nat) : Prop :=
  (size = .word ∧ off < 0x10000 ∧ off % 4 = 0 ∧ off ∉ [0x004, 0x008, 0x00C, 0x014, 0x038])
    ∨ (0x2000000 ≤ off ∧ off < 0x3000000 ∧ off % size.bytes = 0)

theorem ReadOnlyAccess.respOf {size : Size} {off : Nat} (h : ReadOnlyAccess size off) : respOf size off = .okay := by
  rcases h with ⟨hsize, hlow, halign, -⟩ | ⟨hlo, hhi, halign⟩
  · rw [respOf_low size off hlow, if_pos ⟨hsize, halign⟩]
  · rw [respOf_outWindow size off hlo hhi, if_pos halign]

/-- The five registers the host may write stand at these offsets (10_state.md R20). -/
theorem regAt_readOnly (off : Nat) (halign : off % 4 = 0) (hoff : off ∉ [0x004, 0x008, 0x00C, 0x014, 0x038]) :
    regAt off ∉ [some .cmd, some .status, some .arg, some .inLen, some .irqEn] := by
  have hreg : ∀ i < 18, i ∉ [1, 2, 3, 5, 14] →
      regOrder[i]? ∉ [some .cmd, some .status, some .arg, some .inLen, some .irqEn] := by decide
  rw [regAt]
  by_cases hlow : off / 4 < 18
  · refine hreg (off / 4) hlow ?_
    simp only [List.mem_cons, List.not_mem_nil, or_false] at hoff ⊢
    omega
  · rw [List.getElem?_eq_none (show 18 ≤ off / 4 from Nat.not_lt.mp hlow)]
    decide

theorem State.writeReg_readOnly (s : State) (off : Nat) (v : Word) (halign : off % 4 = 0)
    (hoff : off ∉ [0x004, 0x008, 0x00C, 0x014, 0x038]) : s.writeReg off v = s := by
  have hreg := regAt_readOnly off halign hoff
  simp only [List.mem_cons, List.not_mem_nil, or_false, not_or] at hreg
  obtain ⟨hcmd, hstatus, harg, hinLen, hirqEn⟩ := hreg
  unfold State.writeReg
  split
  · exact absurd ‹_› hcmd
  · exact absurd ‹_› hstatus
  · exact absurd ‹_› harg
  · exact absurd ‹_› hinLen
  · exact absurd ‹_› hirqEn
  all_goals rfl

theorem State.writeData_outWindow (s : State) (size : Size) (off : Nat) (v : Word) (hlo : 0x2000000 ≤ off)
    (hhi : off < 0x3000000) : s.writeData size off v = s := by
  unfold State.writeData
  rw [regionOf_outWindow off hlo hhi]

/-- Below 0x10000 only registers can be written. -/
theorem State.writeData_low (s : State) (size : Size) (off : Nat) (v : Word) (hlow : off < 0x10000)
    (hreg : s.writeReg off v = s) : s.writeData size off v = s := by
  obtain ⟨hin, -, -⟩ := regionOf_low off hlow
  unfold State.writeData
  cases hr : regionOf off
  case regs => exact hreg
  case inWindow => exact absurd hr hin
  all_goals rfl

theorem ReadOnlyAccess.writeData {size : Size} {off : Nat} (h : ReadOnlyAccess size off) (s : State) (v : Word) :
    s.writeData size off v = s := by
  rcases h with ⟨-, hlow, halign, hoff⟩ | ⟨hlo, hhi, -⟩
  · exact s.writeData_low size off v hlow (s.writeReg_readOnly off v halign hoff)
  · exact s.writeData_outWindow size off v hlo hhi

/-- Settles O17: the write is accepted and reaches no register the host may write. -/
theorem readOnlyWritesAreIgnored : Obligations.ReadOnlyWritesAreIgnored := by
  intro s size addr v rest off hoff h hplace
  have hro : ReadOnlyAccess size off := hplace
  rw [step_writeOkay s size addr v rest off hoff.symm hro.respOf h, hro.writeData]
  rfl

/-! ### Bus errors (20_memory.md R62, R64, R65, R67, R68) -/

/-- Every write to OUT_MEM, aligned or not, changes nothing; the answer to a misaligned one is free
(notes/assumptions/21.md). -/
theorem State.hostWrite_outWindow (s : State) (size : Size) (addr v : Word) (off : Nat) (hoff : s.offset addr = off)
    (hlo : 0x2000000 ≤ off) (hhi : off < 0x3000000) : ∃ resp, s.hostWrite size addr v = s.answered ⟨resp, none⟩ := by
  unfold State.hostWrite
  rw [hoff, s.writeData_outWindow size off v hlo hhi]
  cases s.writeResp size off <;> exact ⟨_, rfl⟩

/-- Settles O16: below 0x10000, in IN_MEM and at an unmapped offset the error is the answer of either access; in OUT_MEM
only of a read. -/
theorem busErrorsChangeNothing : Obligations.BusErrorsChangeNothing := by
  intro s size addr v rest off hoff
  refine ⟨fun resp hcase => ?_, fun hlo hhi halign => ⟨fun h => ?_, fun h => ?_⟩⟩
  · have herror : respOf size off = resp ∧ resp ≠ .okay ∧ regionOf off ≠ .outWindow := by
      rcases hcase with ⟨hlow, hbad, rfl⟩ | ⟨hlo, hhi, halign, rfl⟩ | ⟨hout, rfl⟩
      · obtain ⟨-, hregion, -⟩ := regionOf_low off hlow
        exact ⟨by rw [respOf_low size off hlow, if_neg (by tauto)], nofun, hregion⟩
      · exact ⟨by rw [respOf_inWindow size off hlo hhi, if_neg halign], nofun, by simp [regionOf_inWindow off hlo hhi]⟩
      · exact ⟨respOf_unmapped size off hout, nofun, by simp [regionOf_unmapped off hout]⟩
    obtain ⟨hresp, hne, hregion⟩ := herror
    exact ⟨step_writeError s size addr v rest off resp hoff.symm hregion hresp hne,
      fun h => ⟨_, step_readAt s size addr rest off resp hoff.symm hresp h⟩⟩
  · have hresp : respOf size off = .slverr := by rw [respOf_outWindow size off hlo hhi, if_neg halign]
    exact ⟨_, step_readAt s size addr rest off .slverr hoff.symm hresp h⟩
  · obtain ⟨resp, hwrite⟩ := State.hostWrite_outWindow { s with host := rest } size addr v off hoff.symm hlo hhi
    exact ⟨resp, by rw [step_write s size addr v rest h, hwrite]; rfl⟩

/-! ### IN_MEM and OUT_MEM by window offset (20_memory.md R64, R65, R69) -/

theorem Size.bytes_le (size : Size) : size.bytes ≤ 4 := by cases size <;> decide

/-- Both windows start at a multiple of every width. -/
theorem Size.window_mod (size : Size) (n k : Nat) : (0x1000000 * n + k) % size.bytes = k % size.bytes := by
  cases size <;> simp only [Size.bytes] <;> omega

theorem respOf_inMem (size : Size) (k : Nat) (hk : k < 2 ^ 24) :
    respOf size (0x1000000 + k) = if k % size.bytes = 0 then .okay else .slverr := by
  rw [respOf_inWindow size _ (by omega) (by omega), size.window_mod 1 k]

theorem respOf_outMem (size : Size) (k : Nat) (hk : k < 2 ^ 24) :
    respOf size (0x2000000 + k) = if k % size.bytes = 0 then .okay else .slverr := by
  rw [respOf_outWindow size _ (by omega) (by omega), size.window_mod 2 k]

theorem State.offset_inMem (s : State) (k : Nat) (hk : k < 2 ^ 24) :
    s.offset (s.params.blockBase + 0x01000000 + BitVec.ofNat 32 k) = 0x1000000 + k :=
  s.offset_window 0x01000000 k (show 0x1000000 + k < 2 ^ 32 by omega)

theorem State.offset_outMem (s : State) (k : Nat) (hk : k < 2 ^ 24) :
    s.offset (s.params.blockBase + 0x02000000 + BitVec.ofNat 32 k) = 0x2000000 + k :=
  s.offset_window 0x02000000 k (show 0x2000000 + k < 2 ^ 32 by omega)

theorem State.readData_inMem (s : State) (size : Size) (k : Nat) (hk : k < 2 ^ 24) (halign : k % size.bytes = 0) :
    s.readData size (0x1000000 + k) = gatherLanes (fun j => s.readIn (k + j)) size.bytes := by
  unfold State.readData
  rw [respOf_inMem size k hk, if_pos halign, regionOf_inWindow _ (by omega) (by omega), Nat.add_sub_cancel_left]

theorem State.readData_outMem (s : State) (size : Size) (k : Nat) (hk : k < 2 ^ 24) (halign : k % size.bytes = 0) :
    s.readData size (0x2000000 + k) = gatherLanes (fun j => s.readOut j (k + j)) size.bytes := by
  unfold State.readData
  rw [respOf_outMem size k hk, if_pos halign, regionOf_outWindow _ (by omega) (by omega), Nat.add_sub_cancel_left]

theorem State.writeData_inMem (s : State) (size : Size) (k : Nat) (v : Word) (hk : k < 2 ^ 24) :
    s.writeData size (0x1000000 + k) v = if s.status.busy then s.dropInWrite k
      else { s with inMem := storeIn s.params.inCap v k size.bytes s.inMem } := by
  unfold State.writeData
  rw [regionOf_inWindow _ (by omega) (by omega), Nat.add_sub_cancel_left]

/-- A begun byte below OUT_CAP reads as it is (10_state.md R28; 20_memory.md R65). -/
theorem State.readOut_begun (s : State) (lane k : Nat) (hbusy : s.status.busy = false) (hcap : k < s.params.outCap)
    (hlen : k < s.outLen) : s.readOut lane k = s.outMem.read k := by
  rw [State.readOut, hbusy, if_neg nofun, if_neg (Nat.not_le.mpr hcap), if_neg (Nat.not_le.mpr hlen)]

theorem State.readOut_pastCap (s : State) (lane k : Nat) (hbusy : s.status.busy = false) (hcap : s.params.outCap ≤ k) :
    s.readOut lane k = 0 := by
  rw [State.readOut, hbusy, if_neg nofun, if_pos hcap]

/-- Settles O18: `storeIn_read` says what the store leaves at each address, `gatherLanes_lane` what each lane reads. -/
theorem inMemAccessesUseLittleEndianLanes : Obligations.InMemAccessesUseLittleEndianLanes := by
  intro s size v rest k hk
  have hoff := s.offset_inMem k hk
  have hresp := respOf_inMem size k hk
  refine ⟨fun halign => ?_, fun halign hwf hbusy h => ?_, fun halign h => ?_⟩
  · rw [if_neg halign] at hresp
    have hregion : regionOf (0x1000000 + k) ≠ .outWindow := by
      simp [regionOf_inWindow (0x1000000 + k) (by omega) (by omega)]
    exact ⟨step_writeError s size _ v rest _ .slverr hoff hregion hresp nofun,
      fun h => ⟨_, step_readAt s size _ rest _ .slverr hoff hresp h⟩⟩
  · rw [if_pos halign] at hresp
    refine ⟨storeIn s.params.inCap v k size.bytes s.inMem, some ⟨.okay, none⟩, ?_,
      fun j => storeIn_read s.params.inCap v k size.bytes j s.inMem hwf⟩
    rw [step_writeOkay s size _ v rest _ hoff hresp h, State.writeData_inMem _ size k v hk, if_neg (by simp [hbusy])]
    rfl
  · rw [if_pos halign] at hresp
    refine ⟨_, step_readAt s size _ rest _ .okay hoff hresp h, fun j hj => ?_⟩
    rw [State.readData_inMem _ size k hk halign, gatherLanes_lane _ _ j size.bytes_le hj]
    rfl

/-- Settles O19: each lane of the read is one byte of the OUT_MEM window. -/
theorem outMemReadsGiveBegunBytes : Obligations.OutMemReadsGiveBegunBytes := by
  intro s size rest k hk halign hbusy h
  have hresp : respOf size (0x2000000 + k) = .okay := by rw [respOf_outMem size k hk, if_pos halign]
  refine ⟨_, step_readAt s size _ rest _ .okay (s.offset_outMem k hk) hresp h, fun j hj => ?_⟩
  rw [State.readData_outMem _ size k hk halign, gatherLanes_lane _ _ j size.bytes_le hj]
  exact ⟨State.readOut_begun { s with host := rest } j (k + j) hbusy,
    State.readOut_pastCap { s with host := rest } j (k + j) hbusy⟩

/-! ### Writes while BUSY = 1 (20_memory.md R82; 60_exceptions.md R242) -/

theorem State.writeReg_busy (s : State) (off : Nat) (v : Word) (hoff : off ∈ [0x004, 0x00C, 0x014])
    (hbusy : s.status.busy = true) : s.writeReg off v = s.overrun := by
  simp only [List.mem_cons, List.not_mem_nil, or_false] at hoff
  rcases hoff with rfl | rfl | rfl <;> exact if_pos hbusy

/-- Settles O11: the locations the Core needs stable only set OVR, STATUS and IRQ_EN are written as ever, and the rest is
read-only. -/
theorem busyWritesAreDropped : Obligations.BusyWritesAreDropped := by
  intro s v rest hbusy
  refine ⟨fun off hmem h => ?_, fun size k hcap hk halign h => ?_, fun h => ?_, fun h => ?_,
    fun size addr off hoff h hplace => ?_⟩
  · have hreg : off.toNat ∈ [0x004, 0x00C, 0x014] := List.mem_map_of_mem (f := BitVec.toNat) hmem
    have hplace : ∀ n ∈ [0x004, 0x00C, 0x014], n < 0x1000 ∧ n % 4 = 0 := by decide
    obtain ⟨hlow, halign⟩ := hplace off.toNat hreg
    refine ⟨some ⟨.okay, none⟩, ?_⟩
    rw [step_writeReg s v rest off hlow halign h, State.writeReg_busy { s with host := rest } _ v hreg hbusy]
    rfl
  · have hresp : respOf size (0x1000000 + k) = .okay := by rw [respOf_inMem size k hk, if_pos halign]
    have hdrop : ({ s with host := rest } : State).dropInWrite k = ({ s with host := rest } : State).overrun := by
      rw [State.dropInWrite, if_pos (by simp [hcap])]
    refine ⟨some ⟨.okay, none⟩, ?_⟩
    rw [step_writeOkay s size _ v rest _ (s.offset_inMem k hk) hresp h, State.writeData_inMem _ size k v hk,
      if_pos hbusy, hdrop]
    rfl
  · exact ⟨_, step_writeReg s v rest 0x008 (by decide) (by decide) h⟩
  · exact ⟨_, step_writeReg s v rest 0x038 (by decide) (by decide) h⟩
  · exact ⟨_, readOnlyWritesAreIgnored s size addr v rest off hoff h hplace⟩

end Sys2Proof.Machine
end

section
/-! PROOFS. The command words: fields, the table of 30_encoding.md R96, the decoder against the encoder, the assembler, and
what the decoder means for a step (30_encoding.md R91 to R101; 60_exceptions.md R241). -/

namespace Sys2Proof

/-! ### Fields of a word (30_encoding.md R91) -/

theorem fieldN_packWord (opc n imm8 : _) : fieldN (packWord opc n imm8) = n := by
  apply BitVec.eq_of_getLsbD_eq
  intro i hi
  simp only [fieldN, packWord, BitVec.getLsbD_extractLsb', BitVec.getLsbD_or, BitVec.getLsbD_shiftLeft,
    BitVec.getLsbD_setWidth]
  rw [BitVec.getLsbD_of_ge opc _ (by omega), Nat.add_sub_cancel_left]
  simp [hi, show 8 + i < 32 by omega, show 8 + i < 16 by omega, show i < 32 by omega]

theorem fieldImm8_packWord (opc n imm8 : _) : fieldImm8 (packWord opc n imm8) = imm8 := by
  apply BitVec.eq_of_getLsbD_eq
  intro i hi
  simp only [fieldImm8, packWord, BitVec.getLsbD_extractLsb', BitVec.getLsbD_or, BitVec.getLsbD_shiftLeft,
    BitVec.getLsbD_setWidth]
  rw [BitVec.getLsbD_of_ge opc _ (by omega), BitVec.getLsbD_of_ge n _ (by omega), Nat.add_sub_cancel_left]
  simp [hi, show 16 + i < 32 by omega, show i < 32 by omega]

/-- The five fields are the whole word. -/
theorem word_ext_fields {a b : Word} (hopc : fieldOpc a = fieldOpc b) (hn : fieldN a = fieldN b)
    (hrsv0 : fieldRsv0 a = fieldRsv0 b) (himm8 : fieldImm8 a = fieldImm8 b) (hrsv1 : fieldRsv1 a = fieldRsv1 b) :
    a = b := by
  simp only [fieldOpc, fieldN, fieldRsv0, fieldImm8, fieldRsv1, ← BitVec.toNat_inj, BitVec.extractLsb'_toNat,
    Nat.shiftRight_eq_div_pow] at hopc hn hrsv0 himm8 hrsv1
  apply BitVec.eq_of_toNat_eq
  omega

/-- A word with reserved fields 0 is packed from its other fields. -/
theorem packWord_fields {w : Word} (hrsv0 : fieldRsv0 w = 0) (hrsv1 : fieldRsv1 w = 0) :
    packWord (fieldOpc w) (fieldN w) (fieldImm8 w) = w :=
  word_ext_fields (fieldOpc_packWord _ _ _) (fieldN_packWord _ _ _) ((fieldRsv0_packWord _ _ _).trans hrsv0.symm)
    (fieldImm8_packWord _ _ _) ((fieldRsv1_packWord _ _ _).trans hrsv1.symm)

/-- A mask and a pattern act on each field alone. -/
theorem and_eq_iff_fields (w mask pattern : Word) : w &&& mask = pattern ↔
    fieldOpc w &&& fieldOpc mask = fieldOpc pattern ∧ fieldN w &&& fieldN mask = fieldN pattern
      ∧ fieldRsv0 w &&& fieldRsv0 mask = fieldRsv0 pattern ∧ fieldImm8 w &&& fieldImm8 mask = fieldImm8 pattern
      ∧ fieldRsv1 w &&& fieldRsv1 mask = fieldRsv1 pattern := by
  simp only [fieldOpc, fieldN, fieldRsv0, fieldImm8, fieldRsv1, ← BitVec.extractLsb'_and]
  constructor
  · rintro rfl
    exact ⟨rfl, rfl, rfl, rfl, rfl⟩
  · rintro ⟨hopc, hn, hrsv0, himm8, hrsv1⟩
    exact word_ext_fields hopc hn hrsv0 himm8 hrsv1

/-! ### Rows of the table (30_encoding.md R96) -/

/-- Every row fixes OPC and the reserved fields, and what it fixes besides OPC it fixes at 0. -/
theorem opcodeTable_fields : ∀ r ∈ opcodeTable,
    fieldOpc r.mask = 0xFF ∧ fieldRsv0 r.mask = 0xF ∧ fieldRsv1 r.mask = 0xFF
      ∧ fieldN r.pattern = 0 ∧ fieldRsv0 r.pattern = 0 ∧ fieldImm8 r.pattern = 0 ∧ fieldRsv1 r.pattern = 0 := by decide

/-- No two rows have the same OPC. -/
theorem opcodeTable_opcs_nodup : (opcodeTable.map fun r => fieldOpc r.pattern).Nodup := by decide

/-- What a row asks of a word: its OPC, reserved fields 0, the operand fields it does not leave free 0, and its extra
condition. -/
theorem Row.selects_iff {r : Row} (hr : r ∈ opcodeTable) (w : Word) : r.selects w = true ↔
    fieldOpc w = fieldOpc r.pattern ∧ fieldRsv0 w = 0 ∧ fieldRsv1 w = 0 ∧ fieldN w &&& fieldN r.mask = 0
      ∧ fieldImm8 w &&& fieldImm8 r.mask = 0 ∧ r.extra w = true := by
  obtain ⟨mopc, mrsv0, mrsv1, pn, prsv0, pimm8, prsv1⟩ := opcodeTable_fields r hr
  have hopc : fieldOpc w &&& 0xFF = fieldOpc w := BitVec.and_allOnes
  have hrsv0 : fieldRsv0 w &&& 0xF = fieldRsv0 w := BitVec.and_allOnes
  have hrsv1 : fieldRsv1 w &&& 0xFF = fieldRsv1 w := BitVec.and_allOnes
  rw [Row.selects, Bool.and_eq_true, beq_iff_eq, and_eq_iff_fields, mopc, mrsv0, mrsv1, pn, prsv0, pimm8, prsv1, hopc,
    hrsv0, hrsv1]
  tauto

/-- The word a row selects is packed from the row's OPC and the word's operand fields. -/
theorem Row.word_of_selects {r : Row} {w : Word} (hr : r ∈ opcodeTable) (h : r.selects w = true) :
    packWord (fieldOpc r.pattern) (fieldN w) (fieldImm8 w) = w := by
  obtain ⟨hopc, hrsv0, hrsv1, -⟩ := (Row.selects_iff hr w).mp h
  rw [← hopc, packWord_fields hrsv0 hrsv1]

/-- At most one row selects a word, so the decoder's answer is that of any row that does (30_encoding.md R97). -/
theorem decode_of_selects {r : Row} {w : Word} (hr : r ∈ opcodeTable) (h : r.selects w = true) :
    decode w = .ok (r.make w) := by
  unfold decode
  split
  · next r' hfind =>
    have hr' := List.mem_of_find?_eq_some hfind
    have h' : r'.selects w = true := List.find?_some (p := (Row.selects · w)) hfind
    obtain ⟨hopc, -⟩ := (Row.selects_iff hr w).mp h
    obtain ⟨hopc', -⟩ := (Row.selects_iff hr' w).mp h'
    rw [List.inj_on_of_nodup_map opcodeTable_opcs_nodup hr' hr (hopc'.symm.trans hopc)]
  · next hfind => exact absurd h (List.find?_eq_none.mp hfind r hr)

/-- A legal word has a row that selects it. -/
theorem decode_eq_ok {w : Word} {i : Instr} (h : decode w = .ok i) :
    ∃ r ∈ opcodeTable, r.selects w = true ∧ r.make w = i := by
  unfold decode at h
  split at h
  · next r hfind =>
    exact ⟨r, List.mem_of_find?_eq_some hfind, List.find?_some (p := (Row.selects · w)) hfind, Except.ok.inj h⟩
  · cases h

/-! ### Decoder and encoder (30_encoding.md R97, R100) -/

/-- A packed word decodes by the row of its OPC, when that row leaves free the operand fields that are not 0. -/
theorem decode_packWord {r : Row} (hr : r ∈ opcodeTable) {n : BitVec 4} {imm8 : BitVec 8}
    (hn : n &&& fieldN r.mask = 0) (himm8 : imm8 &&& fieldImm8 r.mask = 0)
    (hextra : r.extra (packWord (fieldOpc r.pattern) n imm8) = true) :
    decode (packWord (fieldOpc r.pattern) n imm8) = .ok (r.make (packWord (fieldOpc r.pattern) n imm8)) := by
  refine decode_of_selects hr ((Row.selects_iff hr _).mpr ?_)
  rw [fieldOpc_packWord, fieldRsv0_packWord, fieldRsv1_packWord, fieldN_packWord, fieldImm8_packWord]
  exact ⟨rfl, rfl, rfl, hn, himm8, hextra⟩

theorem decode_encode_rdBits {n : BitVec 4} (h : countLegal n = true) :
    decode (encode (.rdBits n)) = .ok (.rdBits n) := by
  have hn : fieldN (packWord 0x12 n 0) = n := fieldN_packWord _ _ _
  have hrow := decode_packWord (r := opcodeTable[2]) (List.getElem_mem _) (n := n) (imm8 := 0)
    BitVec.and_zero BitVec.zero_and (show countLegal (fieldN (packWord 0x12 n 0)) = true by rwa [hn])
  exact hrow.trans (congrArg (fun m => Except.ok (Instr.rdBits m)) hn)

theorem decode_encode_wrBit (imm8 : Byte) : decode (encode (.wrBit imm8)) = .ok (.wrBit imm8) := by
  have himm8 : fieldImm8 (packWord 0x21 0 imm8) = imm8 := fieldImm8_packWord _ _ _
  have hrow := decode_packWord (r := opcodeTable[5]) (List.getElem_mem _) (n := 0) (imm8 := imm8)
    BitVec.zero_and BitVec.and_zero rfl
  exact hrow.trans (congrArg (fun b => Except.ok (Instr.wrBit b)) himm8)

theorem decode_encode_wrBits {n : BitVec 4} (imm8 : Byte) (h : countLegal n = true) :
    decode (encode (.wrBits n imm8)) = .ok (.wrBits n imm8) := by
  have hn : fieldN (packWord 0x22 n imm8) = n := fieldN_packWord _ _ _
  have himm8 : fieldImm8 (packWord 0x22 n imm8) = imm8 := fieldImm8_packWord _ _ _
  have hrow := decode_packWord (r := opcodeTable[6]) (List.getElem_mem _) (n := n) (imm8 := imm8)
    BitVec.and_zero BitVec.and_zero (show countLegal (fieldN (packWord 0x22 n imm8)) = true by rwa [hn])
  exact hrow.trans (congrArg₂ (fun m b => Except.ok (Instr.wrBits m b)) hn himm8)

/-- Settles O1: a command without operand has one word, and the row of each other command reads its operands back. -/
theorem decodeEncodeRoundTrip : Obligations.DecodeEncodeRoundTrip := by
  intro i hwf
  cases i with
  | rdBits n => exact decode_encode_rdBits hwf
  | wrBit imm8 => exact decode_encode_wrBit imm8
  | wrBits n imm8 => exact decode_encode_wrBits imm8 hwf
  | _ => rfl

/-- A row is faithful when the command it makes of a word it selects is well formed and has that word. -/
def Row.Faithful (r : Row) : Prop := ∀ w, r.selects w = true → (r.make w).wf = true ∧ encode (r.make w) = w

/-- A row that fixes every bit is faithful when its pattern is the command's word. -/
theorem plainRow_faithful {pattern : Word} {i : Instr} (hwf : i.wf = true) (hword : encode i = pattern) :
    (plainRow pattern i).Faithful := by
  intro w h
  have hall : w &&& 0xFFFFFFFF = w := BitVec.and_allOnes
  rw [Row.selects, Bool.and_eq_true, beq_iff_eq, plainRow, hall] at h
  exact ⟨hwf, hword.trans h.1.symm⟩

theorem rdBitsRow_faithful : opcodeTable[2].Faithful := by
  intro w h
  obtain ⟨-, -, -, -, himm8, hn⟩ := (Row.selects_iff (List.getElem_mem _) w).mp h
  have himm8 : fieldImm8 w = 0 := BitVec.and_allOnes.symm.trans himm8
  have hw := Row.word_of_selects (List.getElem_mem _) h
  rw [himm8] at hw
  exact ⟨hn, hw⟩

theorem wrBitRow_faithful : opcodeTable[5].Faithful := by
  intro w h
  obtain ⟨-, -, -, hn, -⟩ := (Row.selects_iff (List.getElem_mem _) w).mp h
  have hn : fieldN w = 0 := BitVec.and_allOnes.symm.trans hn
  have hw := Row.word_of_selects (List.getElem_mem _) h
  rw [hn] at hw
  exact ⟨rfl, hw⟩

theorem wrBitsRow_faithful : opcodeTable[6].Faithful := by
  intro w h
  obtain ⟨-, -, -, -, -, hn⟩ := (Row.selects_iff (List.getElem_mem _) w).mp h
  have hw := Row.word_of_selects (List.getElem_mem _) h
  exact ⟨hn, hw⟩

theorem opcodeTable_faithful : ∀ r ∈ opcodeTable, r.Faithful := by
  have plain {p : Word} {i : Instr} (hwf : i.wf = true) (hword : encode i = p) : (plainRow p i).Faithful :=
    plainRow_faithful hwf hword
  simp only [opcodeTable, List.forall_mem_append, List.forall_mem_cons]
  exact ⟨⟨plain rfl (by decide), plain rfl (by decide), rdBitsRow_faithful, plain rfl (by decide), plain rfl (by decide), wrBitRow_faithful,
      wrBitsRow_faithful, plain rfl (by decide), plain rfl (by decide), nofun⟩,
    plain rfl (by decide), plain rfl (by decide), plain rfl (by decide), plain rfl (by decide), plain rfl (by decide), plain rfl (by decide), plain rfl (by decide),
    plain rfl (by decide), plain rfl (by decide), nofun⟩

/-- Settles O2: the decoder's answer is the command of a row, and every row is faithful. -/
theorem encodeOfDecodeIsTheWord : Obligations.EncodeOfDecodeIsTheWord := by
  intro w i h
  obtain ⟨r, hr, hsel, rfl⟩ := decode_eq_ok h
  exact opcodeTable_faithful r hr w hsel

/-! ### Legal words (30_encoding.md R98) -/

/-- The operand fields a command word may hold with its OPC. -/
def OperandsLegal (opc : BitVec 8) (n : BitVec 4) (imm8 : BitVec 8) : Prop :=
  opc ∈ opcValues ∧ (opc ≠ 0x12 → opc ≠ 0x22 → n = 0) ∧ (opc ≠ 0x21 → opc ≠ 0x22 → imm8 = 0)
    ∧ (opc = 0x12 ∨ opc = 0x22 → n.toNat ≤ 8)

theorem encode_operandsLegal (i : Instr) (hwf : i.wf = true) :
    ∃ opc n imm8, encode i = packWord opc n imm8 ∧ OperandsLegal opc n imm8 := by
  cases i with
  | rdBits n => exact ⟨0x12, n, 0, rfl, by decide, nofun, fun _ _ => rfl, fun _ => of_decide_eq_true hwf⟩
  | wrBit imm8 => exact ⟨0x21, 0, imm8, rfl, by decide, fun _ _ => rfl, nofun, by decide⟩
  | wrBits n imm8 => exact ⟨0x22, n, imm8, rfl, by decide, nofun, nofun, fun _ => of_decide_eq_true hwf⟩
  | _ => exact ⟨_, 0, 0, rfl, by decide, fun _ _ => rfl, fun _ _ => rfl, fun _ => by decide⟩

theorem decode_packWord_legal {opc : BitVec 8} {n : BitVec 4} {imm8 : BitVec 8} (h : OperandsLegal opc n imm8) :
    ∃ i, decode (packWord opc n imm8) = .ok i := by
  obtain ⟨hopc, hn, himm8, hcount⟩ := h
  by_cases h12 : opc = 0x12
  · subst h12
    obtain rfl := himm8 (by decide) (by decide)
    exact ⟨_, decode_encode_rdBits (decide_eq_true (hcount (.inl rfl)))⟩
  by_cases h22 : opc = 0x22
  · subst h22
    exact ⟨_, decode_encode_wrBits imm8 (decide_eq_true (hcount (.inr rfl)))⟩
  obtain rfl := hn h12 h22
  by_cases h21 : opc = 0x21
  · subst h21
    exact ⟨_, decode_encode_wrBit imm8⟩
  obtain rfl := himm8 h21 h22
  have plain : ∀ v ∈ opcValues, (decode (packWord v 0 0)).isOk = true := by decide
  cases hd : decode (packWord opc 0 0) with
  | ok i => exact ⟨i, rfl⟩
  | error e =>
    have hok := plain opc hopc
    rw [hd] at hok
    cases hok

/-- The legal words, field by field. -/
theorem decode_ok_iff (w : Word) : (∃ i, decode w = .ok i) ↔
    fieldRsv0 w = 0 ∧ fieldRsv1 w = 0 ∧ OperandsLegal (fieldOpc w) (fieldN w) (fieldImm8 w) := by
  constructor
  · rintro ⟨i, h⟩
    obtain ⟨hwf, rfl⟩ := encodeOfDecodeIsTheWord w i h
    obtain ⟨opc, n, imm8, hword, hlegal⟩ := encode_operandsLegal i hwf
    rw [hword, fieldOpc_packWord, fieldN_packWord, fieldImm8_packWord]
    exact ⟨fieldRsv0_packWord _ _ _, fieldRsv1_packWord _ _ _, hlegal⟩
  · rintro ⟨hrsv0, hrsv1, hlegal⟩
    rw [← packWord_fields hrsv0 hrsv1]
    exact decode_packWord_legal hlegal

theorem decode_error_iff (w : Word) : (∃ e, decode w = .error e) ↔ ¬∃ i, decode w = .ok i := by
  cases decode w <;> simp

/-- Settles O3: the negation of `decode_ok_iff`. -/
theorem illegalWordsExactly : Obligations.IllegalWordsExactly := by
  intro w
  have hover : 9 ≤ (fieldN w).toNat ↔ ¬(fieldN w).toNat ≤ 8 := Nat.not_le.symm
  rw [decode_error_iff, decode_ok_iff, OperandsLegal, opcValues, hover]
  tauto

/-! ### Written-out words and the assembler (30_encoding.md R96, R100, R101) -/

/-- Settles O4: the legal words are those of their commands. -/
theorem sampleWordsDecode : Obligations.SampleWordsDecode :=
  ⟨decodeEncodeRoundTrip .rdInit rfl, decodeEncodeRoundTrip (.rdBits 3) rfl, decodeEncodeRoundTrip (.wrBit 0xFE) rfl,
    decodeEncodeRoundTrip (.wrBits 3 5) rfl, decodeEncodeRoundTrip .freqCount rfl, decodeEncodeRoundTrip .trieDeser rfl,
    decodeEncodeRoundTrip .extract rfl, by decide, by decide, by decide, by decide⟩

/-- A word packed from operands that fit their fields. -/
theorem packWord_ofNat (opc : BitVec 8) {n v : Nat} (hn : n < 16) (hv : v < 256) :
    packWord opc (BitVec.ofNat 4 n) (BitVec.ofNat 8 v)
      = (BitVec.ofNat 32 v <<< 16) ||| (BitVec.ofNat 32 n <<< 8) ||| opc.setWidth 32 := by
  rw [packWord, BitVec.setWidth_ofNat_of_le_of_lt (by omega) hn, BitVec.setWidth_ofNat_of_le_of_lt (by omega) hv]
  rw [BitVec.or_comm, BitVec.or_comm (x := opc.setWidth 32), BitVec.or_assoc]

theorem assemble_rdBits (n : Nat) :
    assemble (.rdBits n) = if n ≤ 8 then some ((BitVec.ofNat 32 n <<< 8) ||| 0x12) else none := by
  rw [assemble]
  split
  · next hn =>
    have hword := packWord_ofNat 0x12 (n := n) (v := 0) (by omega) (by omega)
    rw [BitVec.zero_shiftLeft, BitVec.zero_or] at hword
    exact congrArg some hword
  · rfl

theorem assemble_wrBit (b : Nat) :
    assemble (.wrBit b) = if b ≤ 1 then some ((BitVec.ofNat 32 b <<< 16) ||| 0x21) else none := by
  rw [assemble]
  split
  · next hb =>
    have hword := packWord_ofNat 0x21 (n := 0) (v := b) (by omega) (by omega)
    rw [BitVec.zero_shiftLeft, BitVec.or_zero] at hword
    exact congrArg some hword
  · rfl

theorem assemble_wrBits (n v : Nat) : assemble (.wrBits n v) =
    if n ≤ 8 ∧ v ≤ 255 then some ((BitVec.ofNat 32 v <<< 16) ||| (BitVec.ofNat 32 n <<< 8) ||| 0x22) else none := by
  rw [assemble]
  split
  · next h => exact congrArg some (packWord_ofNat 0x22 (by omega) (by omega))
  · rfl

/-- `WR_BYTE v` is `WR_BITS 8, v` (30_encoding.md R101). -/
theorem assemble_wrByte (v : Nat) :
    assemble (.wrByte v) = if v ≤ 255 then some ((BitVec.ofNat 32 v <<< 16) ||| 0x00000822) else none := by
  rw [assemble]
  split
  · next hv =>
    have hword := packWord_ofNat 0x22 (n := 8) (v := v) (by omega) (by omega)
    rw [BitVec.or_assoc] at hword
    exact congrArg some hword
  · rfl

/-- Settles O5: RD_SKIP is RD_BITS, and WR_U32 writes ARG and then the word of WR_U32BE. -/
theorem assemblerEncodes : Obligations.AssemblerEncodes :=
  ⟨assemble_rdBits, assemble_wrBit, assemble_wrBits, by decide, fun _ _ => ⟨rfl, rfl, rfl⟩, by decide, assemble_wrByte,
    assemble_rdBits, fun _ _ => rfl⟩

end Sys2Proof

namespace Sys2Proof.Machine

/-! ### Don't-care bits (30_encoding.md R93) -/

theorem lowBits_congr {n : Nat} {a b : Byte} (h : ∀ j < n, a.getLsbD j = b.getLsbD j) : lowBits n a = lowBits n b :=
  List.map_congr_left fun i hi => h _ (by have := List.mem_range.mp hi; omega)

/-- Settles O6: WR_BIT reads one bit of IMM8, and WR_BITS writes the low N bits of it. -/
theorem dontCareBitsHaveNoEffect : Obligations.DontCareBitsHaveNoEffect := by
  intro s a b
  constructor
  · intro h
    show execWrBit a s = execWrBit b s
    simp only [execWrBit, wrBitBody, operandBit, h]
  · intro n h
    show execWrBits n a s = execWrBits n b s
    simp only [execWrBits, wrBitsBody, wrBits_eq, operandCount, lowBits_congr h]

/-! ### The Core's turn (60_exceptions.md R241) -/

theorem coreTurn_run {s : State} {i : Instr} (hbusy : s.status.busy = true) (hdec : decode s.cmd = .ok i) :
    coreTurn s = .run i s := by
  rw [coreTurn, if_pos hbusy, hdec]

/-- Settles O7: in each case the turn is the Core's. -/
theorem stepRunsDecodedCommand : Obligations.StepRunsDecodedCommand := by
  intro s i hbusy hdec
  have hrun := coreTurn_run hbusy hdec
  refine ⟨fun hhost => step_run ?_, fun rest hhost => step_run ?_, fun rest hhost => step_run ?_⟩
  · rw [turn, hhost]
    exact hrun
  · rw [turn, hhost]
    exact coreTurn_run hbusy hdec
  · rw [turn, hhost]
    exact (if_pos hbusy).trans hrun

end Sys2Proof.Machine
end

section
/-! PROOFS. The nine commands of the bit-stream reader and writer: their words, and what each does to the state
(40_bitstream.md R110 to R126). -/

namespace Sys2Proof

/-! ### Command words with operands (30_encoding.md R91, R98, R100) -/

theorem packWord_eq (opc : BitVec 8) (n : BitVec 4) (imm8 : BitVec 8) :
    packWord opc n imm8 = (imm8.setWidth 32 <<< 16) ||| (n.setWidth 32 <<< 8) ||| opc.setWidth 32 := by
  rw [packWord, BitVec.or_comm, BitVec.or_comm (x := opc.setWidth 32), BitVec.or_assoc]

theorem encode_rdBits (n : BitVec 4) : encode (.rdBits n) = (n.setWidth 32 <<< 8) ||| 0x12 :=
  (packWord_eq 0x12 n 0).trans (by simp)

theorem encode_wrBit (imm8 : Byte) : encode (.wrBit imm8) = (imm8.setWidth 32 <<< 16) ||| 0x21 :=
  (packWord_eq 0x21 0 imm8).trans (by simp)

theorem encode_wrBits (n : BitVec 4) (imm8 : Byte) :
    encode (.wrBits n imm8) = (imm8.setWidth 32 <<< 16) ||| (n.setWidth 32 <<< 8) ||| 0x22 :=
  packWord_eq 0x22 n imm8

/-- N over 8 makes the word of a counted command illegal (30_encoding.md R98). -/
theorem decode_packWord_countOver8 {opc : BitVec 8} {n : BitVec 4} (imm8 : BitVec 8) (hopc : opc = 0x12 ∨ opc = 0x22)
    (hn : 8 < n.toNat) : ∃ e, decode (packWord opc n imm8) = .error e := by
  rw [decode_error_iff, decode_ok_iff, fieldOpc_packWord, fieldN_packWord]
  rintro ⟨-, -, -, -, -, hcount⟩
  exact absurd (hcount hopc) (Nat.not_le.mpr hn)

end Sys2Proof

namespace Sys2Proof.Machine

/-! ### The answer of a command by its checks and the end of its body (60_exceptions.md R241, R245, R246, R249) -/

theorem exec_badState {i : Instr} {s : State} (hneeds : (needs s i).all id = false) :
    exec i s = .next (s.raise .badState) :=
  (exec_eq i s).trans (guarded_badState _ _ _ _ hneeds)

theorem exec_inRange {i : Instr} {s : State} (hneeds : (needs s i).all id = true) (hcheck : checksInLen i = true)
    (hlen : s.params.inCap < s.inLen.toNat) : exec i s = .next (s.raise .inRange) := by
  have hrange : s.inLenInRange = false := decide_eq_false (Nat.not_le.mpr hlen)
  rw [exec_eq, hcheck, hrange]
  exact guarded_inRange _ _ _ hneeds

/-- Past its checks a command's answer is the end of its body. -/
theorem exec_checked {i : Instr} {s : State} (hneeds : (needs s i).all id = true)
    (hlen : checksInLen i = true → s.inLen.toNat ≤ s.params.inCap) :
    exec i s = if writesWriter i then (bodyOf i s).finishWriter else (bodyOf i s).finish := by
  rw [exec_eq]
  refine guarded_pass _ _ _ _ hneeds ?_
  cases hcheck : checksInLen i with
  | false => rfl
  | true => exact decide_eq_true (hlen hcheck)

theorem exec_ok {i : Instr} {s t : State} (hneeds : (needs s i).all id = true)
    (hlen : checksInLen i = true → s.inLen.toNat ≤ s.params.inCap) (hbody : bodyOf i s = .ok t) :
    exec i s = .next t.complete := by
  rw [exec_checked hneeds hlen, hbody]
  cases writesWriter i <;> rfl

theorem exec_error {i : Instr} {s t : State} {c : ErrCode} (hneeds : (needs s i).all id = true)
    (hlen : checksInLen i = true → s.inLen.toNat ≤ s.params.inCap) (hbody : bodyOf i s = .error c t) :
    exec i s = .next ((t.afterError i).raise c) := by
  rw [exec_checked hneeds hlen, hbody, State.afterError]
  cases writesWriter i <;> rfl

/-! ### Reader commands (40_bitstream.md R117 to R121) -/

/-- A value read goes to RESULT and leaves EXH (40_bitstream.md R117; 10_state.md R26). -/
theorem State.deliver_some (s : State) (v pos : Word) :
    s.deliver (some v) pos = { s with result := v, rdPos := pos } := by
  simp [State.deliver, State.noteExhausted]

/-- An exhausted read leaves 0 in RESULT and sets EXH (40_bitstream.md R117; 10_state.md R26). -/
theorem State.deliver_none (s : State) (pos : Word) :
    s.deliver none pos = { s with result := 0, rdPos := pos, status := { s.status with exh := true } } := by
  simp [State.deliver, State.noteExhausted]

theorem lowBits_eq_stream_iff (n : Nat) (v : Byte) (m : Memory) (p : Nat) :
    lowBits n v = m.stream p n ↔ ∀ j < n, v.getLsbD (n - 1 - j) = m.streamBit (p + j) := by
  simp [lowBits, Memory.stream]

theorem wordBits_eq_stream_iff (v : Word) (m : Memory) (p : Nat) :
    wordBits v = m.stream p 32 ↔ ∀ j < 32, v.getLsbD (31 - j) = m.streamBit (p + j) := by
  simp [wordBits, Memory.stream]

/-- A byte in a word keeps its bits; those above it are 0. -/
theorem getLsbD_byte_setWidth (v : Byte) (i : Nat) : (v.setWidth 32).getLsbD i = v.getLsbD i := by
  rw [BitVec.getLsbD_setWidth, Bool.and_eq_right_iff_imp, decide_eq_true_eq]
  exact fun hset => (BitVec.lt_of_getLsbD hset).trans (by decide)

/-- Settles O31: past its one check RD_INIT always succeeds. -/
theorem rdInitStartsTheReader : Obligations.RdInitStartsTheReader :=
  ⟨decodeEncodeRoundTrip .rdInit rfl, fun _ =>
    ⟨fun hover => exec_inRange rfl rfl hover, fun hlen => exec_ok rfl (fun _ => hlen) rfl⟩⟩

theorem rdBitBody_more (s : State) (h : s.rdPos ≠ s.rdEnd) : rdBitBody s = .ok { s with
    result := if (s.inMem.read (s.rdPos.toNat / 8)).getLsbD (7 - s.rdPos.toNat % 8) then 1 else 0
    rdPos := s.rdPos + 1 } := by
  have hbit (b : Bool) : (bitAsByte b).setWidth 32 = if b then 1 else (0 : Word) := by cases b <;> rfl
  simp only [rdBitBody, rdBit, if_neg h, Option.map_some, State.deliver_some, hbit, Memory.streamBit, byteStreamBit]

theorem rdBitBody_end (s : State) (h : s.rdPos = s.rdEnd) :
    rdBitBody s = .ok { s with result := 0, status := { s.status with exh := true } } := by
  simp only [rdBitBody, ← h, rdBit_end, Option.map_none, State.deliver_none]

/-- Settles O32: one `rd_bit()` before the end of the stream and at it. -/
theorem rdBitReadsOneBit : Obligations.RdBitReadsOneBit :=
  ⟨decodeEncodeRoundTrip .rdBit rfl, fun s => ⟨fun hrd => exec_badState (by simp [needs, hrd]),
    fun hrd hmore => exec_ok (by simp [needs, hrd]) nofun (rdBitBody_more s hmore),
    fun hrd hend => exec_ok (by simp [needs, hrd]) nofun (rdBitBody_end s hend)⟩⟩

theorem rdBitsBody_enough (n : BitVec 4) (s : State) (hn : n.toNat ≤ 8) (h : s.rdPos.toNat + n.toNat ≤ s.rdEnd.toNat) :
    ∃ r : Word, rdBitsBody n s = .ok { s with result := r, rdPos := s.rdPos + n.setWidth 32 }
      ∧ r.toNat < 2 ^ n.toNat ∧ ∀ j < n.toNat, r.getLsbD (n.toNat - 1 - j) = s.inMem.streamBit (s.rdPos.toNat + j) := by
  obtain ⟨r, hread, hbits, hhigh⟩ := rdBits_enough s.inMem s.rdEnd n.toNat s.rdPos hn h
  refine ⟨r.setWidth 32, ?_, Nat.lt_pow_two_of_testBit _ fun i hi => ?_, fun j hj => ?_⟩
  · simp only [rdBitsBody, operandCount, hread, Option.map_some, State.deliver_some, BitVec.ofNat_toNat]
  · exact (getLsbD_byte_setWidth r i).trans (hhigh i hi)
  · exact (getLsbD_byte_setWidth r _).trans ((lowBits_eq_stream_iff _ _ _ _).mp hbits j hj)

theorem rdBitsBody_short (n : BitVec 4) (s : State) (h : s.rdPos.toNat ≤ s.rdEnd.toNat)
    (hshort : s.rdEnd.toNat < s.rdPos.toNat + n.toNat) :
    rdBitsBody n s = .ok { s with result := 0, rdPos := s.rdEnd, status := { s.status with exh := true } } := by
  simp only [rdBitsBody, operandCount, rdBits_short _ _ _ _ h hshort, Option.map_none, State.deliver_none]

/-- Settles O33: `rd_bits(n)` with n bits left and with fewer; a word with N over 8 is illegal. -/
theorem rdBitsReadsNBits : Obligations.RdBitsReadsNBits := by
  constructor
  · intro s n hn
    refine ⟨?_, fun hrd => exec_badState (by simp [needs, hrd]), fun hrd henough => ?_, fun hrd hle hshort =>
      exec_ok (by simp [needs, hrd]) nofun (rdBitsBody_short n s hle hshort)⟩
    · rw [← encode_rdBits]
      exact decode_encode_rdBits (decide_eq_true hn)
    · obtain ⟨r, hbody, hbits⟩ := rdBitsBody_enough n s hn henough
      exact ⟨r, exec_ok (by simp [needs, hrd]) nofun hbody, hbits⟩
  · intro n hn
    rw [← encode_rdBits]
    exact decode_packWord_countOver8 0 (.inl rfl) hn

theorem rdU32beBody_enough (s : State) (h : s.rdPos.toNat + 32 ≤ s.rdEnd.toNat) :
    ∃ r : Word, rdU32beBody s = .ok { s with result := r, rdPos := s.rdPos + 32 }
      ∧ ∀ j < 32, r.getLsbD (31 - j) = s.inMem.streamBit (s.rdPos.toNat + j) := by
  obtain ⟨r, hread, hbits⟩ := rdU32be_enough s.inMem s.rdEnd s.rdPos h
  refine ⟨r, ?_, (wordBits_eq_stream_iff _ _ _).mp hbits⟩
  simp only [rdU32beBody, hread, State.deliver_some]

theorem rdU32beBody_short (s : State) (h : s.rdPos.toNat ≤ s.rdEnd.toNat)
    (hshort : s.rdEnd.toNat < s.rdPos.toNat + 32) :
    rdU32beBody s = .ok { s with result := 0, rdPos := s.rdEnd, status := { s.status with exh := true } } := by
  simp only [rdU32beBody, rdU32be_short _ _ _ h hshort, State.deliver_none]

/-- Settles O34: `rd_u32be()` with 32 bits left and with fewer. -/
theorem rdU32beReadsBigEndian : Obligations.RdU32beReadsBigEndian := by
  refine ⟨decodeEncodeRoundTrip .rdU32be rfl, fun s => ⟨fun hrd => exec_badState (by simp [needs, hrd]),
    fun hrd henough => ?_, fun hrd hle hshort => exec_ok (by simp [needs, hrd]) nofun (rdU32beBody_short s hle hshort)⟩⟩
  obtain ⟨r, hbody, hbits⟩ := rdU32beBody_enough s henough
  exact ⟨r, exec_ok (by simp [needs, hrd]) nofun hbody, hbits⟩

/-! ### Writer commands (40_bitstream.md R122 to R126) -/

/-- A stream position in OUT_MEM fits in a register (10_state.md R30). -/
theorem Params.outBits_lt_of_wf {p : Params} (h : p.wf = true) : 8 * p.outCap < 2 ^ 32 := by
  obtain ⟨-, -, -, hcap, -⟩ := (Params.wf_iff p).mp h
  omega

theorem wrSeq_singleton (cap : Nat) (b : Bool) (w : Writer) : wrSeq cap [b] w = wrBit cap b w := by
  rw [wrSeq]
  cases wrBit cap b w <;> rfl

/-- A command that needs WR_VALID alone and whose body writes the bits `bs` and nothing else (40_bitstream.md R123 to
R125). -/
structure Writes (i : Instr) (s : State) (bs : List Bool) : Prop where
  writer : writesWriter i = true
  unchecked : checksInLen i = false
  flags : needs s i = [s.valid.wr]
  body : bodyOf i s = s.wrote (wrSeq s.params.outCap bs s.writer)

theorem wrBit_writes (imm8 : Byte) (s : State) : Writes (.wrBit imm8) s [imm8.getLsbD 0] :=
  ⟨rfl, rfl, rfl, congrArg s.wrote (wrSeq_singleton _ _ _).symm⟩

theorem wrBits_writes (n : BitVec 4) (imm8 : Byte) (s : State) : Writes (.wrBits n imm8) s (lowBits n.toNat imm8) :=
  ⟨rfl, rfl, rfl, congrArg s.wrote (wrBits_eq _ _ _ _)⟩

theorem wrU32be_writes (s : State) : Writes .wrU32be s (wordBits s.arg) :=
  ⟨rfl, rfl, rfl, congrArg s.wrote (wrU32be_eq _ _ _)⟩

/-- Without WR_VALID nothing is written (60_exceptions.md R249). -/
theorem Writes.exec_badState {i : Instr} {s : State} {bs : List Bool} (h : Writes i s bs) (hwr : s.valid.wr = false) :
    exec i s = .next (s.raise .badState) :=
  Machine.exec_badState (by simp [h.flags, hwr])

/-- Bits that fit in OUT_MEM are appended (40_bitstream.md R113, R116). -/
theorem Writes.exec_fits {i : Instr} {s : State} {bs : List Bool} (h : Writes i s bs) (hwr : s.valid.wr = true)
    (hparams : s.params.wf = true) (hmem : s.outMem.wf = true)
    (hfits : s.wrPos.toNat + bs.length ≤ 8 * s.params.outCap) :
    ∃ m, exec i s = .next ({ s with wrPos := s.wrPos + BitVec.ofNat 32 bs.length, outMem := m }).complete
      ∧ Appended s.outMem m s.wrPos.toNat bs := by
  obtain ⟨w, hseq, hpos, -, -, -, happ, -⟩ :=
    wrSeq_fits s.params.outCap bs s.writer (Params.outBits_lt_of_wf hparams) hmem hfits
  have hbody := h.body
  rw [hseq, wrote_some, State.setWriter, hpos] at hbody
  exact ⟨w.mem, exec_ok (by simp [h.flags, hwr]) (by simp [h.unchecked]) hbody, happ⟩

/-- Bits that do not fit end the command with OUT_OVERFLOW and an empty writer (60_exceptions.md R246). -/
theorem Writes.exec_over {i : Instr} {s : State} {bs : List Bool} (h : Writes i s bs) (hwr : s.valid.wr = true)
    (hcap : 8 * s.params.outCap < 2 ^ 32) (hpos : s.wrPos.toNat ≤ 8 * s.params.outCap)
    (hover : 8 * s.params.outCap < s.wrPos.toNat + bs.length) :
    exec i s = .next (s.emptyWriter.raise .outOverflow) := by
  have hbody := h.body
  rw [wrSeq_over _ bs s.writer hcap hpos hover, wrote_none] at hbody
  rw [exec_error (by simp [h.flags, hwr]) (by simp [h.unchecked]) hbody, State.afterError, if_pos h.writer]

/-- Settles O35: WR_INIT has no check and no error. -/
theorem wrInitEmptiesTheWriter : Obligations.WrInitEmptiesTheWriter :=
  ⟨decodeEncodeRoundTrip .wrInit rfl, fun _ => exec_ok rfl nofun rfl⟩

/-- Settles O36: WR_BIT writes the one bit IMM8[0]. -/
theorem wrBitAppendsOneBit : Obligations.WrBitAppendsOneBit := by
  intro s v
  have hw := wrBit_writes v s
  refine ⟨?_, hw.exec_badState, hw.exec_fits, fun hwr hfull => ?_⟩
  · rw [← encode_wrBit]
    exact decode_encode_wrBit v
  · have hpos := s.wrPos.isLt
    exact hw.exec_over hwr (by omega) (by omega) (by simp [hfull])

theorem length_lowBits (n : Nat) (v : Byte) : (lowBits n v).length = n := by simp [lowBits]

/-- Settles O37: WR_BITS writes the n low bits of IMM8; a word with N over 8 is illegal. -/
theorem wrBitsAppendsNBits : Obligations.WrBitsAppendsNBits := by
  constructor
  · intro s n v hn
    have hw := wrBits_writes n v s
    have hfits := hw.exec_fits
    have hover := hw.exec_over
    rw [length_lowBits] at hfits hover
    rw [BitVec.ofNat_toNat] at hfits
    refine ⟨?_, hw.exec_badState, hfits, fun hwr hparams => hover hwr (Params.outBits_lt_of_wf hparams)⟩
    rw [← encode_wrBits]
    exact decode_encode_wrBits v (decide_eq_true hn)
  · intro n v hn
    rw [← encode_wrBits]
    exact decode_packWord_countOver8 v (.inr rfl) hn

/-- Settles O38: WR_U32BE writes the 32 bits of ARG. -/
theorem wrU32beAppendsArg : Obligations.WrU32beAppendsArg := by
  refine ⟨decodeEncodeRoundTrip .wrU32be rfl, fun s => ?_⟩
  have hw := wrU32be_writes s
  have hfits := hw.exec_fits
  have hover := hw.exec_over
  rw [length_wordBits] at hfits hover
  exact ⟨hw.exec_badState, hfits, fun hwr hparams => hover hwr (Params.outBits_lt_of_wf hparams)⟩

/-- Settles O39: past its one check WR_DUMP always succeeds. -/
theorem wrDumpFinishesTheBuffer : Obligations.WrDumpFinishesTheBuffer :=
  ⟨decodeEncodeRoundTrip .wrDump rfl, fun _ => ⟨fun hwr => exec_badState (by simp [needs, hwr]),
    fun hwr => exec_ok (by simp [needs, hwr]) nofun rfl⟩⟩

end Sys2Proof.Machine
end

section
/-! PROOFS. The frequency analyzer: the counting loop against the number of input bytes of each value (41_frequency.md R140,
R141). -/

namespace Sys2Proof.Machine

/-! ### The number of input bytes of a value -/

/-- How many of the first `n` bytes of `m` have the value `v`. -/
def byteCount (m : Memory) (n v : Nat) : Nat :=
  ((List.range n).filter fun k => decide ((m.read k).toNat = v)).length

theorem byteCount_le (m : Memory) (n v : Nat) : byteCount m n v ≤ n :=
  (List.length_filter_le ..).trans_eq List.length_range

/-- Every byte has one of the 256 values, so the counts of all values partition the input. -/
theorem sum_byteCount (m : Memory) (n : Nat) : ((List.range 256).map (byteCount m n)).sum = n := by
  have hvalue : Set.MapsTo (fun k => (m.read k).toNat) (Finset.range n : Set Nat) (Finset.range 256 : Set Nat) :=
    fun k _ => Finset.mem_coe.mpr (Finset.mem_range.mpr (m.read k).isLt)
  calc ((List.range 256).map (byteCount m n)).sum
      = ∑ v ∈ Finset.range 256, ((Finset.range n).filter fun k => (m.read k).toNat = v).card := rfl
    _ = (Finset.range n).card := (Finset.card_eq_sum_card_fiberwise hvalue).symm
    _ = n := Finset.card_range n

/-! ### The counting loop (41_frequency.md R140) -/

/-- The loop adds to counter `v` the number of bytes of `IN[k..k + n)` with the value `v`. -/
theorem getElem?_countFrom (m : Memory) (n k v : Nat) (t : List Word) : (countFrom m n k t)[v]? =
    t[v]?.map (· + BitVec.ofNat 32 ((List.range' k n).filter fun j => decide ((m.read j).toNat = v)).length) := by
  induction n generalizing k t with
  | zero => simp [countFrom]
  | succ n ih =>
    rw [countFrom, ih, bumpCount, List.getElem?_modify, List.range'_succ]
    by_cases hv : (m.read k).toNat = v
    · simp [hv, Function.comp_def, BitVec.ofNat_add, BitVec.add_assoc, BitVec.add_comm]
    · simp [hv]

theorem countFrom_zeroCounts (m : Memory) (n : Nat) :
    countFrom m n 0 zeroCounts = (List.range 256).map fun v => BitVec.ofNat 32 (byteCount m n v) := by
  refine List.ext_getElem? fun v => ?_
  rw [getElem?_countFrom, ← List.range_eq_range', zeroCounts, List.getElem?_replicate, List.getElem?_map]
  by_cases hv : v < 256
  · rw [if_pos hv, List.getElem?_range hv]
    exact congrArg some (BitVec.zero_add _)
  · rw [if_neg hv, List.getElem?_eq_none (by simpa using hv)]
    rfl

/-- Settles O40: past its check FREQ_COUNT stores the table of the counting loop. -/
theorem freqCountCountsTheInput : Obligations.FreqCountCountsTheInput := by
  refine ⟨decodeEncodeRoundTrip .freqCount rfl, fun s => ⟨exec_inRange rfl rfl, fun hlen => ?_⟩⟩
  refine exec_ok rfl (fun _ => hlen) ?_
  rw [bodyOf, freqCountBody, countFrom_zeroCounts]
  rfl

/-! ### The counters sum to IN_LEN (41_frequency.md R141) -/

/-- The table FREQ_COUNT leaves. -/
def State.inputCounts (s : State) : List Word := countFrom s.inMem s.inLen.toNat 0 zeroCounts

theorem State.length_inputCounts (s : State) : s.inputCounts.length = 256 := by
  simp [inputCounts, countFrom_zeroCounts]

/-- No counter wraps, because it counts at most IN_LEN bytes. -/
theorem State.sum_inputCounts (s : State) : (s.inputCounts.map BitVec.toNat).sum = s.inLen.toNat := by
  have hcount : BitVec.toNat ∘ (fun v => BitVec.ofNat 32 (byteCount s.inMem s.inLen.toNat v)) =
      byteCount s.inMem s.inLen.toNat := by
    funext v
    exact (BitVec.toNat_ofNat ..).trans (Nat.mod_eq_of_lt ((byteCount_le ..).trans_lt s.inLen.isLt))
  rw [inputCounts, countFrom_zeroCounts, List.map_map, hcount, sum_byteCount]

/-- What every body of a composition keeps, the composition keeps (46_orchestrator.md R220, R222). -/
theorem Ran.Ends.thenAll {P : State → Prop} {r : Ran} (hr : r.Ends P P) (js : List Instr)
    (hjs : ∀ j ∈ js, ∀ u, P u → (bodyOf j u).Ends P P) : (r.thenAll js).Ends P P := by
  induction js generalizing r with
  | nil => exact hr
  | cons j js ih =>
    exact ih (hr.andThen (hjs j List.mem_cons_self)) fun k hk => hjs k (List.mem_cons_of_mem _ hk)

/-- COMPRESS counts first, and no later part writes FREQ (46_orchestrator.md R220). -/
theorem compressBody_freq (s : State) :
    (compressBody s).Ends (fun u => u.freq = s.inputCounts) fun u => u.freq = s.inputCounts := by
  have counted : (freqCountBody s).Ends (fun u => u.freq = s.inputCounts) fun u => u.freq = s.inputCounts :=
    rfl
  refine counted.thenAll compressParts.tail fun j hj u hu => ?_
  have hcount : j ≠ .freqCount := ne_of_mem_of_not_mem hj (by decide)
  have hcompress : j ≠ .compress := ne_of_mem_of_not_mem hj (by decide)
  have keeps : ∀ v, WritesOnly j u v → v.freq = s.inputCounts := fun v ⟨_, hfreq, _⟩ =>
    (hfreq hcount hcompress).1.trans hu
  exact (bodyOf_writesOnly j u).mono keeps keeps

@[simp] theorem State.afterError_freq (i : Instr) (s : State) : (s.afterError i).freq = s.freq := by
  unfold State.afterError
  split <;> rfl

/-- Past its checks a command leaves the FREQ its body ends with, well or in an error. -/
theorem exec_freq {i : Instr} {s t : State} {c : List Word} (hneeds : (needs s i).all id = true)
    (hlen : s.inLen.toNat ≤ s.params.inCap) (hbody : (bodyOf i s).Ends (fun u => u.freq = c) fun u => u.freq = c)
    (h : exec i s = .next t) : t.freq = c := by
  rcases exec_next i s t h with ⟨hf, -⟩ | ⟨-, -, hover, -⟩ | ⟨-, -, ⟨u, hu, rfl⟩ | ⟨e, u, hu, rfl⟩⟩
  · simp [hneeds] at hf
  · omega
  · rw [hu] at hbody
    exact hbody
  · rw [hu] at hbody
    exact (State.afterError_freq i u).trans hbody

/-- Settles O41: both commands leave the counts of the input, whatever ends them. -/
theorem frequenciesSumToInputLength : Obligations.FrequenciesSumToInputLength := by
  intro i s t hi hlen h
  have hfreq : t.freq = s.inputCounts := by
    rcases hi with rfl | rfl
    · exact exec_freq (i := .freqCount) rfl hlen rfl h
    · exact exec_freq (i := .compress) rfl hlen (compressBody_freq s) h
  rw [hfreq]
  exact ⟨s.length_inputCounts, s.sum_inputCounts⟩

end Sys2Proof.Machine
end

section
/-! PROOFS. The trie builder: the priority queue holds the arena's roots, each merge joins its least pair, and the leaves stand
by rank of their byte value (42_trie_builder.md R150 to R157). -/

namespace Sys2Proof.Machine

/-! ### The least element of the queue (42_trie_builder.md R154, R155) -/

theorem QItem.before_iff (a b : QItem) : a.before b = true ↔
    a.freq.toNat < b.freq.toNat ∨ a.freq.toNat = b.freq.toNat ∧ a.idx < b.idx := by
  simp [QItem.before, BitVec.toNat_inj]

theorem QItem.not_before_trans {a b c : QItem} (hab : ¬a.before b = true) (hbc : ¬b.before c = true) :
    ¬a.before c = true := by
  rw [before_iff] at *
  omega

theorem not_before_leastItem (x : QItem) (xs : List QItem) : ∀ y ∈ x :: xs, ¬y.before (leastItem x xs) = true := by
  induction xs generalizing x with
  | nil => simp [leastItem, QItem.before_iff]
  | cons z zs ih =>
    have hkept : ∀ y, y = x ∨ y = z → ¬y.before (if z.before x then z else x) = true := by
      intro y hy
      simp only [QItem.before_iff]
      split <;> rcases hy with rfl | rfl <;> omega
    intro y hy
    rw [leastItem]
    by_cases hzs : y ∈ zs
    · exact ih _ y (List.mem_cons_of_mem _ hzs)
    · have hxz : y = x ∨ y = z := by simpa [hzs] using hy
      exact QItem.not_before_trans (hkept y hxz) (ih _ _ List.mem_cons_self)

/-- The free choice of `ANY` is among the elements of least frequency (42_trie_builder.md R155). -/
theorem choose_freq (pol : TiePolicy) (d pop : Nat) (x : QItem) (xs : List QItem) :
    (choose pol d pop x xs).freq = (leastItem x xs).freq := by
  cases pol with
  | index => rfl
  | any =>
    simp only [choose]
    generalize Config.freePick d pop % _ = j
    cases h : ((x :: xs).filter fun y => decide (y.freq = (leastItem x xs).freq))[j]? with
    | none => rfl
    | some y => simpa using (List.mem_filter.mp (List.mem_of_getElem? h)).2

/-- What a pop may rely on between the element it takes and one it leaves: the order of `INDEX` (42_trie_builder.md R154), or
only that of the frequencies (R155). -/
def QItem.precedes : TiePolicy → QItem → QItem → Prop
  | .index, a, b => a.before b = true
  | .any, a, b => a.freq.toNat ≤ b.freq.toNat

theorem QItem.precedes.freq_le {pol : TiePolicy} {a b : QItem} (h : a.precedes pol b) : a.freq.toNat ≤ b.freq.toNat := by
  cases pol with
  | index =>
    have := (before_iff a b).mp h
    omega
  | any => exact h

theorem choose_precedes (pol : TiePolicy) (d pop : Nat) (x y : QItem) (xs : List QItem) (hy : y ∈ x :: xs)
    (hne : (choose pol d pop x xs).idx ≠ y.idx) : (choose pol d pop x xs).precedes pol y := by
  have hleast := not_before_leastItem x xs y hy
  rw [QItem.before_iff, ← choose_freq pol d pop x xs] at hleast
  cases pol with
  | index =>
    change ¬(_ ∨ _ ∧ y.idx < (choose .index d pop x xs).idx) at hleast
    refine (QItem.before_iff _ _).mpr ?_
    omega
  | any => exact show _ ≤ _ by omega

/-- A pop takes an element that precedes all it leaves (42_trie_builder.md R154, R155). -/
theorem popMin_precedes {pol : TiePolicy} {d pop : Nat} {q q' : List QItem} {a : QItem} (hn : (q.map QItem.idx).Nodup)
    (h : popMin pol d pop q = some (a, q')) : ∀ x ∈ q', a.precedes pol x := by
  intro y hy
  have hperm := popMin_perm pol d pop q q' a hn h
  have hne : a.idx ≠ y.idx := fun he =>
    (List.nodup_cons.mp ((hperm.map QItem.idx).nodup_iff.mp hn)).1 (List.mem_map.mpr ⟨y, hy, he.symm⟩)
  have hmem : y ∈ q := hperm.mem_iff.mpr (List.mem_cons_of_mem _ hy)
  cases q with
  | nil => cases hmem
  | cons x xs =>
    obtain ⟨rfl, -⟩ := Prod.mk.inj (Option.some.inj h)
    exact choose_precedes pol d pop x y xs hmem hne

/-! ### Arena entries while the arena grows -/

/-- The queue element of arena entry `i` (42_trie_builder.md R153). -/
def nodeItem (ns : List Node) (i : Nat) : QItem := ⟨freqOf ns i, i⟩

theorem comesBefore_iff (ns : List Node) (i j : Nat) :
    comesBefore ns i j ↔ (nodeItem ns i).before (nodeItem ns j) = true := by
  rw [QItem.before_iff, comesBefore, BitVec.toNat_inj, nodeItem, nodeItem]

theorem freqOf_append {ns : List Node} {i : Nat} (ms : List Node) (hi : i < ns.length) :
    freqOf (ns ++ ms) i = freqOf ns i := by
  rw [freqOf, freqOf, List.getElem?_append_left hi]

theorem nodeItem_append {ns : List Node} {i : Nat} (ms : List Node) (hi : i < ns.length) :
    nodeItem (ns ++ ms) i = nodeItem ns i := by
  rw [nodeItem, nodeItem, freqOf_append ms hi]

theorem queuedAt_append {ns : List Node} {m : Nat} (ms : List Node) (i : Nat) (hm : m ≤ ns.length) :
    queuedAt (ns ++ ms) m i ↔ queuedAt ns m i := by
  refine and_congr_right fun _ => forall₂_congr fun k hk => ?_
  rw [List.getElem?_append_left (hk.trans_le hm)]

/-- Node `m` of the arena joins the least pair of the queue at its making: what R155 of 42_trie_builder.md says of it and, under
`INDEX`, R154. -/
structure LeastPair (pol : TiePolicy) (ns : List Node) (m : Nat) (f : Word) (l r : Nat) : Prop where
  left : queuedAt ns m l
  right : queuedAt ns m r
  ne : l ≠ r
  sum : f = freqOf ns l + freqOf ns r
  order : pol = .index → (nodeItem ns l).before (nodeItem ns r) = true
  least : ∀ i, queuedAt ns m i → i ≠ l → i ≠ r →
    (nodeItem ns l).precedes pol (nodeItem ns i) ∧ (nodeItem ns r).precedes pol (nodeItem ns i)

theorem LeastPair.append {pol : TiePolicy} {ns : List Node} {m l r : Nat} {f : Word} (h : LeastPair pol ns m f l r)
    (ms : List Node) (hm : m ≤ ns.length) : LeastPair pol (ns ++ ms) m f l r := by
  have hl : l < ns.length := h.left.1.trans_le hm
  have hr : r < ns.length := h.right.1.trans_le hm
  refine ⟨(queuedAt_append ms l hm).mpr h.left, (queuedAt_append ms r hm).mpr h.right, h.ne, ?_, ?_, fun i hi hil hir => ?_⟩
  · rw [freqOf_append ms hl, freqOf_append ms hr, h.sum]
  · rw [nodeItem_append ms hl, nodeItem_append ms hr]
    exact h.order
  · rw [queuedAt_append ms i hm] at hi
    rw [nodeItem_append ms hl, nodeItem_append ms hr, nodeItem_append ms (hi.1.trans_le hm)]
    exact h.least i hi hil hir

/-- Under `ANY` the children may stand in either order (42_trie_builder.md R155). -/
theorem LeastPair.swap {ns : List Node} {m l r : Nat} {f : Word} (h : LeastPair .any ns m f l r) :
    LeastPair .any ns m f r l where
  left := h.right
  right := h.left
  ne := h.ne.symm
  sum := h.sum.trans (BitVec.add_comm ..)
  order := nofun
  least := fun i hi hir hil => (h.least i hi hil hir).symm

/-! ### The merge loop (42_trie_builder.md R153) -/

/-- What the merge loop keeps: the queue holds each queued entry once and nothing else, and every internal node joined a least
pair. -/
structure Building (pol : TiePolicy) (ns : List Node) (q : List QItem) : Prop where
  nodup : (q.map QItem.idx).Nodup
  mem_iff : ∀ x, x ∈ q ↔ queuedAt ns ns.length x.idx ∧ x = nodeItem ns x.idx
  merges : ∀ m f l r, ns[m]? = some (.internal f l r) → LeastPair pol ns m f l r

theorem Building.queuedAt_iff {pol : TiePolicy} {ns : List Node} {q : List QItem} (h : Building pol ns q) (i : Nat) :
    queuedAt ns ns.length i ↔ nodeItem ns i ∈ q :=
  ((h.mem_iff (nodeItem ns i)).trans (and_iff_left rfl)).symm

/-- Children are older than their parent, so the newest node is a child of none. -/
theorem Building.newest_not_child {pol : TiePolicy} {ns : List Node} {q : List QItem} (h : Building pol ns q) {i k : Nat}
    (hk : k ≤ i) (f : Word) (l r : Nat) (hn : ns[k]? = some (.internal f l r)) : i ≠ l ∧ i ≠ r :=
  have hpair := h.merges k f l r hn
  ⟨(hpair.left.1.trans_le hk).ne', (hpair.right.1.trans_le hk).ne'⟩

/-- The two popped elements are a least pair. -/
theorem Building.leastPair {pol : TiePolicy} {ns : List Node} {q q2 : List QItem} {a b : QItem} (h : Building pol ns q)
    (hperm : q.Perm (a :: b :: q2)) (ha : ∀ x ∈ b :: q2, a.precedes pol x) (hb : ∀ x ∈ q2, b.precedes pol x) :
    LeastPair pol ns ns.length (a.freq + b.freq) a.idx b.idx := by
  obtain ⟨hqa, hia⟩ := (h.mem_iff a).mp (hperm.mem_iff.mpr (by simp))
  obtain ⟨hqb, hib⟩ := (h.mem_iff b).mp (hperm.mem_iff.mpr (by simp))
  have hnodup : ((a :: b :: q2).map QItem.idx).Nodup := (hperm.map QItem.idx).nodup_iff.mp h.nodup
  refine ⟨hqa, hqb, ?_, congrArg₂ (fun x y => x.freq + y.freq) hia hib, ?_, fun i hi hil hir => ?_⟩
  · intro hab
    simp [hab] at hnodup
  · rintro rfl
    rw [← hia, ← hib]
    exact ha b List.mem_cons_self
  · have hmem : nodeItem ns i ∈ a :: b :: q2 := hperm.mem_iff.mp ((h.queuedAt_iff i).mp hi)
    have hq2 : nodeItem ns i ∈ q2 :=
      List.mem_of_ne_of_mem (fun he => hir (congrArg QItem.idx he))
        (List.mem_of_ne_of_mem (fun he => hil (congrArg QItem.idx he)) hmem)
    rw [← hia, ← hib]
    exact ⟨ha _ (List.mem_cons_of_mem _ hq2), hb _ hq2⟩

/-- A merge takes its two children out of the queue and puts the new node in (42_trie_builder.md R153). -/
theorem Building.queuedAt_merge {pol : TiePolicy} {ns : List Node} {q : List QItem} (h : Building pol ns q) {f : Word}
    {l r : Nat} (hl : l < ns.length) (hr : r < ns.length) (i : Nat) :
    queuedAt (ns ++ [.internal f l r]) (ns.length + 1) i ↔ (queuedAt ns ns.length i ∧ i ≠ l ∧ i ≠ r) ∨ i = ns.length := by
  constructor
  · rintro ⟨hi, hfree⟩
    rcases Nat.lt_succ_iff_lt_or_eq.mp hi with hlt | rfl
    · refine .inl ⟨(queuedAt_append [.internal f l r] i le_rfl).mp ⟨hlt, fun k hk => hfree k (by omega)⟩, ?_⟩
      exact hfree ns.length (Nat.lt_succ_self _) f l r List.getElem?_concat_length
    · exact .inr rfl
  · intro hi
    have hlt : i < ns.length + 1 := by
      rcases hi with ⟨hq, -⟩ | rfl
      · exact hq.1.trans (Nat.lt_succ_self _)
      · exact Nat.lt_succ_self _
    refine ⟨hlt, fun k hk f' l' r' hn => ?_⟩
    rcases Nat.lt_succ_iff_lt_or_eq.mp hk with hk | rfl
    · rw [List.getElem?_append_left hk] at hn
      rcases hi with ⟨hq, -⟩ | rfl
      · exact hq.2 k hk f' l' r' hn
      · exact h.newest_not_child hk.le f' l' r' hn
    · rw [List.getElem?_concat_length] at hn
      cases hn
      rcases hi with ⟨-, hkids⟩ | rfl
      · exact hkids
      · exact ⟨hl.ne', hr.ne'⟩

/-- The queue without the two popped elements. -/
theorem mem_of_perm_cons_cons {q q2 : List QItem} {a b : QItem} (hnodup : (q.map QItem.idx).Nodup)
    (hperm : q.Perm (a :: b :: q2)) (x : QItem) : x ∈ q2 ↔ x ∈ q ∧ x.idx ≠ a.idx ∧ x.idx ≠ b.idx := by
  have hn := (hperm.map QItem.idx).nodup_iff.mp hnodup
  simp only [List.map_cons, List.nodup_cons, List.mem_cons, List.mem_map, not_or, not_exists, not_and] at hn
  obtain ⟨⟨-, ha⟩, hb, -⟩ := hn
  rw [hperm.mem_iff]
  constructor
  · intro hx
    exact ⟨by simp [hx], ha x hx, hb x hx⟩
  · rintro ⟨hx, hxa, hxb⟩
    exact List.mem_of_ne_of_mem (fun he => hxb (congrArg _ he)) (List.mem_of_ne_of_mem (fun he => hxa (congrArg _ he)) hx)

theorem Building.merge {pol : TiePolicy} {ns : List Node} {q q2 : List QItem} {f : Word} {l r : Nat}
    (h : Building pol ns q) (hpair : LeastPair pol ns ns.length f l r)
    (hperm : q.Perm (nodeItem ns l :: nodeItem ns r :: q2)) :
    Building pol (ns ++ [.internal f l r]) (q2 ++ [⟨f, ns.length⟩]) := by
  have hmem := mem_of_perm_cons_cons h.nodup hperm
  have hold : ∀ x ∈ q2, queuedAt ns ns.length x.idx ∧ x = nodeItem ns x.idx := fun x hx =>
    (h.mem_iff x).mp ((hmem x).mp hx).1
  have hnew : nodeItem (ns ++ [.internal f l r]) ns.length = ⟨f, ns.length⟩ := by
    rw [nodeItem, freqOf, List.getElem?_concat_length]
    rfl
  refine ⟨?_, fun x => ?_, fun m f' l' r' hn => ?_⟩
  · have hq2 : (q2.map QItem.idx).Nodup := ((hperm.map QItem.idx).nodup_iff.mp h.nodup).of_cons.of_cons
    rw [List.map_append, List.map_singleton, ← List.concat_eq_append]
    refine hq2.concat fun hin => ?_
    obtain ⟨x, hx, he⟩ := List.mem_map.mp hin
    exact ((hold x hx).1.1).ne he
  · rw [List.length_append, List.length_singleton, h.queuedAt_merge hpair.left.1 hpair.right.1, List.mem_append,
      List.mem_singleton, hmem, h.mem_iff]
    constructor
    · rintro (⟨⟨hq, hx⟩, hkids⟩ | rfl)
      · exact ⟨.inl ⟨hq, hkids⟩, hx.trans (nodeItem_append _ hq.1).symm⟩
      · exact ⟨.inr rfl, hnew.symm⟩
    · rintro ⟨⟨hq, hkids⟩ | hlen, hx⟩
      · exact .inl ⟨⟨hq, hx.trans (nodeItem_append _ hq.1)⟩, hkids⟩
      · rw [hlen, hnew] at hx
        exact .inr hx
  · rcases Nat.lt_or_ge m ns.length with hm | hm
    · rw [List.getElem?_append_left hm] at hn
      exact (h.merges m f' l' r' hn).append _ hm.le
    · have hlt := (List.getElem?_eq_some_iff.mp hn).1
      obtain rfl : m = ns.length := by
        simp only [List.length_append, List.length_singleton] at hlt
        omega
      rw [List.getElem?_concat_length] at hn
      cases hn
      exact hpair.append _ le_rfl

/-- Under either policy the new node joins the two popped elements, in one order or the other. -/
theorem Building.mergePopped {pol : TiePolicy} {ns : List Node} {q q2 : List QItem} {a b : QItem} (h : Building pol ns q)
    (hperm : q.Perm (a :: b :: q2)) (ha : ∀ x ∈ b :: q2, a.precedes pol x) (hb : ∀ x ∈ q2, b.precedes pol x) (d : Nat) :
    Building pol (ns ++ [mergeNode (swaps pol d ns.length) a b]) (q2 ++ [⟨a.freq + b.freq, ns.length⟩]) := by
  have hpair := h.leastPair hperm ha hb
  have hia : a = nodeItem ns a.idx := ((h.mem_iff a).mp (hperm.mem_iff.mpr (by simp))).2
  have hib : b = nodeItem ns b.idx := ((h.mem_iff b).mp (hperm.mem_iff.mpr (by simp))).2
  cases hswap : swaps pol d ns.length with
  | false =>
    refine h.merge hpair ?_
    rwa [← hia, ← hib]
  | true =>
    cases pol with
    | index => cases hswap
    | any =>
      refine h.merge hpair.swap ?_
      rw [← hia, ← hib]
      exact hperm.trans (List.Perm.swap ..)

/-- `k + 1` queued elements need `k` merges to become one. -/
theorem mergeFrom_building (pol : TiePolicy) (d k : Nat) (q : List QItem) (ns : List Node) (h : Building pol ns q)
    (hk : q.length = k + 1) : ∃ x, Building pol (mergeFrom pol d k q ns) [x] := by
  induction k generalizing q ns with
  | zero =>
    obtain ⟨x, rfl⟩ := List.length_eq_one_iff.mp hk
    exact ⟨x, h⟩
  | succ k ih =>
    obtain ⟨a, q1, ha⟩ := popMin_some pol d (2 * ns.length) q (List.ne_nil_of_length_pos (by omega))
    have hperm1 := popMin_perm _ _ _ _ _ _ h.nodup ha
    have hlen1 := length_popMin _ _ _ _ _ _ h.nodup ha
    obtain ⟨b, q2, hb⟩ := popMin_some pol d (2 * ns.length + 1) q1 (List.ne_nil_of_length_pos (by omega))
    have hnodup1 : (q1.map QItem.idx).Nodup := ((hperm1.map QItem.idx).nodup_iff.mp h.nodup).of_cons
    have hperm2 := popMin_perm _ _ _ _ _ _ hnodup1 hb
    have hlen2 := length_popMin _ _ _ _ _ _ hnodup1 hb
    have hstep := h.mergePopped (hperm1.trans (hperm2.cons a))
      (fun x hx => popMin_precedes h.nodup ha x (hperm2.mem_iff.mpr hx)) (popMin_precedes hnodup1 hb) d
    rw [mergeFrom, ha]
    dsimp only
    rw [hb]
    exact ih _ _ hstep (by simp only [List.length_append, List.length_singleton]; omega)

/-! ### The leaves (42_trie_builder.md R151, R152) -/

theorem getElem?_leafQueue (i k : Nat) (ns : List Node) : (leafQueue i ns)[k]? = ns[k]?.map fun n => ⟨n.freq, i + k⟩ := by
  induction ns generalizing i k with
  | nil => rfl
  | cons n ns ih =>
    cases k with
    | zero => rfl
    | succ k => simpa [leafQueue, Nat.add_assoc, Nat.add_comm 1] using ih (i + 1) k

theorem leafQueue_eq (ns : List Node) : leafQueue 0 ns = (List.range ns.length).map (nodeItem ns) := by
  refine List.ext_getElem? fun k => ?_
  rw [getElem?_leafQueue, List.getElem?_map, Nat.zero_add]
  by_cases hk : k < ns.length
  · rw [List.getElem?_range hk, Option.map_some, nodeItem, freqOf, List.getElem?_eq_getElem hk]
    rfl
  · rw [List.getElem?_eq_none (by omega), List.getElem?_eq_none (by simpa using hk)]
    rfl

/-- Before the first merge every leaf is queued. -/
theorem building_leaves (pol : TiePolicy) (ns : List Node) (hleaf : ∀ n ∈ ns, ∃ sym f, n = .leaf sym f) :
    Building pol ns (leafQueue 0 ns) := by
  have hno : ∀ (k : Nat) (f : Word) (l r : Nat), ns[k]? ≠ some (.internal f l r) := by
    intro k f l r hn
    obtain ⟨sym, c, hn'⟩ := hleaf _ (List.mem_of_getElem? hn)
    cases hn'
  rw [leafQueue_eq]
  refine ⟨?_, fun x => ?_, fun m f l r hn => absurd hn (hno m f l r)⟩
  · rw [List.map_map]
    exact (List.map_id _).symm ▸ List.nodup_range
  · rw [List.mem_map]
    constructor
    · rintro ⟨i, hi, rfl⟩
      exact ⟨⟨List.mem_range.mp hi, fun k _ f l r hn => absurd hn (hno k f l r)⟩, rfl⟩
    · rintro ⟨⟨hi, -⟩, hx⟩
      exact ⟨x.idx, List.mem_range.mpr hi, hx.symm⟩

/-- The leaves TRIE_BUILD starts from: those of the counters, or the placeholder. -/
def arenaLeaves (p : Params) (freqAt : Nat → Word) : List Node :=
  if makeLeaves freqAt = [] then [.leaf p.placeholderSym 0] else makeLeaves freqAt

theorem arenaLeaves_leaf (p : Params) (freqAt : Nat → Word) : ∀ n ∈ arenaLeaves p freqAt, ∃ sym f, n = .leaf sym f := by
  intro n hn
  unfold arenaLeaves at hn
  split at hn
  · exact ⟨_, _, List.mem_singleton.mp hn⟩
  · exact makeLeaves_leaf freqAt n hn

theorem length_arenaLeaves (p : Params) (freqAt : Nat → Word) :
    (arenaLeaves p freqAt).length = max 1 (makeLeaves freqAt).length := by
  unfold arenaLeaves
  split
  · next hnone => rw [hnone]; rfl
  · next hsome => exact (max_eq_right (List.length_pos_iff.mpr hsome)).symm

/-- The placeholder is the one leaf of an arena without merges. -/
theorem buildArena_eq (p : Params) (d : Nat) (freqAt : Nat → Word) :
    buildArena p d freqAt = mergeAll p.tiePolicy d (arenaLeaves p freqAt) := by
  rw [buildArena, arenaLeaves]
  cases makeLeaves freqAt with
  | nil => rfl
  | cons n ns => rfl

/-! ### The finished arena (42_trie_builder.md R153, R157) -/

theorem buildArena_building (p : Params) (d : Nat) (freqAt : Nat → Word) :
    ∃ x, Building p.tiePolicy (buildArena p d freqAt) [x] := by
  rw [buildArena_eq]
  refine mergeFrom_building _ d _ _ _ (building_leaves _ _ (arenaLeaves_leaf p freqAt)) ?_
  have := length_arenaLeaves p freqAt
  rw [leafQueue_eq, List.length_map, List.length_range]
  omega

/-- When one element is left it is the newest node. -/
theorem Building.queuedAt_end {pol : TiePolicy} {ns : List Node} {x : QItem} (h : Building pol ns [x]) (i : Nat) :
    queuedAt ns ns.length i ↔ i + 1 = ns.length := by
  have hx : queuedAt ns ns.length x.idx := ((h.mem_iff x).mp List.mem_cons_self).1
  have honly : ∀ j, queuedAt ns ns.length j → j = x.idx := fun j hj =>
    congrArg QItem.idx (List.mem_singleton.mp ((h.queuedAt_iff j).mp hj))
  have hnewest : ∀ j, j + 1 = ns.length → queuedAt ns ns.length j := fun j hj =>
    ⟨by omega, fun k hk => h.newest_not_child (by omega)⟩
  have hlast := honly (ns.length - 1) (hnewest _ (by have := hx.1; omega))
  constructor
  · intro hi
    have := honly i hi
    have := hi.1
    omega
  · exact hnewest i

/-- The arena TRIE_BUILD makes in state `s`. -/
def State.builtArena (s : State) : List Node := buildArena s.params s.draws s.freqAt

theorem State.length_builtArena (s : State) :
    s.builtArena.length = 2 * max 1 (makeLeaves s.freqAt).length - 1 ∧ s.builtArena.length ≤ 511 := by
  obtain ⟨-, -, -, hlen⟩ := buildArena_trie s.params s.draws s.freqAt
  exact hlen

theorem exec_trieBuild {s : State} (hfreq : s.valid.freq = true) : exec .trieBuild s = .next ({ s with
    node := s.builtArena
    nodeCount := BitVec.ofNat 32 s.builtArena.length
    root := BitVec.ofNat 32 (s.builtArena.length - 1)
    valid := { s.valid with trie := true, code := false } }).complete :=
  exec_ok (by simp [needs, hfreq]) nofun rfl

theorem exec_trieBuild_next {s t : State} (hfreq : s.valid.freq = true) (h : exec .trieBuild s = .next t) :
    t.node = s.builtArena ∧ t.nodeCount.toNat = t.node.length ∧ t.root.toNat + 1 = t.node.length := by
  obtain rfl := Host.Outcome.next.inj ((exec_trieBuild hfreq).symm.trans h)
  obtain ⟨hlen, h511⟩ := s.length_builtArena
  refine ⟨rfl, ?_⟩
  simp only [State.complete_node, State.complete_nodeCount, State.complete_root, BitVec.toNat_ofNat]
  omega

/-- Settles O43: the merge loop keeps `Building`, and with one element left the newest node is the root. -/
theorem trieBuildMergesLeastPair : Obligations.TrieBuildMergesLeastPair := by
  intro s t hpol hfreq h
  obtain ⟨hnode, hcount, hroot⟩ := exec_trieBuild_next hfreq h
  obtain ⟨x, hbuilt⟩ := buildArena_building s.params s.draws s.freqAt
  rw [hpol, ← State.builtArena, ← hnode] at hbuilt
  refine ⟨hcount, hroot, fun i => (hbuilt.queuedAt_end i).trans (by omega), fun m f l r hn => ?_⟩
  have hpair := hbuilt.merges m f l r hn
  simp only [comesBefore_iff]
  exact ⟨hpair.left, hpair.right, hpair.ne, hpair.sum, hpair.order rfl, hpair.least⟩

/-- Settles O44: the least pair of either policy is least by frequency. -/
theorem trieBuildConformsUnderAny : Obligations.TrieBuildConformsUnderAny := by
  intro s t hfreq h m f l r hn
  obtain ⟨x, hbuilt⟩ := buildArena_building s.params s.draws s.freqAt
  rw [← State.builtArena, ← (exec_trieBuild_next hfreq h).1] at hbuilt
  have hpair := hbuilt.merges m f l r hn
  refine ⟨hpair.left, hpair.right, hpair.ne, hpair.sum, fun i hi hil hir => ?_⟩
  obtain ⟨hl, hr⟩ := hpair.least i hi hil hir
  exact ⟨hl.freq_le, hr.freq_le⟩

/-! ### Where the leaves stand (42_trie_builder.md R151, R157) -/

/-- The merge loop appends internal nodes only. -/
theorem mergeFrom_append (pol : TiePolicy) (d k : Nat) (q : List QItem) (ns : List Node) :
    ∃ ms, mergeFrom pol d k q ns = ns ++ ms ∧ ∀ n ∈ ms, ∃ f l r, n = .internal f l r := by
  have stop : ∀ ns : List Node, ∃ ms, ns = ns ++ ms ∧ ∀ n ∈ ms, ∃ f l r, n = .internal f l r :=
    fun ns => ⟨[], (List.append_nil ns).symm, nofun⟩
  induction k generalizing q ns with
  | zero => exact stop ns
  | succ k ih =>
    rw [mergeFrom]
    split
    · exact stop ns
    · split
      · exact stop ns
      · next a _ _ _ b q2 _ =>
        obtain ⟨ms, hms, hint⟩ := ih (q2 ++ [⟨a.freq + b.freq, ns.length⟩])
          (ns ++ [mergeNode (swaps pol d ns.length) a b])
        refine ⟨mergeNode (swaps pol d ns.length) a b :: ms, hms.trans (List.append_cons ..).symm, fun n hn => ?_⟩
        rcases List.mem_cons.mp hn with rfl | hn
        · unfold mergeNode
          split <;> exact ⟨_, _, _, rfl⟩
        · exact hint n hn

/-- Element `i` of a filtered range is the one with `i` kept elements below it. -/
theorem getElem?_filter_range (p : Nat → Bool) (n i : Nat) (hi : i < ((List.range n).filter p).length) :
    ∃ v < n, ((List.range n).filter p)[i]? = some v ∧ p v = true ∧ ((List.range v).filter p).length = i := by
  induction n with
  | zero => simp at hi
  | succ n ih =>
    rw [List.range_succ, List.filter_append] at hi ⊢
    by_cases hlt : i < ((List.range n).filter p).length
    · obtain ⟨v, hv, hget, hp⟩ := ih hlt
      exact ⟨v, by omega, by rw [List.getElem?_append_left hlt, hget], hp⟩
    · cases hp : p n with
      | false => simp [hp] at hi; omega
      | true =>
        simp only [hp, List.filter_cons_of_pos, List.filter_nil, List.length_append, List.length_singleton] at hi ⊢
        obtain rfl : i = ((List.range n).filter p).length := by omega
        exact ⟨n, by omega, List.getElem?_concat_length, hp, rfl⟩

theorem makeLeaves_eq (freqAt : Nat → Word) : makeLeaves freqAt =
    ((List.range 256).filter fun v => decide (freqAt v ≠ 0)).map fun v => .leaf (BitVec.ofNat 8 v) (freqAt v) := by
  rw [makeLeaves, ← List.filterMap_eq_map, List.filterMap_filter]
  refine List.filterMap_congr fun v _ => ?_
  by_cases hv : freqAt v = 0 <;> simp [hv]

theorem length_makeLeaves_eq (freqAt : Nat → Word) :
    (makeLeaves freqAt).length = ((List.range 256).filter fun v => decide (freqAt v ≠ 0)).length := by
  rw [makeLeaves_eq, List.length_map]

/-- A leaf's index is the rank of its byte value. -/
theorem getElem?_makeLeaves (freqAt : Nat → Word) (i : Nat) (hi : i < (makeLeaves freqAt).length) :
    ∃ v < 256, (makeLeaves freqAt)[i]? = some (.leaf (BitVec.ofNat 8 v) (freqAt v)) ∧ freqAt v ≠ 0
      ∧ ((List.range v).filter fun u => decide (freqAt u ≠ 0)).length = i := by
  rw [length_makeLeaves_eq] at hi
  obtain ⟨v, hv, hget, hpresent, hrank⟩ := getElem?_filter_range _ 256 i hi
  refine ⟨v, hv, ?_, of_decide_eq_true hpresent, hrank⟩
  rw [makeLeaves_eq, List.getElem?_map, hget]
  rfl

theorem State.builtArena_placeholder {s : State} (h : makeLeaves s.freqAt = []) :
    s.builtArena = [.leaf s.params.placeholderSym 0] := by
  rw [builtArena, buildArena, h]

theorem State.builtArena_append {s : State} (h : makeLeaves s.freqAt ≠ []) :
    ∃ ms, s.builtArena = makeLeaves s.freqAt ++ ms ∧ ∀ n ∈ ms, ∃ f l r, n = .internal f l r := by
  rw [builtArena, buildArena_eq, arenaLeaves, if_neg h]
  exact mergeFrom_append ..

/-- Settles O42: the merges append internal nodes to the leaves, and one visit from the root meets the whole arena. -/
theorem trieBuildMakesATrie : Obligations.TrieBuildMakesATrie := by
  refine ⟨decodeEncodeRoundTrip .trieBuild rfl, fun s => ⟨fun hfreq => ?_, fun hfreq => ?_⟩⟩
  · exact exec_badState (by simp [needs, hfreq])
  · obtain ⟨is, hvisit, hperm, -⟩ := buildArena_trie s.params s.draws s.freqAt
    obtain ⟨t, ht, hsize⟩ := readTrie_of_visit _ _ _ _ hvisit
    refine ⟨s.builtArena, t, exec_trieBuild hfreq, ht, ?_, fun n hn => ?_⟩
    · rw [hsize, hperm.length_eq, List.length_range, State.builtArena]
    · rw [← length_makeLeaves_eq] at hn
      subst hn
      refine ⟨fun hnone => State.builtArena_placeholder (List.length_eq_zero_iff.mp hnone), fun hpos => ?_⟩
      obtain ⟨ms, harena, hinternal⟩ := State.builtArena_append (List.length_pos_iff.mp hpos)
      refine ⟨?_, fun i hi => ?_, fun i hi hlt => ?_⟩
      · have := s.length_builtArena.1
        omega
      · rw [harena, List.getElem?_append_left hi]
        exact getElem?_makeLeaves s.freqAt i hi
      · have hin : i - (makeLeaves s.freqAt).length < ms.length := by
          rw [harena, List.length_append] at hlt
          omega
        obtain ⟨f, l, r, hnode⟩ := hinternal _ (List.getElem_mem hin)
        rw [harena, List.getElem?_append_right hi, List.getElem?_eq_getElem hin]
        exact ⟨f, l, r, congrArg some hnode⟩

end Sys2Proof.Machine
end

section
/-! PROOFS. TRIE_SER and TRIE_DESER: the serialized form written, read back, and every way a stream can fail to be one
(43_trie_codec.md R170 to R177). -/

namespace Sys2Proof.Machine

/-! ### The end of a body that only writes bits (40_bitstream.md R113, R116) -/

theorem wrote_wrSeq_fits {s : State} {bs : List Bool} (hparams : s.params.wf = true) (hmem : s.outMem.wf = true)
    (hfits : s.wrPos.toNat + bs.length ≤ 8 * s.params.outCap) :
    ∃ m, s.wrote (wrSeq s.params.outCap bs s.writer)
        = .ok { s with wrPos := s.wrPos + BitVec.ofNat 32 bs.length, outMem := m }
      ∧ Appended s.outMem m s.wrPos.toNat bs := by
  obtain ⟨w, hseq, hpos, -, -, -, happ, -⟩ :=
    wrSeq_fits s.params.outCap bs s.writer (Params.outBits_lt_of_wf hparams) hmem hfits
  refine ⟨w.mem, ?_, happ⟩
  rw [hseq, wrote_some, State.setWriter, hpos, State.writer]

theorem wrote_wrSeq_over {s : State} {bs : List Bool} (hparams : s.params.wf = true)
    (hpos : s.wrPos.toNat ≤ 8 * s.params.outCap) (hover : 8 * s.params.outCap < s.wrPos.toNat + bs.length) :
    s.wrote (wrSeq s.params.outCap bs s.writer) = .error .outOverflow s := by
  rw [wrSeq_over _ bs s.writer (Params.outBits_lt_of_wf hparams) hpos hover, wrote_none]

/-! ### TRIE_SER (43_trie_codec.md R171) -/

theorem trieSerBody_eq {s : State} {t : Trie} (htrie : s.trie? = some t) :
    trieSerBody s = s.wrote (wrSeq s.params.outCap t.bits s.writer) := by
  rw [trieSerBody, htrie, ← serTrie_eq]

theorem needs_trieSer {s : State} (hwr : s.valid.wr = true) (hvalid : s.valid.trie = true) :
    (needs s .trieSer).all id = true := by
  simp [needs, hwr, hvalid]

theorem exec_trieSer_fits {s : State} {t : Trie} (hwr : s.valid.wr = true) (hvalid : s.valid.trie = true)
    (htrie : s.trie? = some t) (hparams : s.params.wf = true) (hmem : s.outMem.wf = true)
    (hfits : s.wrPos.toNat + t.bits.length ≤ 8 * s.params.outCap) :
    ∃ m, exec .trieSer s
        = .next ({ s with wrPos := s.wrPos + BitVec.ofNat 32 t.bits.length, outMem := m }).complete
      ∧ Appended s.outMem m s.wrPos.toNat t.bits := by
  obtain ⟨m, hwrote, happ⟩ := wrote_wrSeq_fits hparams hmem hfits
  exact ⟨m, exec_ok (needs_trieSer hwr hvalid) nofun ((trieSerBody_eq htrie).trans hwrote), happ⟩

theorem exec_trieSer_over {s : State} {t : Trie} (hwr : s.valid.wr = true) (hvalid : s.valid.trie = true)
    (htrie : s.trie? = some t) (hparams : s.params.wf = true) (hpos : s.wrPos.toNat ≤ 8 * s.params.outCap)
    (hover : 8 * s.params.outCap < s.wrPos.toNat + t.bits.length) :
    exec .trieSer s = .next (s.emptyWriter.raise .outOverflow) :=
  exec_error (needs_trieSer hwr hvalid) nofun ((trieSerBody_eq htrie).trans (wrote_wrSeq_over hparams hpos hover))

/-- Settles O45: `ser` writes the serialized form, which fits in OUT_MEM or does not. -/
theorem trieSerAppendsThePreorder : Obligations.TrieSerAppendsThePreorder := by
  refine ⟨decodeEncodeRoundTrip .trieSer rfl, fun s => ⟨fun hmissing => exec_badState ?_,
    fun t hwr hvalid htrie hparams hmem hpos => ⟨t.length_bits, exec_trieSer_fits hwr hvalid htrie hparams hmem,
      exec_trieSer_over hwr hvalid htrie hparams hpos⟩⟩⟩
  rcases hmissing with hwr | hvalid
  · simp [needs, hwr]
  · simp [needs, hvalid]

/-! ### TRIE_DESER of a serialized trie (43_trie_codec.md R172, R173) -/

/-- The pre-order arena of a trie is that trie below index 0 (43_trie_codec.md R173). -/
theorem readTrie_preorder (t : Trie) : readTrie (t.preorder 0).length (t.preorder 0) 0 = some t := by
  obtain ⟨-, hread⟩ := arenaVisit_preorder t (t.preorder 0).length (t.preorder 0) 0 (fun j _ => by rw [Nat.zero_add])
    (by rw [Trie.length_preorder]; exact t.depth_lt_size)
  exact hread

theorem freq_of_mem_preorder {t : Trie} {i : Nat} {n : Node} (h : n ∈ t.preorder i) : n.freq = 0 := by
  induction t generalizing i with
  | leaf sym =>
    obtain rfl := List.mem_singleton.mp h
    rfl
  | node l r ihl ihr =>
    rcases List.mem_cons.mp h with rfl | h
    · rfl
    · rcases List.mem_append.mp h with h | h
      · exact ihl h
      · exact ihr h

/-- The state with the trie `t` just read: its arena in pre-order, the reader after its bits (43_trie_codec.md R172,
R173). -/
def State.withTrieRead (s : State) (t : Trie) : State :=
  { s with
    node := t.preorder 0
    nodeCount := BitVec.ofNat 32 t.size
    root := 0
    rdPos := s.rdPos + BitVec.ofNat 32 t.bits.length
    valid := { s.valid with trie := true, code := false } }

theorem State.withTrieRead_trie? (s : State) (t : Trie) : (s.withTrieRead t).trie? = some t := readTrie_preorder t

theorem trieDeserBody_trie {s : State} {t : Trie} (hsize : t.size ≤ s.params.nodeCap)
    (hend : s.rdPos.toNat + t.bits.length ≤ s.rdEnd.toNat) (hbits : s.inMem.stream s.rdPos.toNat t.bits.length = t.bits) :
    trieDeserBody s = .ok (s.withTrieRead t) := by
  have hdepth := t.depth_lt_size
  have hdes := desTrie_bits s.inMem s.rdEnd s.params.nodeCap (s.params.nodeCap + 1) 0 s.rdPos t hbits hend (by omega)
    (by omega)
  simp only [trieDeserBody, hdes, Trie.length_preorder, State.withTrieRead]

theorem exec_trieDeser_trie {s : State} {t : Trie} (hrd : s.valid.rd = true) (hsize : t.size ≤ s.params.nodeCap)
    (hend : s.rdPos.toNat + t.bits.length ≤ s.rdEnd.toNat) (hbits : s.inMem.stream s.rdPos.toNat t.bits.length = t.bits) :
    exec .trieDeser s = .next (s.withTrieRead t).complete :=
  exec_ok (by simp [needs, hrd]) nofun (trieDeserBody_trie hsize hend hbits)

/-- Settles O46: `des()` over the serialized form of a trie that the arena has room for. -/
theorem trieDeserReadsThePreorder : Obligations.TrieDeserReadsThePreorder :=
  ⟨decodeEncodeRoundTrip .trieDeser rfl, fun _ => ⟨fun hrd => exec_badState (by simp [needs, hrd]),
    fun t hrd hsize hend hbits => ⟨exec_trieDeser_trie hrd hsize hend hbits, readTrie_preorder t⟩⟩⟩

/-! ### TRIE_DESER of anything else (43_trie_codec.md R174; 60_exceptions.md R247, R248) -/

/-- The stream goes on with the serialized form of a trie that the arena has room for. -/
def State.trieAhead (s : State) : Prop :=
  ∃ t : Trie, t.size ≤ s.params.nodeCap ∧ s.rdPos.toNat + t.bits.length ≤ s.rdEnd.toNat
    ∧ s.inMem.stream s.rdPos.toNat t.bits.length = t.bits

/-- Without a trie ahead, `des()` ends at RD_END or just after the tag bit of node number NODE_CAP, whichever comes
first. -/
theorem desTrie_noTrie {s : State} (hle : s.rdPos.toNat ≤ s.rdEnd.toNat) (hno : ¬ s.trieAhead) :
    desTrie s.inMem s.rdEnd s.params.nodeCap (s.params.nodeCap + 1) 0 s.rdPos =
      if s.inMem.tagPos s.rdPos.toNat s.params.nodeCap < s.rdEnd.toNat then
        .fail .nodeOverflow (BitVec.ofNat 32 (s.inMem.tagPos s.rdPos.toNat s.params.nodeCap + 1))
      else .fail .corruptStream s.rdEnd := by
  have hcases := desTrie_cases s.inMem s.rdEnd s.params.nodeCap (s.params.nodeCap + 1) 0 s.rdPos hle (Nat.zero_le _) le_rfl
  rw [Nat.sub_zero] at hcases
  rcases hcases with ⟨t, hbits, hend, hsize, -⟩ | ⟨htag, hdes⟩ | ⟨htag, p, hp, hdes⟩
  · exact absurd ⟨t, by omega, hend, hbits⟩ hno
  · rw [hdes, if_neg (Nat.not_lt.mpr htag)]
  · rw [hdes, if_pos htag, ← hp, BitVec.ofNat_toNat, BitVec.setWidth_eq]

theorem trieDeserBody_corrupt {s : State} (hle : s.rdPos.toNat ≤ s.rdEnd.toNat) (hno : ¬ s.trieAhead)
    (htag : s.rdEnd.toNat ≤ s.inMem.tagPos s.rdPos.toNat s.params.nodeCap) :
    trieDeserBody s = .error .corruptStream { s.beginTrie with
      rdPos := s.rdEnd, status := { s.status with exh := true } } := by
  simp [trieDeserBody, desTrie_noTrie hle hno, Nat.not_lt.mpr htag, State.noteExhausted]

theorem trieDeserBody_overflow {s : State} (hle : s.rdPos.toNat ≤ s.rdEnd.toNat) (hno : ¬ s.trieAhead)
    (htag : s.inMem.tagPos s.rdPos.toNat s.params.nodeCap < s.rdEnd.toNat) :
    trieDeserBody s = .error .nodeOverflow { s.beginTrie with
      rdPos := BitVec.ofNat 32 (s.inMem.tagPos s.rdPos.toNat s.params.nodeCap + 1) } := by
  simp [trieDeserBody, desTrie_noTrie hle hno, htag, State.noteExhausted]

/-- Settles O47: the stream or the arena runs out first, by where the tag bit of node number NODE_CAP stands. -/
theorem trieDeserFailsOtherwise : Obligations.TrieDeserFailsOtherwise := by
  intro s hrd hle hno
  have hneeds : (needs s .trieDeser).all id = true := by simp [needs, hrd]
  exact ⟨fun htag => exec_error hneeds nofun (trieDeserBody_corrupt hle hno htag),
    fun htag => exec_error hneeds nofun (trieDeserBody_overflow hle hno htag)⟩

/-! ### There and back (43_trie_codec.md R177) -/

/-- Settles O48: what TRIE_SER appended is the serialized form, which TRIE_DESER reads back. -/
theorem trieSurvivesSerialization : Obligations.TrieSurvivesSerialization := by
  intro s u r t hwr hvalid htrie hparams hmem hfits hser hrd hsize hend hcopy
  obtain ⟨m, hexec, hwritten, -⟩ := exec_trieSer_fits hwr hvalid htrie hparams hmem hfits
  obtain rfl := Host.Outcome.next.inj (hexec.symm.trans hser)
  have hbits : r.inMem.stream r.rdPos.toNat t.bits.length = t.bits := hcopy.trans hwritten
  exact ⟨_, exec_trieDeser_trie hrd hsize hend hbits, r.withTrieRead_trie? t, rfl, fun _ => freq_of_mem_preorder⟩

end Sys2Proof.Machine
end

section
/-! PROOFS. CODE_BUILD: the code table is the table of the trie's paths, and the paths of a trie are prefix-free
(44_code_table.md R190 to R193). -/

namespace Sys2Proof.Machine

/-! ### The table or CODE_TOO_LONG (44_code_table.md R190 to R192) -/

/-- The state with the code table of the trie `t` (44_code_table.md R190). -/
def State.withCodesOf (s : State) (t : Trie) : State :=
  { s with
    code := (List.range 256).map fun v => t.codeOf (BitVec.ofNat 8 v)
    valid := { s.valid with code := true } }

theorem exec_codeBuild_fits {s : State} {t : Trie} (hvalid : s.valid.trie = true) (htrie : s.trie? = some t)
    (hdepth : t.depth ≤ Config.codeMax) : exec .codeBuild s = .next (s.withCodesOf t).complete := by
  have hbody : codeBuildBody s = .ok (s.withCodesOf t) := by
    simp only [codeBuildBody, htrie, walkCodes_codeOf t hdepth, State.withCodesOf]
  exact exec_ok (by simp [needs, hvalid]) nofun hbody

theorem exec_codeBuild_deep {s : State} {t : Trie} (hvalid : s.valid.trie = true) (htrie : s.trie? = some t)
    (hdepth : Config.codeMax < t.depth) : exec .codeBuild s
      = .next (({ s with code := [], valid := { s.valid with code := false } }).raise .codeTooLong) := by
  have hbody : codeBuildBody s = .error .codeTooLong { s with code := [], valid := { s.valid with code := false } } := by
    simp only [codeBuildBody, htrie, walkCodes_deep t [] absentCodes hdepth]
  exact exec_error (by simp [needs, hvalid]) nofun hbody

/-- Settles O49: the walk from the root stores every path, or meets a leaf deeper than CODE_MAX. -/
theorem codeBuildStoresThePaths : Obligations.CodeBuildStoresThePaths :=
  ⟨decodeEncodeRoundTrip .codeBuild rfl, fun _ => ⟨fun hvalid => exec_badState (by simp [needs, hvalid]),
    fun _ hvalid htrie => ⟨exec_codeBuild_fits hvalid htrie, exec_codeBuild_deep hvalid htrie⟩⟩⟩

/-! ### The paths of a trie (44_code_table.md R193) -/

theorem Trie.mem_paths_node {l r : Trie} {x : Byte × List Bool} : x ∈ (Trie.node l r).paths ↔
    (∃ y ∈ l.paths, x = (y.1, false :: y.2)) ∨ ∃ y ∈ r.paths, x = (y.1, true :: y.2) := by
  simp only [Trie.paths, List.mem_append, List.mem_map, eq_comm]

/-- Two leaves whose paths begin alike are one leaf: at a node the first bits agree, so both lie in the same subtree. -/
theorem Trie.eq_of_path_prefix {t : Trie} {x y : Byte × List Bool} (hx : x ∈ t.paths) (hy : y ∈ t.paths)
    (hprefix : x.2 <+: y.2) : x = y := by
  induction t generalizing x y with
  | leaf sym => exact (List.mem_singleton.mp hx).trans (List.mem_singleton.mp hy).symm
  | node l r ihl ihr =>
    rcases mem_paths_node.mp hx with ⟨x', hx', rfl⟩ | ⟨x', hx', rfl⟩
    all_goals
      rcases mem_paths_node.mp hy with ⟨y', hy', rfl⟩ | ⟨y', hy', rfl⟩
      all_goals obtain ⟨hbit, hrest⟩ := List.cons_prefix_cons.mp hprefix
    · rw [ihl hx' hy' hrest]
    · cases hbit
    · cases hbit
    · rw [ihr hx' hy' hrest]

theorem Trie.path_ne_nil {t : Trie} {x : Byte × List Bool} (hleaves : 1 < t.leaves) (hx : x ∈ t.paths) : x.2 ≠ [] := by
  cases t with
  | leaf sym => exact absurd hleaves (Nat.lt_irrefl 1)
  | node l r =>
    rcases mem_paths_node.mp hx with ⟨y, -, rfl⟩ | ⟨y, -, rfl⟩
    · exact List.cons_ne_nil _ _
    · exact List.cons_ne_nil _ _

/-- A present code is the path of a leaf of its byte (44_code_table.md R190). -/
theorem Trie.codeOf_mem_paths {t : Trie} {v : Byte} (hpresent : (t.codeOf v).present = true) :
    (v, (t.codeOf v).bits) ∈ t.paths := by
  unfold codeOf at hpresent ⊢
  split at hpresent
  · next x hlast =>
    obtain ⟨hx, hbyte⟩ := List.mem_filter.mp (List.mem_of_getLast? hlast)
    rw [← of_decide_eq_true hbyte]
    exact hx
  · cases hpresent

/-! ### The codes of a trie -/

/-- A present entry of the table CODE_BUILD made is the path of a leaf of that byte. -/
theorem State.withCodesOf_mem_paths {s : State} {t : Trie} {a : Nat} {e : CodeEntry}
    (hentry : (s.withCodesOf t).code[a]? = some e) (hpresent : e.present = true) :
    a < 256 ∧ (BitVec.ofNat 8 a, e.bits) ∈ t.paths := by
  obtain ⟨v, hv, rfl⟩ := Option.map_eq_some_iff.mp (List.getElem?_map.symm.trans hentry)
  obtain ⟨hlt, rfl⟩ := List.getElem?_eq_some_iff.mp hv
  rw [List.getElem_range] at hpresent ⊢
  exact ⟨by simpa using hlt, Trie.codeOf_mem_paths hpresent⟩

/-- Settles O50: present codes are paths of leaves, and those are prefix-free. -/
theorem codesArePrefixFree : Obligations.CodesArePrefixFree := by
  intro s u t htrie _ hvalid hdepth hexec
  obtain rfl := Host.Outcome.next.inj ((exec_codeBuild_fits hvalid htrie hdepth).symm.trans hexec)
  simp only [State.complete_code]
  refine ⟨fun a b ea eb hne ha hb hpa hpb hprefix => hne ?_, fun hleaves e he hpresent => ?_⟩
  · obtain ⟨hlta, hmema⟩ := State.withCodesOf_mem_paths ha hpa
    obtain ⟨hltb, hmemb⟩ := State.withCodesOf_mem_paths hb hpb
    have hbyte : BitVec.ofNat 8 a = BitVec.ofNat 8 b := congrArg Prod.fst (Trie.eq_of_path_prefix hmema hmemb hprefix)
    rw [← Nat.mod_eq_of_lt hlta, ← Nat.mod_eq_of_lt hltb]
    exact congrArg BitVec.toNat hbyte
  · obtain ⟨a, ha⟩ := List.getElem?_of_mem he
    obtain ⟨-, hmem⟩ := State.withCodesOf_mem_paths ha hpresent
    exact Trie.path_ne_nil hleaves hmem

end Sys2Proof.Machine
end

section
/-! PROOFS. PAYLOAD_ENC and PAYLOAD_DEC: the length and the codes written, the length and the paths read, and every way either
can fail (45_payload_codec.md R200 to R204). -/

namespace Sys2Proof.Machine

/-! ### PAYLOAD_ENC (45_payload_codec.md R200, R201) -/

/-- The encoding loop past `n` coded bytes: their codes do not fit, or it goes on with the bytes after them. -/
theorem encFrom_coded {m : Memory} {codeAt : Nat → CodeEntry} {n : Nat} (cap r : Nat) (w : Writer)
    (hcoded : ∀ j < n, (codeAt (m.read j).toNat).present = true) :
    encFrom m codeAt cap (r + n) 0 w
      = (wrSeq cap ((List.range n).flatMap fun j => (codeAt (m.read j).toNat).bits) w).elim (.fail .outOverflow)
          (encFrom m codeAt cap r n) := by
  induction n generalizing r with
  | zero => rfl
  | succ n ih =>
    have hgo := ih (r + 1) fun j hj => hcoded j (Nat.lt_succ_of_lt hj)
    rw [Nat.add_assoc, Nat.add_comm 1 n] at hgo
    rw [hgo, List.range_succ, List.flatMap_append, List.flatMap_singleton, wrSeq_append]
    cases wrSeq cap ((List.range n).flatMap fun j => (codeAt (m.read j).toNat).bits) w with
    | none => rfl
    | some w1 =>
      simp only [Option.elim_some, Option.bind_some, encFrom, if_pos (hcoded n n.lt_succ_self)]
      cases wrSeq cap (codeAt (m.read n).toNat).bits w1 <;> rfl

/-- What the end of the encoding loop makes of the state (45_payload_codec.md R200). -/
def Enc.ran (s : State) : Enc → Ran
  | .done w => .ok (s.setWriter w)
  | .fail c => .error c s

/-- The length and the codes of the first `k` input bytes (45_payload_codec.md R200). -/
def State.encodedBits (s : State) (k : Nat) : List Bool :=
  wordBits s.inLen ++ (List.range k).flatMap fun j => (s.codeAt (s.inMem.read j).toNat).bits

theorem payloadEncBody_coded {s : State} {k : Nat} (hk : k ≤ s.inLen.toNat)
    (hcoded : ∀ j < k, (s.codeAt (s.inMem.read j).toNat).present = true) :
    payloadEncBody s = ((wrSeq s.params.outCap (s.encodedBits k) s.writer).elim (.fail .outOverflow)
      (encFrom s.inMem s.codeAt s.params.outCap (s.inLen.toNat - k) k)).ran s := by
  rw [State.encodedBits, wrSeq_append, payloadEncBody, wrU32be_eq]
  cases wrSeq s.params.outCap (wordBits s.inLen) s.writer with
  | none => rfl
  | some w =>
    have hloop := encFrom_coded s.params.outCap (s.inLen.toNat - k) w hcoded
    rw [Nat.sub_add_cancel hk] at hloop
    simp only [hloop, Option.bind_some]
    generalize Option.elim _ _ _ = e
    cases e <;> rfl

/-- Settles O51: past the coded bytes the loop is at its end, or at the first byte without a code. -/
theorem payloadEncAppendsLengthAndCodes : Obligations.PayloadEncAppendsLengthAndCodes := by
  refine ⟨decodeEncodeRoundTrip .payloadEnc rfl, fun s => ⟨fun hmissing => exec_badState ?_,
    fun k hwr hcode hlen hparams hmem hpos hk hcoded bits hbits => ?_⟩⟩
  · rcases hmissing with hwr | hcode
    · simp [needs, hwr]
    · simp [needs, hcode]
  have hneeds : (needs s .payloadEnc).all id = true := by simp [needs, hwr, hcode]
  have hcap := Params.outBits_lt_of_wf hparams
  have hbody := payloadEncBody_coded hk hcoded
  rw [State.encodedBits, ← hbits] at hbody
  refine ⟨fun hover => ?_, fun hall hfits => ?_, fun hmore habsent hfits => ?_⟩
  · rw [wrSeq_over _ bits s.writer hcap hpos hover] at hbody
    exact exec_error hneeds (fun _ => hlen) hbody
  · obtain ⟨w, hseq, hwpos, -, -, -, happ, -⟩ := wrSeq_fits s.params.outCap bits s.writer hcap hmem hfits
    rw [hseq, hall, Nat.sub_self, Option.elim_some, encFrom, Enc.ran, State.setWriter, hwpos] at hbody
    exact ⟨w.mem, exec_ok hneeds (fun _ => hlen) hbody, happ⟩
  · obtain ⟨w, hseq, -⟩ := wrSeq_fits s.params.outCap bits s.writer hcap hmem hfits
    obtain ⟨r, hrest⟩ := Nat.exists_eq_succ_of_ne_zero (Nat.sub_ne_zero_of_lt hmore)
    rw [hseq, hrest, Option.elim_some, encFrom, if_neg (by simp [habsent])] at hbody
    exact exec_error hneeds (fun _ => hlen) hbody

/-! ### PAYLOAD_DEC (45_payload_codec.md R202 to R204) -/

/-- What the end of the decoding loop makes of the state when the length read is `len` (45_payload_codec.md R202). -/
def Dec.ran (s : State) (len : Word) : Dec → Ran
  | .done pos w => .ok { s.setWriter w with decLen := len, rdPos := pos }
  | .fail c pos => .error c { s.noteExhausted (decide (c = .corruptStream)) with decLen := len, rdPos := pos }

theorem rdU32be_wordBits {m : Memory} {e pos len : Word} (hend : pos.toNat + 32 ≤ e.toNat)
    (hbits : m.stream pos.toNat 32 = wordBits len) : rdU32be m e pos = (some len, pos + 32) := by
  obtain ⟨r, hread, hr⟩ := rdU32be_enough m e pos hend
  rw [hread, wordBits_injective r len (hr.trans hbits)]

theorem State.noteExhausted_true (s : State) :
    s.noteExhausted true = { s with status := { s.status with exh := true } } := by simp [State.noteExhausted]

theorem State.noteExhausted_false (s : State) : s.noteExhausted false = s := by simp [State.noteExhausted]

/-- The length `len` and the paths `ps` (45_payload_codec.md R200). -/
def payloadBits (len : Word) (ps : List (Byte × List Bool)) : List Bool := wordBits len ++ ps.flatMap Prod.snd

theorem payloadBits_append (len : Word) (ps qs : List (Byte × List Bool)) :
    payloadBits len (ps ++ qs) = payloadBits len ps ++ qs.flatMap Prod.snd := by
  rw [payloadBits, List.flatMap_append, ← List.append_assoc, payloadBits]

/-- The bytes of the leaves of the paths `ps` (45_payload_codec.md R202). -/
def leafBits (ps : List (Byte × List Bool)) : List Bool := ps.flatMap fun x => byteBits x.1

theorem length_leafBits (ps : List (Byte × List Bool)) : (leafBits ps).length = 8 * ps.length := by
  simp [leafBits, Nat.mul_comm]

/-- The current trie is `t`, and the stream goes on with the length `len` and the paths `ps` of `t`. -/
structure State.PayloadAhead (s : State) (t : Trie) (len : Word) (ps : List (Byte × List Bool)) : Prop where
  trie : s.trie? = some t
  paths : ∀ x ∈ ps, x ∈ t.paths
  inside : s.rdPos.toNat + (payloadBits len ps).length ≤ s.rdEnd.toNat
  stream : s.inMem.stream s.rdPos.toNat (payloadBits len ps).length = payloadBits len ps

section PayloadAhead
variable {s : State} {t : Trie} {len : Word} {ps : List (Byte × List Bool)}

/-- RD_POS does not wrap over the bits of the payload. -/
theorem State.PayloadAhead.toNat_pos (h : s.PayloadAhead t len ps) :
    (s.rdPos + BitVec.ofNat 32 (payloadBits len ps).length).toNat = s.rdPos.toNat + (payloadBits len ps).length :=
  toNat_add_ofNat _ _ (Nat.lt_of_le_of_lt h.inside s.rdEnd.isLt)

/-- The last path ahead stands just after the payload of those before it. -/
theorem State.PayloadAhead.split {x : Byte × List Bool} (h : s.PayloadAhead t len (ps ++ [x])) :
    s.PayloadAhead t len ps ∧ x ∈ t.paths
      ∧ s.rdPos.toNat + (payloadBits len ps).length + x.2.length ≤ s.rdEnd.toNat
      ∧ s.inMem.stream (s.rdPos.toNat + (payloadBits len ps).length) x.2.length = x.2 := by
  obtain ⟨htrie, hpaths, hinside, hstream⟩ := h
  rw [payloadBits_append, List.flatMap_singleton, List.length_append] at hinside hstream
  rw [stream_add] at hstream
  obtain ⟨hbefore, hlast⟩ := List.append_inj hstream (length_stream _ _ _)
  exact ⟨⟨htrie, fun y hy => hpaths y (List.mem_append_left _ hy), by omega, hbefore⟩, hpaths x (by simp), by omega, hlast⟩

/-- PAYLOAD_DEC past its length and the paths `ps`, whose bytes fit: the loop goes on after them. -/
theorem payloadDecBody_ahead {w : Writer} (h : s.PayloadAhead t len ps) (hlen : ps.length ≤ len.toNat)
    (hw : wrSeq s.params.outCap (leafBits ps) s.writer = some w) :
    payloadDecBody s = (decFrom s.inMem s.rdEnd s.params.outCap t (len.toNat - ps.length)
      (s.rdPos + BitVec.ofNat 32 (payloadBits len ps).length) w).ran s len := by
  obtain ⟨htrie, hpaths, hinside, hstream⟩ := h
  rw [payloadBits, List.length_append, length_wordBits] at hinside hstream ⊢
  rw [stream_add] at hstream
  obtain ⟨hword, hsyms⟩ := List.append_inj hstream (by simp)
  have hend := s.rdEnd.isLt
  have hpos : (s.rdPos + 32).toNat = s.rdPos.toNat + 32 := toNat_add_ofNat s.rdPos 32 (by omega)
  rw [← hpos] at hsyms
  have hloop := decFrom_prefix s.inMem s.rdEnd s.params.outCap t ps (len.toNat - ps.length) (s.rdPos + 32) s.writer w
    hpaths (by omega) hsyms hw
  rw [Nat.sub_add_cancel hlen] at hloop
  rw [payloadDecBody, rdU32be_wordBits (by omega) hword, ← add_ofNat_add s.rdPos 32]
  simp only [htrie, hloop]
  generalize decFrom _ _ _ _ _ _ _ = d
  cases d <;> rfl

/-- As many paths as the length says are the whole payload (45_payload_codec.md R202 to R204). -/
theorem payloadDecBody_whole (h : s.PayloadAhead t len ps) (hlen : ps.length = len.toNat) (hparams : s.params.wf = true)
    (hmem : s.outMem.wf = true) (hfits : s.wrPos.toNat + 8 * ps.length ≤ 8 * s.params.outCap) :
    ∃ m, payloadDecBody s = .ok { s with
        decLen := len
        rdPos := s.rdPos + BitVec.ofNat 32 (payloadBits len ps).length
        wrPos := s.wrPos + BitVec.ofNat 32 (8 * ps.length)
        outMem := m }
      ∧ Appended s.outMem m s.wrPos.toNat (leafBits ps) := by
  rw [← length_leafBits] at hfits ⊢
  obtain ⟨w, hseq, hwpos, -, -, -, happ, -⟩ :=
    wrSeq_fits s.params.outCap (leafBits ps) s.writer (Params.outBits_lt_of_wf hparams) hmem hfits
  refine ⟨w.mem, ?_, happ⟩
  rw [payloadDecBody_ahead h hlen.le hseq, hlen, Nat.sub_self, decFrom, Dec.ran, State.setWriter, hwpos, State.writer_pos]

/-- The stream ends inside the length: DEC_LEN stays 0 (60_exceptions.md R248). -/
theorem payloadDecBody_noLength (hle : s.rdPos.toNat ≤ s.rdEnd.toNat)
    (hshort : s.rdEnd.toNat < s.rdPos.toNat + 32) :
    payloadDecBody s = .error .corruptStream { s with
      decLen := 0, rdPos := s.rdEnd, status := { s.status with exh := true } } := by
  rw [payloadDecBody, rdU32be_short _ _ _ hle hshort, State.noteExhausted_true]

/-- No path of the trie follows: the stream ends inside the walk (60_exceptions.md R248). -/
theorem payloadDecBody_noPath (h : s.PayloadAhead t len ps) (hmore : ps.length < len.toNat) (hparams : s.params.wf = true)
    (hmem : s.outMem.wf = true) (hfits : s.wrPos.toNat + 8 * ps.length ≤ 8 * s.params.outCap)
    (hno : ∀ x ∈ t.paths, ¬ (s.rdPos.toNat + (payloadBits len ps).length + x.2.length ≤ s.rdEnd.toNat
      ∧ s.inMem.stream (s.rdPos.toNat + (payloadBits len ps).length) x.2.length = x.2)) :
    payloadDecBody s = .error .corruptStream { s with
      decLen := len, rdPos := s.rdEnd, status := { s.status with exh := true } } := by
  rw [← length_leafBits] at hfits
  obtain ⟨w, hseq, -⟩ :=
    wrSeq_fits s.params.outCap (leafBits ps) s.writer (Params.outBits_lt_of_wf hparams) hmem hfits
  obtain ⟨r, hrest⟩ := Nat.exists_eq_succ_of_ne_zero (Nat.sub_ne_zero_of_lt hmore)
  have hinside := h.inside
  rw [← h.toNat_pos] at hno hinside
  rcases walkDown_cases s.inMem s.rdEnd t _ hinside with ⟨x, hx, hbits, hend, -⟩ | ⟨-, hwalk⟩
  · exact absurd ⟨hend, hbits⟩ (hno x hx)
  · simp only [payloadDecBody_ahead h hmore.le hseq, hrest, decFrom, hwalk, Dec.ran, decide_true, State.noteExhausted_true]

/-- The byte of the last path does not fit (60_exceptions.md R246). -/
theorem payloadDecBody_over {x : Byte × List Bool}
    (h : s.PayloadAhead t len (ps ++ [x])) (hmore : ps.length < len.toNat) (hparams : s.params.wf = true)
    (hmem : s.outMem.wf = true) (hfits : s.wrPos.toNat + 8 * ps.length ≤ 8 * s.params.outCap)
    (hover : 8 * s.params.outCap < s.wrPos.toNat + 8 * (ps.length + 1)) :
    payloadDecBody s = .error .outOverflow { s with
      decLen := len, rdPos := s.rdPos + BitVec.ofNat 32 (payloadBits len (ps ++ [x])).length } := by
  obtain ⟨hbefore, hx, hend, hbits⟩ := h.split
  have hcap := Params.outBits_lt_of_wf hparams
  have hleaf := length_leafBits ps
  obtain ⟨w, hseq, -, hwpos, -⟩ := wrSeq_fits s.params.outCap (leafBits ps) s.writer hcap hmem (by rwa [hleaf])
  rw [hleaf, State.writer_pos] at hwpos
  obtain ⟨r, hrest⟩ := Nat.exists_eq_succ_of_ne_zero (Nat.sub_ne_zero_of_lt hmore)
  rw [← hbefore.toNat_pos] at hend hbits
  have hwalk := walkDown_path s.inMem s.rdEnd t _ x hx hbits hend
  rw [add_ofNat_add] at hwalk
  have hwrite : wrBits s.params.outCap 8 x.1 w = none := by
    rw [wrBits_eq]
    exact wrSeq_over _ _ w hcap (by omega) (by rw [← byteBits, length_byteBits]; omega)
  rw [payloadBits_append, List.flatMap_singleton, List.length_append]
  simp [payloadDecBody_ahead hbefore hmore.le hseq, hrest, decFrom, hwalk, hwrite, Dec.ran, State.noteExhausted_false]

theorem needs_payloadDec (hwr : s.valid.wr = true) (hrd : s.valid.rd = true) (hvalid : s.valid.trie = true) :
    (needs s .payloadDec).all id = true := by
  simp [needs, hwr, hrd, hvalid]

end PayloadAhead

/-- Settles O52: the loop ends after as many paths as the length says. -/
theorem payloadDecDecodesTheSymbols : Obligations.PayloadDecDecodesTheSymbols := by
  refine ⟨decodeEncodeRoundTrip .payloadDec rfl, fun s => ⟨fun hmissing => exec_badState ?_, ?_⟩⟩
  · rcases hmissing with hwr | hrd | hvalid
    · simp [needs, hwr]
    · simp [needs, hrd]
    · simp [needs, hvalid]
  · rintro t len ps hwr hrd hvalid htrie hparams hmem hlen hpaths _ rfl hinside hstream hfits
    obtain ⟨m, hbody, happ⟩ := payloadDecBody_whole ⟨htrie, hpaths, hinside, hstream⟩ hlen hparams hmem hfits
    exact ⟨m, exec_ok (needs_payloadDec hwr hrd hvalid) nofun hbody, happ⟩

/-- Settles O53: the length, a walk, or a decoded byte is where the command ends. -/
theorem payloadDecErrors : Obligations.PayloadDecErrors := by
  intro s hwr hrd hvalid hparams hmem hle hpos
  have hneeds := needs_payloadDec hwr hrd hvalid
  refine ⟨fun hshort => exec_error hneeds nofun (payloadDecBody_noLength hle hshort), ?_⟩
  rintro t len ps htrie hpaths _ rfl hinside hstream
  have hahead : s.PayloadAhead t len ps := ⟨htrie, hpaths, hinside, hstream⟩
  refine ⟨fun hmore hfits hno => exec_error hneeds nofun (payloadDecBody_noPath hahead hmore hparams hmem hfits hno),
    fun hsome hlen hfits hover => ?_⟩
  obtain ⟨qs, x, rfl⟩ := (List.eq_nil_or_concat' ps).resolve_left (List.ne_nil_of_length_pos hsome)
  rw [List.length_append, List.length_singleton] at hlen hfits hover
  exact exec_error hneeds nofun (payloadDecBody_over hahead hlen hparams hmem hfits hover)

end Sys2Proof.Machine
end

section
/-! PROOFS. COMPRESS: the counts, the trie with a leaf for every input byte, its codes, and the wire format (46_orchestrator.md
R220, R221). -/

namespace Sys2Proof.Machine

/-! ### The trie of the input (42_trie_builder.md R150 to R153) -/

theorem arenaVisit_internal {d i l r : Nat} {ns : List Node} {is : List Nat} {f : Word}
    (hn : ns[i]? = some (.internal f l r)) (h : arenaVisit (d + 1) ns i = some is) :
    ∃ a b, arenaVisit d ns l = some a ∧ arenaVisit d ns r = some b ∧ is = i :: (a ++ b) := by
  simp only [arenaVisit, hn] at h
  cases ha : arenaVisit d ns l with
  | none => simp [ha] at h
  | some a =>
    cases hb : arenaVisit d ns r with
    | none => simp [ha, hb] at h
    | some b => exact ⟨a, b, rfl, rfl, by simpa [ha, hb] using h.symm⟩

theorem readTrie_internal {d i l r : Nat} {ns : List Node} {t : Trie} {f : Word}
    (hn : ns[i]? = some (.internal f l r)) (h : readTrie (d + 1) ns i = some t) :
    ∃ a b, readTrie d ns l = some a ∧ readTrie d ns r = some b ∧ t = .node a b := by
  simp only [readTrie, hn] at h
  cases ha : readTrie d ns l with
  | none => simp [ha] at h
  | some a =>
    cases hb : readTrie d ns r with
    | none => simp [ha, hb] at h
    | some b => exact ⟨a, b, rfl, rfl, by simpa [ha, hb] using h.symm⟩

/-- A visited leaf of the arena is a leaf of the trie read off it. -/
theorem mem_paths_of_visit {d i j : Nat} {ns : List Node} {is : List Nat} {t : Trie} {sym : Byte} {f : Word}
    (hvisit : arenaVisit d ns i = some is) (hread : readTrie d ns i = some t) (hj : j ∈ is)
    (hleaf : ns[j]? = some (.leaf sym f)) : ∃ path, (sym, path) ∈ t.paths := by
  induction d generalizing i is t with
  | zero => cases hvisit
  | succ d ih =>
    cases hn : ns[i]? with
    | none => simp [arenaVisit, hn] at hvisit
    | some n =>
      cases n with
      | leaf sym' f' =>
        simp only [arenaVisit, readTrie, hn, Option.some.injEq] at hvisit hread
        subst hvisit hread
        obtain rfl := List.mem_singleton.mp hj
        obtain ⟨rfl, -⟩ := Node.leaf.inj (Option.some.inj (hn.symm.trans hleaf))
        exact ⟨[], List.mem_singleton_self _⟩
      | internal f' l r =>
        obtain ⟨a, b, ha, hb, rfl⟩ := arenaVisit_internal hn hvisit
        obtain ⟨tl, tr, htl, htr, rfl⟩ := readTrie_internal hn hread
        rcases List.mem_cons.mp hj with rfl | hj
        · cases hn.symm.trans hleaf
        · rcases List.mem_append.mp hj with hj | hj
          · obtain ⟨path, hpath⟩ := ih ha htl hj
            exact ⟨_, Trie.mem_paths_node.mpr (.inl ⟨_, hpath, rfl⟩)⟩
          · obtain ⟨path, hpath⟩ := ih hb htr hj
            exact ⟨_, Trie.mem_paths_node.mpr (.inr ⟨_, hpath, rfl⟩)⟩

/-- A byte with a leaf has a code (44_code_table.md R190). -/
theorem Trie.codeOf_present_of_mem {t : Trie} {x : Byte × List Bool} (hx : x ∈ t.paths) :
    (t.codeOf x.1).present = true := by
  have hleaf : x ∈ t.paths.filter fun y => decide (y.1 = x.1) := List.mem_filter.mpr ⟨hx, decide_eq_true rfl⟩
  rw [codeOf, List.getLast?_eq_some_getLast (List.ne_nil_of_mem hleaf)]

/-- The builder reads the 256 counters only. -/
theorem buildArena_congr (p : Params) (d : Nat) {f g : Nat → Word} (h : ∀ v < 256, f v = g v) :
    buildArena p d f = buildArena p d g := by
  have hleaves : makeLeaves f = makeLeaves g := List.filterMap_congr fun v hv => by rw [h v (List.mem_range.mp hv)]
  rw [buildArena, hleaves, buildArena]

/-- The leaf of a nonzero counter is in the arena (42_trie_builder.md R151, R153). -/
theorem leaf_mem_buildArena (p : Params) (d : Nat) {f : Nat → Word} {v : Nat} (hv : v < 256) (hf : f v ≠ 0) :
    .leaf (BitVec.ofNat 8 v) (f v) ∈ buildArena p d f := by
  have hmem : .leaf (BitVec.ofNat 8 v) (f v) ∈ makeLeaves f := by
    rw [makeLeaves_eq]
    exact List.mem_map_of_mem (List.mem_filter.mpr ⟨List.mem_range.mpr hv, decide_eq_true hf⟩)
  rw [buildArena_eq, arenaLeaves, if_neg (List.ne_nil_of_mem hmem)]
  obtain ⟨ms, hms, -⟩ := mergeFrom_append p.tiePolicy d ((makeLeaves f).length - 1) (leafQueue 0 (makeLeaves f)) (makeLeaves f)
  rw [mergeAll, hms]
  exact List.mem_append_left _ hmem

/-- The counters FREQ_COUNT makes of the input (41_frequency.md R140). -/
def State.inputFreq (s : State) (v : Nat) : Word := BitVec.ofNat 32 (s.inputCount v)

/-- No counter wraps, because it counts at most IN_LEN bytes. -/
theorem State.inputFreq_ne_zero_iff (s : State) (v : Nat) : s.inputFreq v ≠ 0 ↔ s.inputCount v ≠ 0 := by
  have hwrap : s.inputCount v < 2 ^ 32 := (byteCount_le s.inMem s.inLen.toNat v).trans_lt s.inLen.isLt
  rw [Ne, Ne, not_iff_not, inputFreq, ← BitVec.toNat_inj, BitVec.toNat_ofNat, Nat.mod_eq_of_lt hwrap]
  rfl

/-- The arena COMPRESS builds (46_orchestrator.md R220). -/
def State.inputArena (s : State) : List Node := buildArena s.params s.draws s.inputFreq

/-- The input's trie uses the whole arena, at most 511 nodes (42_trie_builder.md R157, R158). -/
theorem State.exists_inputTrie (s : State) :
    ∃ t, s.inputTrie = some t ∧ t.size = s.inputArena.length ∧ s.inputArena.length ≤ 511 := by
  obtain ⟨is, hvisit, hperm, -, h511⟩ := buildArena_trie s.params s.draws s.inputFreq
  obtain ⟨t, hread, hsize⟩ := readTrie_of_visit _ _ _ _ hvisit
  exact ⟨t, hread, hsize.trans (hperm.length_eq.trans List.length_range), h511⟩

section InputTrie
variable {s : State} {t : Trie} (htrie : s.inputTrie = some t)
include htrie

theorem State.inputTrie_size : t.size = s.inputArena.length ∧ t.size ≤ 511 := by
  obtain ⟨t', ht', hsize, h511⟩ := s.exists_inputTrie
  obtain rfl := Option.some.inj (ht'.symm.trans htrie)
  exact ⟨hsize, by omega⟩

/-- One leaf per distinct input byte, and one for the empty input (42_trie_builder.md R151, R152). -/
theorem State.inputTrie_leaves :
    t.leaves = max 1 ((List.range 256).filter fun v => decide (s.inputCount v ≠ 0)).length := by
  obtain ⟨-, -, -, hlen, -⟩ := buildArena_trie s.params s.draws s.inputFreq
  obtain ⟨hsize, -⟩ := inputTrie_size htrie
  have := t.size_eq
  rw [inputArena, hlen, length_makeLeaves_eq] at hsize
  simp only [inputFreq_ne_zero_iff] at hsize
  omega

/-- A trie of at most 256 leaves is never too deep for the code table (44_code_table.md R190). -/
theorem State.inputTrie_depth : t.depth ≤ Config.codeMax := by
  obtain ⟨-, h511⟩ := inputTrie_size htrie
  have := t.size_eq
  have := t.depth_lt_leaves
  have hmax : Config.codeMax = 255 := rfl
  omega

/-- Every input byte has a code (46_orchestrator.md R220): its count is not 0. -/
theorem State.inputTrie_codes {k : Nat} (hk : k < s.inLen.toNat) : (t.codeOf (s.inMem.read k)).present = true := by
  have hcount : s.inputCount (s.inMem.read k).toNat ≠ 0 := by
    have hcounted : k ∈ (List.range s.inLen.toNat).filter fun j =>
        decide ((s.inMem.read j).toNat = (s.inMem.read k).toNat) :=
      List.mem_filter.mpr ⟨List.mem_range.mpr hk, decide_eq_true rfl⟩
    exact (List.length_pos_of_mem hcounted).ne'
  have hleaf := leaf_mem_buildArena s.params s.draws (s.inMem.read k).isLt ((s.inputFreq_ne_zero_iff _).mpr hcount)
  rw [BitVec.ofNat_toNat, BitVec.setWidth_eq] at hleaf
  obtain ⟨is, hvisit, hperm, -⟩ := buildArena_trie s.params s.draws s.inputFreq
  obtain ⟨j, hj⟩ := List.getElem?_of_mem hleaf
  obtain ⟨hlt, -⟩ := List.getElem?_eq_some_iff.mp hj
  obtain ⟨path, hpath⟩ := mem_paths_of_visit hvisit htrie (hperm.mem_iff.mpr (List.mem_range.mpr hlt)) hj
  exact Trie.codeOf_present_of_mem hpath

end InputTrie

/-! ### The parts of COMPRESS (46_orchestrator.md R220) -/

/-- The state with the counts of the input (41_frequency.md R140). -/
def State.withInputFreq (s : State) : State :=
  { s with freq := (List.range 256).map s.inputFreq, valid := { s.valid with freq := true } }

/-- The state with the counts and the trie of the input (42_trie_builder.md R150). -/
def State.withInputTrie (s : State) : State :=
  { s with
    freq := (List.range 256).map s.inputFreq
    node := s.inputArena
    nodeCount := BitVec.ofNat 32 s.inputArena.length
    root := BitVec.ofNat 32 (s.inputArena.length - 1)
    valid := { s.valid with freq := true, trie := true, code := false } }

/-- The state in which COMPRESS starts to write, `t` being the input's trie: the three tables made, the writer at its
start. -/
def State.withInputTables (s : State) (t : Trie) : State :=
  { s with
    freq := (List.range 256).map s.inputFreq
    node := s.inputArena
    nodeCount := BitVec.ofNat 32 s.inputArena.length
    root := BitVec.ofNat 32 (s.inputArena.length - 1)
    code := (List.range 256).map fun v => t.codeOf (BitVec.ofNat 8 v)
    wrPos := 0
    valid := ⟨true, true, true, s.valid.rd, true, false⟩ }

theorem freqCountBody_eq (s : State) : freqCountBody s = .ok s.withInputFreq := by
  rw [freqCountBody, countFrom_zeroCounts]
  rfl

theorem trieBuildBody_withInputFreq (s : State) : trieBuildBody s.withInputFreq = .ok s.withInputTrie := by
  have harena : s.withInputFreq.builtArena = s.inputArena := by
    refine buildArena_congr _ _ fun v hv => ?_
    simp [State.freqAt, State.withInputFreq, hv]
  rw [State.withInputTrie, ← harena]
  rfl

theorem codeBuildBody_fits {s : State} {t : Trie} (htrie : s.trie? = some t) (hdepth : t.depth ≤ Config.codeMax) :
    codeBuildBody s = .ok (s.withCodesOf t) := by
  simp only [codeBuildBody, htrie, walkCodes_codeOf t hdepth, State.withCodesOf]

/-- PAYLOAD_ENC of an input whose every byte has a code only writes bits (45_payload_codec.md R200). -/
theorem payloadEncBody_allCoded {s : State}
    (hcoded : ∀ j < s.inLen.toNat, (s.codeAt (s.inMem.read j).toNat).present = true) :
    payloadEncBody s = s.wrote (wrSeq s.params.outCap (s.encodedBits s.inLen.toNat) s.writer) := by
  rw [payloadEncBody_coded le_rfl hcoded, Nat.sub_self]
  cases wrSeq s.params.outCap (s.encodedBits s.inLen.toNat) s.writer <;> rfl

@[simp] theorem State.setWriter_writer (s : State) (w : Writer) : (s.setWriter w).writer = w := rfl

/-- Bits written by two bodies and dumped: an overflow in either leaves the same empty writer (60_exceptions.md R246). -/
theorem wrote_append_dump {s : State} {xs ys : List Bool} {k : State → Ran}
    (hk : ∀ w, k (s.setWriter w) = (s.setWriter w).wrote (wrSeq s.params.outCap ys w)) :
    (((s.wrote (wrSeq s.params.outCap xs s.writer)).andThen k).andThen wrDumpBody).finishWriter
      = ((s.wrote (wrSeq s.params.outCap (xs ++ ys) s.writer)).andThen wrDumpBody).finishWriter := by
  rw [wrSeq_append]
  cases wrSeq s.params.outCap xs s.writer with
  | none => rfl
  | some w =>
    simp only [wrote_some, Ran.andThen, hk, Option.bind_some]
    cases wrSeq s.params.outCap ys w <;> rfl

/-- The table of the input's codes read back at a byte. -/
theorem State.withInputTables_codeAt (s : State) (t : Trie) (v : Byte) :
    (s.withInputTables t).codeAt v.toNat = t.codeOf v := by
  simp [codeAt, withInputTables, v.isLt]

/-- The length and the codes of the whole input are the rest of the wire format (46_orchestrator.md R221). -/
theorem State.withInputTables_encodedBits (s : State) (t : Trie) :
    t.bits ++ (s.withInputTables t).encodedBits s.inLen.toNat = s.wireBits t := by
  simp only [encodedBits, withInputTables_codeAt]
  rfl

section CompressParts
variable {s : State} {t : Trie} (htrie : s.inputTrie = some t)
include htrie

theorem State.withInputTrie_trie? : s.withInputTrie.trie? = some t := by
  obtain ⟨hsize, h511⟩ := inputTrie_size htrie
  have hroot : s.withInputTrie.root.toNat = s.inputArena.length - 1 :=
    (BitVec.toNat_ofNat ..).trans (Nat.mod_eq_of_lt (by omega))
  rw [trie?, hroot]
  exact htrie

/-- The parts before the first write make the tables and start the writer. -/
theorem compressBody_tables : compressBody s
    = ((trieSerBody (s.withInputTables t)).andThen payloadEncBody).andThen wrDumpBody := by
  have hcodes := codeBuildBody_fits (State.withInputTrie_trie? htrie) (State.inputTrie_depth htrie)
  simp only [compressBody, freqCountBody_eq, Ran.andThen, trieBuildBody_withInputFreq, hcodes]
  rfl

/-- COMPRESS past its check makes the tables, writes the wire format and finishes the buffer (46_orchestrator.md R220). -/
theorem exec_compress (hlen : s.inLen.toNat ≤ s.params.inCap) : exec .compress s
    = (((s.withInputTables t).wrote (wrSeq (s.withInputTables t).params.outCap (s.wireBits t)
        (s.withInputTables t).writer)).andThen wrDumpBody).finishWriter := by
  have hpayload : ∀ w, payloadEncBody ((s.withInputTables t).setWriter w) = ((s.withInputTables t).setWriter w).wrote
      (wrSeq (s.withInputTables t).params.outCap ((s.withInputTables t).encodedBits s.inLen.toNat) w) := fun w =>
    payloadEncBody_allCoded fun j hj =>
      (congrArg CodeEntry.present (s.withInputTables_codeAt t _)).trans (State.inputTrie_codes htrie hj)
  have htables : (s.withInputTables t).trie? = some t := State.withInputTrie_trie? htrie
  rw [← s.withInputTables_encodedBits, ← wrote_append_dump hpayload, ← trieSerBody_eq htables, ← compressBody_tables htrie]
  exact exec_checked rfl fun _ => hlen

theorem exec_compress_fits (hlen : s.inLen.toNat ≤ s.params.inCap) (hparams : s.params.wf = true)
    (hmem : s.outMem.wf = true) (hfits : (s.wireBits t).length ≤ 8 * s.params.outCap) :
    ∃ m, exec .compress s = .next ({ s.withInputTables t with
        wrPos := BitVec.ofNat 32 (s.wireBits t).length
        outMem := m
        valid := ⟨true, true, true, s.valid.rd, false, true⟩ }).complete
      ∧ Appended s.outMem m 0 (s.wireBits t) := by
  obtain ⟨m, hwrote, happ⟩ := wrote_wrSeq_fits (s := s.withInputTables t) (bs := s.wireBits t) hparams hmem
    ((Nat.zero_add _).trans_le hfits)
  have hpos : (s.withInputTables t).wrPos + BitVec.ofNat 32 (s.wireBits t).length
      = BitVec.ofNat 32 (s.wireBits t).length := BitVec.zero_add _
  rw [hpos] at hwrote
  refine ⟨m, ?_, happ⟩
  rw [exec_compress htrie hlen, hwrote]
  rfl

theorem exec_compress_over (hlen : s.inLen.toNat ≤ s.params.inCap) (hparams : s.params.wf = true)
    (hover : 8 * s.params.outCap < (s.wireBits t).length) :
    exec .compress s = .next ((s.withInputTables t).emptyWriter.raise .outOverflow) := by
  rw [exec_compress htrie hlen, wrote_wrSeq_over (s := s.withInputTables t) hparams (Nat.zero_le _)
    (hover.trans_eq (Nat.zero_add _).symm)]
  rfl

end CompressParts

/-- Settles O54: every input byte has a code in a trie of at most 256 leaves, so the one way to fail is a full OUT_MEM. -/
theorem compressWritesTheWireFormat : Obligations.CompressWritesTheWireFormat := by
  refine ⟨decodeEncodeRoundTrip .compress rfl, fun s => ⟨exec_inRange rfl rfl, fun hparams hmem hlen => ?_⟩⟩
  obtain ⟨t, htrie, hsize, -⟩ := s.exists_inputTrie
  exact ⟨t, s.inputArena, htrie, htrie, hsize, State.inputTrie_leaves htrie,
    exec_compress_fits htrie hlen hparams hmem, fun hover => ⟨_, exec_compress_over htrie hlen hparams hover⟩⟩

end Sys2Proof.Machine
end

section
/-! PROOFS. EXTRACT: the trie, the length and the paths read, the bytes written, and every error with what it leaves
(46_orchestrator.md R222). -/

namespace Sys2Proof.Machine

/-! ### The ends of EXTRACT by its parts (46_orchestrator.md R222; 60_exceptions.md R245, R246) -/

section ExtractParts
variable {s u v : State} {c : ErrCode} (hlen : s.inLen.toNat ≤ s.params.inCap)
include hlen

theorem exec_extract_trieError (htrie : trieDeserBody s.beforeTrie = .error c u) :
    exec .extract s = .next (u.emptyWriter.raise c) := by
  rw [exec_extract s hlen, htrie]
  rfl

theorem exec_extract_payloadError (htrie : trieDeserBody s.beforeTrie = .ok u) (hpayload : payloadDecBody u = .error c v) :
    exec .extract s = .next (v.emptyWriter.raise c) := by
  rw [exec_extract s hlen, htrie, Ran.andThen, hpayload]
  rfl

theorem exec_extract_ok (htrie : trieDeserBody s.beforeTrie = .ok u) (hpayload : payloadDecBody u = .ok v) :
    exec .extract s = .next ({ v with valid := { v.valid with wr := false, wrDumped := true } }).complete := by
  rw [exec_extract s hlen, htrie, Ran.andThen, hpayload]
  rfl

end ExtractParts

/-- The bits of the input fit in a register (10_state.md R29). -/
theorem State.toNat_inBits {s : State} (hparams : s.params.wf = true) (hlen : s.inLen.toNat ≤ s.params.inCap) :
    (8 * s.inLen).toNat = 8 * s.inLen.toNat := by
  obtain ⟨-, hcap, -⟩ := (Params.wf_iff _).mp hparams
  rw [BitVec.toNat_mul, show (8 : Word).toNat = 8 from rfl, Nat.mod_eq_of_lt (by omega)]

/-! ### No trie (60_exceptions.md R247, R248) -/

theorem State.beforeTrie_trieAhead_iff {s : State} (hparams : s.params.wf = true)
    (hlen : s.inLen.toNat ≤ s.params.inCap) : s.beforeTrie.trieAhead ↔ ∃ t : Trie, t.size ≤ s.params.nodeCap
      ∧ t.bits.length ≤ 8 * s.inLen.toNat ∧ s.inMem.stream 0 t.bits.length = t.bits := by
  rw [← toNat_inBits hparams hlen]
  simp [trieAhead, beforeTrie]

/-- An empty stream holds no trie, because a serialized trie has at least 9 bits (43_trie_codec.md R170). -/
theorem State.not_trieAhead_of_end {s : State} (hend : s.rdEnd = s.rdPos) : ¬ s.trieAhead := by
  rintro ⟨t, -, hinside, -⟩
  have := t.length_bits
  have := t.leaves_pos
  rw [hend] at hinside
  omega

/-! ### A trie and its payload (45_payload_codec.md R202) -/

/-- The input begins with the trie `t` that the arena has room for, the length `len` and the paths `ps` of `t`. -/
structure State.WireAhead (s : State) (t : Trie) (len : Word) (ps : List (Byte × List Bool)) : Prop where
  size : t.size ≤ s.params.nodeCap
  paths : ∀ x ∈ ps, x ∈ t.paths
  inside : (t.bits ++ payloadBits len ps).length ≤ 8 * s.inLen.toNat
  stream : s.inMem.stream 0 (t.bits ++ payloadBits len ps).length = t.bits ++ payloadBits len ps

/-- The state in which EXTRACT's PAYLOAD_DEC body begins, `t` being the trie read. -/
def State.afterTrie (s : State) (t : Trie) : State :=
  { s with
    rdPos := BitVec.ofNat 32 t.bits.length
    rdEnd := 8 * s.inLen
    node := t.preorder 0
    nodeCount := BitVec.ofNat 32 t.size
    root := 0
    wrPos := 0
    valid := ⟨s.valid.freq, true, false, true, true, false⟩ }

/-- RD_POS just after the trie and the bits `bs`. -/
theorem State.afterTrie_rdPos_add (s : State) (t : Trie) (bs : List Bool) :
    (s.afterTrie t).rdPos + BitVec.ofNat 32 bs.length = BitVec.ofNat 32 (t.bits ++ bs).length := by
  rw [List.length_append, BitVec.ofNat_add]
  rfl

section AfterTrie
variable {s : State} {t : Trie} (hparams : s.params.wf = true) (hlen : s.inLen.toNat ≤ s.params.inCap)
include hparams hlen

theorem trieDeserBody_beforeTrie (hsize : t.size ≤ s.params.nodeCap) (hinside : t.bits.length ≤ 8 * s.inLen.toNat)
    (hbits : s.inMem.stream 0 t.bits.length = t.bits) : trieDeserBody s.beforeTrie = .ok (s.afterTrie t) := by
  rw [← State.toNat_inBits hparams hlen] at hinside
  rw [trieDeserBody_trie (s := s.beforeTrie) hsize ((Nat.zero_add _).trans_le hinside) hbits, State.withTrieRead,
    show s.beforeTrie.rdPos + BitVec.ofNat 32 t.bits.length = BitVec.ofNat 32 t.bits.length from BitVec.zero_add _]
  rfl

/-- RD_POS does not wrap over the bits of the trie. -/
theorem State.afterTrie_toNat_rdPos (hinside : t.bits.length ≤ 8 * s.inLen.toNat) :
    (s.afterTrie t).rdPos.toNat = t.bits.length := by
  rw [← toNat_inBits hparams hlen] at hinside
  exact (BitVec.toNat_ofNat ..).trans (Nat.mod_eq_of_lt (hinside.trans_lt (BitVec.isLt _)))

/-- The stream ends inside the length (60_exceptions.md R248). -/
theorem exec_extract_noLength (hsize : t.size ≤ s.params.nodeCap) (hinside : t.bits.length ≤ 8 * s.inLen.toNat)
    (hbits : s.inMem.stream 0 t.bits.length = t.bits) (hshort : 8 * s.inLen.toNat < t.bits.length + 32) :
    exec .extract s = .next (({ (s.afterTrie t).emptyWriter with
      decLen := 0, rdPos := 8 * s.inLen, status := { s.status with exh := true } }).raise .corruptStream) := by
  have hpos := State.afterTrie_toNat_rdPos hparams hlen hinside
  have hend : (s.afterTrie t).rdEnd.toNat = 8 * s.inLen.toNat := State.toNat_inBits hparams hlen
  exact exec_extract_payloadError hlen (trieDeserBody_beforeTrie hparams hlen hsize hinside hbits)
    (payloadDecBody_noLength (by omega) (by omega))

variable {len : Word} {ps : List (Byte × List Bool)} (h : s.WireAhead t len ps)
include h

/-- The trie and its payload stand one after the other. -/
theorem State.WireAhead.split : trieDeserBody s.beforeTrie = .ok (s.afterTrie t) ∧ (s.afterTrie t).PayloadAhead t len ps := by
  obtain ⟨hsize, hpaths, hinside, hstream⟩ := h
  rw [List.length_append] at hinside hstream
  rw [stream_add, Nat.zero_add] at hstream
  obtain ⟨htrie, hpayload⟩ := List.append_inj hstream (length_stream _ _ _)
  have hpos := State.afterTrie_toNat_rdPos (t := t) hparams hlen (by omega)
  have hend : (s.afterTrie t).rdEnd.toNat = 8 * s.inLen.toNat := State.toNat_inBits hparams hlen
  refine ⟨trieDeserBody_beforeTrie hparams hlen hsize (by omega) htrie, readTrie_preorder t, hpaths, by omega, ?_⟩
  rw [hpos]
  exact hpayload

/-- As many paths as the length says, with bytes that fit, are decoded (45_payload_codec.md R202 to R204). -/
theorem exec_extract_whole (hcount : ps.length = len.toNat) (hmem : s.outMem.wf = true) (hfits : ps.length ≤ s.params.outCap) :
    ∃ m, exec .extract s = .next ({ s.afterTrie t with
        decLen := len
        rdPos := BitVec.ofNat 32 (t.bits ++ payloadBits len ps).length
        wrPos := BitVec.ofNat 32 (8 * ps.length)
        outMem := m
        valid := ⟨s.valid.freq, true, false, true, false, true⟩ }).complete
      ∧ Appended s.outMem m 0 (leafBits ps) := by
  obtain ⟨htrie, hahead⟩ := h.split hparams hlen
  obtain ⟨m, hpayload, happ⟩ := payloadDecBody_whole hahead hcount hparams hmem
    ((Nat.zero_add _).trans_le (Nat.mul_le_mul_left 8 hfits))
  have hpos : (s.afterTrie t).wrPos + BitVec.ofNat 32 (8 * ps.length) = BitVec.ofNat 32 (8 * ps.length) := BitVec.zero_add _
  rw [State.afterTrie_rdPos_add, hpos] at hpayload
  exact ⟨m, exec_extract_ok hlen htrie hpayload, happ⟩

/-- No path of the trie follows: the stream ends inside the walk (60_exceptions.md R248). -/
theorem exec_extract_noPath (hmore : ps.length < len.toNat) (hmem : s.outMem.wf = true) (hfits : ps.length ≤ s.params.outCap)
    (hno : ∀ x ∈ t.paths, ¬ ((t.bits ++ payloadBits len ps).length + x.2.length ≤ 8 * s.inLen.toNat
      ∧ s.inMem.stream (t.bits ++ payloadBits len ps).length x.2.length = x.2)) :
    exec .extract s = .next (({ (s.afterTrie t).emptyWriter with
      decLen := len, rdPos := 8 * s.inLen, status := { s.status with exh := true } }).raise .corruptStream) := by
  obtain ⟨htrie, hahead⟩ := h.split hparams hlen
  have hinside := h.inside
  rw [List.length_append] at hno hinside
  rw [← State.afterTrie_toNat_rdPos (t := t) hparams hlen (by omega), ← State.toNat_inBits hparams hlen] at hno
  exact exec_extract_payloadError hlen htrie (payloadDecBody_noPath hahead hmore hparams hmem
    ((Nat.zero_add _).trans_le (Nat.mul_le_mul_left 8 hfits)) hno)

/-- The first byte past OUT_CAP does not fit (60_exceptions.md R246). -/
theorem exec_extract_over (hcount : ps.length = s.params.outCap + 1) (hmore : ps.length ≤ len.toNat)
    (hmem : s.outMem.wf = true) : exec .extract s = .next (({ (s.afterTrie t).emptyWriter with
      decLen := len, rdPos := BitVec.ofNat 32 (t.bits ++ payloadBits len ps).length }).raise .outOverflow) := by
  obtain ⟨htrie, hahead⟩ := h.split hparams hlen
  obtain ⟨qs, x, rfl⟩ := (List.eq_nil_or_concat' ps).resolve_left (List.ne_nil_of_length_pos (by omega))
  rw [List.length_append, List.length_singleton] at hcount hmore
  have hpayload := payloadDecBody_over hahead hmore hparams hmem
    (show 0 + 8 * qs.length ≤ 8 * s.params.outCap by omega) (show 8 * s.params.outCap < 0 + 8 * (qs.length + 1) by omega)
  rw [State.afterTrie_rdPos_add] at hpayload
  exact exec_extract_payloadError hlen htrie hpayload

end AfterTrie

/-! ### The bytes written -/

/-- Byte `k` of a memory is its 8 stream bits from `8 * k` (20_memory.md R70). -/
theorem stream_byte (m : Memory) (k : Nat) : m.stream (8 * k) 8 = byteBits (m.read k) := by
  symm
  rw [byteBits, lowBits_eq_stream_iff]
  intro j hj
  rw [Memory.streamBit, show (8 * k + j) / 8 = k by omega, show (8 * k + j) % 8 = j by omega]
  rfl

/-- The bytes of the leaves of `ps` stand where their bits do. -/
theorem read_of_stream_leafBits {m : Memory} {ps : List (Byte × List Bool)} {p k : Nat} {x : Byte × List Bool}
    (hstream : m.stream (8 * p) (leafBits ps).length = leafBits ps) (hx : ps[k]? = some x) : m.read (p + k) = x.1 := by
  induction ps generalizing p k with
  | nil => cases hx
  | cons y ps ih =>
    rw [show leafBits (y :: ps) = byteBits y.1 ++ leafBits ps from rfl, List.length_append, length_byteBits, stream_add,
      stream_byte] at hstream
    obtain ⟨hbyte, hrest⟩ := List.append_inj hstream rfl
    cases k with
    | zero =>
      obtain rfl := Option.some.inj hx
      exact byteBits_injective _ _ hbyte
    | succ k =>
      rw [← ih (p := p + 1) hrest hx, Nat.add_assoc, Nat.add_comm 1 k]

/-- Settles O55: the input begins with a trie or not; after a trie it ends inside the length, inside a walk, at a byte that
does not fit, or well. -/
theorem extractDecodesTheWireFormat : Obligations.ExtractDecodesTheWireFormat := by
  refine ⟨decodeEncodeRoundTrip .extract rfl, fun s => ⟨exec_inRange rfl rfl, fun hempty => ?_, ?_,
    fun hparams hlen hno => ?_, fun t hparams hmem hlen hsize hinside hbits => ?_⟩⟩
  · have hend : 8 * s.inLen = 0 := congrArg (8 * ·) hempty
    have hlen : s.inLen.toNat ≤ s.params.inCap := by simp [hempty]
    have hcorrupt := trieDeserBody_corrupt (s := s.beforeTrie) (congrArg BitVec.toNat hend).ge
      (State.not_trieAhead_of_end hend) ((congrArg BitVec.toNat hend).trans_le (Nat.zero_le _))
    refine ⟨2 * s.draws + 1, (exec_extract_trieError hlen hcorrupt).trans ?_⟩
    simp only [State.beforeTrie, hend]
    rfl
  · rintro t len ps hparams hmem hlen hsize hcount hpaths hfits _ rfl hinside hstream
    obtain ⟨m, hexec, hwritten, -, hrest, -⟩ :=
      exec_extract_whole hparams hlen ⟨hsize, hpaths, hinside, hstream⟩ hcount hmem hfits
    refine ⟨m, hexec, fun k x hx => ?_, fun k hk => hrest k (.inr ?_)⟩
    · rw [← read_of_stream_leafBits (p := 0) hwritten hx, Nat.zero_add]
    · rw [length_leafBits]
      omega
  · rw [← State.beforeTrie_trieAhead_iff hparams hlen] at hno
    have hend : s.beforeTrie.rdEnd.toNat = 8 * s.inLen.toNat := State.toNat_inBits hparams hlen
    refine ⟨2 * s.draws + 1, ?_⟩
    rintro _ rfl
    constructor
    · intro htag
      exact exec_extract_trieError hlen (trieDeserBody_corrupt (Nat.zero_le _) hno (hend.trans_le htag))
    · intro htag
      exact exec_extract_trieError hlen (trieDeserBody_overflow (Nat.zero_le _) hno (htag.trans_eq hend.symm))
  · refine ⟨2 * s.draws + 1, ?_⟩
    rintro _ rfl
    refine ⟨exec_extract_noLength hparams hlen hsize hinside hbits, ?_⟩
    rintro len ps hpaths _ rfl hinside hstream
    have hahead : s.WireAhead t len ps := ⟨hsize, hpaths, hinside, hstream⟩
    exact ⟨fun hmore hfits => exec_extract_noPath hparams hlen hahead hmore hmem hfits,
      fun hcount hmore => exec_extract_over hparams hlen hahead hcount hmore hmem⟩

end Sys2Proof.Machine
end

section
/-! PROOFS. EXTRACT inverts COMPRESS (46_orchestrator.md R223). -/

namespace Sys2Proof.Machine

/-- Every input byte with the path of its code in the trie `t` (46_orchestrator.md R221). -/
def State.inputPaths (s : State) (t : Trie) : List (Byte × List Bool) :=
  (List.range s.inLen.toNat).map fun k => (s.inMem.read k, (t.codeOf (s.inMem.read k)).bits)

theorem State.length_inputPaths (s : State) (t : Trie) : (s.inputPaths t).length = s.inLen.toNat := by
  simp [inputPaths]

theorem State.getElem?_inputPaths (s : State) (t : Trie) {k : Nat} (hk : k < s.inLen.toNat) :
    (s.inputPaths t)[k]? = some (s.inMem.read k, (t.codeOf (s.inMem.read k)).bits) := by
  simp [inputPaths, hk]

/-- The wire format is the trie, the length and the paths of the input (46_orchestrator.md R221). -/
theorem State.wireBits_eq (s : State) (t : Trie) : s.wireBits t = t.bits ++ payloadBits s.inLen (s.inputPaths t) := by
  rw [wireBits, payloadBits, inputPaths, List.flatMap_map]

/-- The codes of the input are paths of its trie (44_code_table.md R190). -/
theorem State.inputPaths_mem_paths {s : State} {t : Trie} (htrie : s.inputTrie = some t) :
    ∀ x ∈ s.inputPaths t, x ∈ t.paths := by
  intro x hx
  obtain ⟨k, hk, rfl⟩ := List.mem_map.mp hx
  exact Trie.codeOf_mem_paths (inputTrie_codes htrie (List.mem_range.mp hk))

/-- A stream of `n` bits is determined by the bytes it begins. -/
theorem stream_congr_bytes {m m' : Memory} {n : Nat} (h : ∀ k < (n + 7) / 8, m.read k = m'.read k) :
    m.stream 0 n = m'.stream 0 n :=
  stream_congr _ _ _ _ fun q _ hq => by rw [Memory.streamBit, Memory.streamBit, h (q / 8) (by omega)]

/-- EXTRACT's input ahead begins with the part of it that has fewer paths. -/
theorem State.WireAhead.of_append {s : State} {t : Trie} {len : Word} {ps qs : List (Byte × List Bool)}
    (h : s.WireAhead t len (ps ++ qs)) : s.WireAhead t len ps := by
  obtain ⟨hsize, hpaths, hinside, hstream⟩ := h
  rw [payloadBits_append, ← List.append_assoc, List.length_append] at hinside hstream
  rw [stream_add] at hstream
  obtain ⟨hbefore, -⟩ := List.append_inj hstream (length_stream _ _ _)
  exact ⟨hsize, fun x hx => hpaths x (List.mem_append_left _ hx), by omega, hbefore⟩

/-- A COMPRESS without error leaves the wire format of the input's trie in OUT[0..OUT_LEN) (46_orchestrator.md R220, R221). -/
theorem exec_compress_noError {s u : State} (hparams : s.params.wf = true) (hmem : s.outMem.wf = true)
    (hlen : s.inLen.toNat ≤ s.params.inCap) (hexec : exec .compress s = .next u) (hok : u.status.err = false) :
    ∃ t, s.inputTrie = some t ∧ u.outLen = ((s.wireBits t).length + 7) / 8
      ∧ u.outMem.stream 0 (s.wireBits t).length = s.wireBits t := by
  obtain ⟨t, htrie, -⟩ := s.exists_inputTrie
  by_cases hfits : (s.wireBits t).length ≤ 8 * s.params.outCap
  · obtain ⟨m, hnext, hwritten, -⟩ := exec_compress_fits htrie hlen hparams hmem hfits
    obtain rfl := Host.Outcome.next.inj (hnext.symm.trans hexec)
    have hpos : (BitVec.ofNat 32 (s.wireBits t).length).toNat = (s.wireBits t).length :=
      (BitVec.toNat_ofNat ..).trans (Nat.mod_eq_of_lt (hfits.trans_lt (Params.outBits_lt_of_wf hparams)))
    refine ⟨t, htrie, ?_, hwritten⟩
    rw [State.outLen, State.complete_wrPos, hpos]
  · obtain rfl := Host.Outcome.next.inj ((exec_compress_over htrie hlen hparams (by omega)).symm.trans hexec)
    cases hok

/-- What COMPRESS of `s` left, placed in the IN_MEM of `u`, is a stream EXTRACT reads (46_orchestrator.md R223): the trie has at
most 511 nodes, and every block has room for that many (00_scope.md R7). -/
theorem State.WireAhead.of_compressed {s u : State} {t : Trie} (htrie : s.inputTrie = some t) (hparams : u.params.wf = true)
    (hlen : u.inLen.toNat = ((s.wireBits t).length + 7) / 8)
    (hstream : u.inMem.stream 0 (s.wireBits t).length = s.wireBits t) : u.WireAhead t s.inLen (s.inputPaths t) := by
  obtain ⟨-, h511⟩ := inputTrie_size htrie
  obtain ⟨-, -, -, -, hcap, -⟩ := (Params.wf_iff _).mp hparams
  rw [State.wireBits_eq] at hlen hstream
  exact ⟨h511.trans hcap, inputPaths_mem_paths htrie, by omega, hstream⟩

/-- Settles O56: what COMPRESS wrote begins with the input's trie, length and paths, which EXTRACT decodes as far as OUT_MEM
reaches. -/
theorem extractInvertsCompress : Obligations.ExtractInvertsCompress := by
  intro s c u hparams hmem _ hlen hcompress hok huparams humem huok hulen hucap hcopy
  obtain ⟨t, htrie, hout, hwritten⟩ := exec_compress_noError hparams hmem hlen hcompress hok
  have hstream : u.inMem.stream 0 (s.wireBits t).length = s.wireBits t :=
    (stream_congr_bytes (hout ▸ hcopy)).trans hwritten
  have hahead := State.WireAhead.of_compressed htrie huparams (hulen.trans hout) hstream
  have hcount := s.length_inputPaths t
  have hulen' : u.inLen.toNat ≤ u.params.inCap := hulen.trans_le hucap
  by_cases hfits : s.inLen.toNat ≤ u.params.outCap
  · obtain ⟨m, hextract, hbytes, -⟩ :=
      exec_extract_whole huparams hulen' hahead hcount humem (hcount.trans_le hfits)
    refine ⟨_, hextract, .inl ⟨huok, ?_, fun k hk => ?_⟩⟩
    · have := Params.outBits_lt_of_wf huparams
      rw [State.outLen, State.complete_wrPos, hcount, BitVec.toNat_ofNat, Nat.mod_eq_of_lt (by omega)]
      omega
    · rw [State.complete_outMem, ← Nat.zero_add k]
      exact (read_of_stream_leafBits (p := 0) hbytes (s.getElem?_inputPaths t hk)).trans (by rw [Nat.zero_add])
  · rw [← List.take_append_drop (u.params.outCap + 1) (s.inputPaths t)] at hahead
    have htaken : ((s.inputPaths t).take (u.params.outCap + 1)).length = u.params.outCap + 1 := by
      rw [List.length_take, hcount]
      omega
    exact ⟨_, exec_extract_over huparams hulen' hahead.of_append htaken (by omega) humem, .inr ⟨by omega, rfl⟩⟩

end Sys2Proof.Machine
end

section
/-! PROOFS. What a command leaves of the host's state, and how it reports its end in STATUS (10_state.md R42, R46;
60_exceptions.md R241, R243 to R245, R249). -/

namespace Sys2Proof.Machine

/-! ### The state the host writes -/

/-- A state with what the Core may write in the middle of a command set back: the host's registers, IN_MEM, the host's moves,
and STATUS without EXH stay (10_state.md R42, R46). -/
def State.hostSide (s : State) : State :=
  { State.reset with
    params := s.params
    cmd := s.cmd
    status := { s.status with exh := false }
    arg := s.arg
    inLen := s.inLen
    irqEn := s.irqEn
    inMem := s.inMem
    host := s.host
    reply := s.reply }

theorem State.hostSide_inj {u s : State} (h : u.hostSide = s.hostSide) :
    u.status.ovr = s.status.ovr ∧ u.params = s.params ∧ u.cmd = s.cmd ∧ u.arg = s.arg ∧ u.inLen = s.inLen
      ∧ u.irqEn = s.irqEn ∧ u.inMem = s.inMem ∧ u.host = s.host ∧ u.reply = s.reply := by
  simp only [State.hostSide, State.mk.injEq, Status.mk.injEq] at h
  tauto

theorem State.err_of_hostSide {u s : State} (h : u.hostSide = s.hostSide) : u.status.err = s.status.err :=
  congrArg (·.status.err) h

theorem State.errcode_of_hostSide {u s : State} (h : u.hostSide = s.hostSide) : u.status.errcode = s.status.errcode :=
  congrArg (·.status.errcode) h

/-- The body of a command that is no composition keeps the host's state. -/
theorem bodyOf_hostSide_single (i : Instr) (s : State) (hc : i ≠ .compress) (he : i ≠ .extract) :
    (bodyOf i s).Ends (·.hostSide = s.hostSide) (·.hostSide = s.hostSide) := by
  cases i with
  | rdInit => rfl
  | rdBit => rfl
  | rdBits n => rfl
  | rdU32be => rfl
  | wrInit => rfl
  | wrBit imm8 => exact wrBitBody_ends imm8 s (fun _ _ _ => rfl) rfl
  | wrBits n imm8 => exact wrBitsBody_ends n imm8 s (fun _ _ _ => rfl) rfl
  | wrU32be => exact wrU32beBody_ends s (fun _ _ _ => rfl) rfl
  | wrDump => rfl
  | freqCount => rfl
  | trieBuild => rfl
  | trieSer => exact trieSerBody_ends s (fun _ _ _ => rfl) rfl
  | trieDeser => exact trieDeserBody_ends s (fun _ _ _ _ => rfl) fun _ _ _ => rfl
  | codeBuild => exact codeBuildBody_ends s (fun _ _ _ => rfl) rfl
  | payloadEnc => exact payloadEncBody_ends s (fun _ _ _ => rfl) rfl
  | payloadDec => exact payloadDecBody_ends s (fun _ _ _ _ _ _ => rfl) fun _ _ _ _ => rfl
  | compress => exact absurd rfl hc
  | extract => exact absurd rfl he

/-- A composition keeps the host's state when each of its parts does (46_orchestrator.md R220, R222). -/
theorem thenAll_hostSide (s : State) (js : List Instr) (hc : .compress ∉ js) (he : .extract ∉ js) :
    ((Ran.ok s).thenAll js).Ends (·.hostSide = s.hostSide) (·.hostSide = s.hostSide) := by
  refine Ran.Ends.thenAll (P := (·.hostSide = s.hostSide)) (r := .ok s) rfl js fun j hj u hu => ?_
  rw [← hu]
  exact bodyOf_hostSide_single j u (ne_of_mem_of_not_mem hj hc) (ne_of_mem_of_not_mem hj he)

theorem bodyOf_hostSide (i : Instr) (s : State) :
    (bodyOf i s).Ends (·.hostSide = s.hostSide) (·.hostSide = s.hostSide) := by
  cases i with
  | compress => exact thenAll_hostSide s compressParts (by decide) (by decide)
  | extract => exact thenAll_hostSide s extractParts (by decide) (by decide)
  | _ => exact bodyOf_hostSide_single _ s nofun nofun

theorem State.afterError_hostSide (i : Instr) (s : State) : (s.afterError i).hostSide = s.hostSide := by
  unfold State.afterError
  split <;> rfl

/-! ### The errors of each body (60_exceptions.md R244) -/

/-- The reader stands at its end and EXH says so (40_bitstream.md R110; 60_exceptions.md R248). -/
def State.ReaderExhausted (s : State) : Prop := s.rdPos = s.rdEnd ∧ s.status.exh = true

theorem rdBit_none {m : Memory} {e pos p : Word} (h : rdBit m e pos = (none, p)) : p = e := by
  unfold rdBit at h
  split at h
  · next hend => exact (Prod.mk.inj h).2.symm.trans hend
  · nomatch h

theorem rdBitsFrom_none {m : Memory} {e p : Word} {n : Nat} {v : Byte} {pos : Word}
    (h : rdBitsFrom m e n v pos = (none, p)) : p = e := by
  induction n generalizing v pos with
  | zero => nomatch h
  | succ n ih =>
    rw [rdBitsFrom] at h
    split at h
    · next q hb => exact (Prod.mk.inj h).2.symm.trans (rdBit_none hb)
    · exact ih h

theorem rdBytesFrom_none {m : Memory} {e p : Word} {n : Nat} {v pos : Word}
    (h : rdBytesFrom m e n v pos = (none, p)) : p = e := by
  induction n generalizing v pos with
  | zero => nomatch h
  | succ n ih =>
    rw [rdBytesFrom] at h
    split at h
    · next q hb => exact (Prod.mk.inj h).2.symm.trans (rdBitsFrom_none hb)
    · exact ih h

theorem walkDown_none {m : Memory} {e p : Word} {t : Trie} {pos : Word} (h : walkDown m e t pos = (none, p)) : p = e := by
  induction t generalizing pos with
  | leaf sym => nomatch h
  | node l r ihl ihr =>
    rw [walkDown] at h
    split at h
    · next q hb => exact (Prod.mk.inj h).2.symm.trans (rdBit_none hb)
    · exact ihl h
    · exact ihr h

/-- `des()` fails at the end of the stream or for want of nodes (43_trie_codec.md R172, R174). -/
theorem desTrie_fail {m : Memory} {e p : Word} {cap depth cnt : Nat} {pos : Word} {c : ErrCode}
    (h : desTrie m e cap depth cnt pos = .fail c p) : (c = .corruptStream ∧ p = e) ∨ c = .nodeOverflow := by
  induction depth generalizing cnt pos c p with
  | zero => exact .inr (Des.fail.inj h).1.symm
  | succ depth ih =>
    rw [desTrie] at h
    split at h
    · next q hb =>
      obtain ⟨rfl, rfl⟩ := Des.fail.inj h
      exact .inl ⟨rfl, rdBit_none hb⟩
    · split at h
      · exact .inr (Des.fail.inj h).1.symm
      · split at h
        · split at h
          · next q hs =>
            obtain ⟨rfl, rfl⟩ := Des.fail.inj h
            exact .inl ⟨rfl, rdBitsFrom_none hs⟩
          · nomatch h
        · split at h
          · next c q hl =>
            obtain ⟨rfl, rfl⟩ := Des.fail.inj h
            exact ih hl
          · split at h
            · next c q hr =>
              obtain ⟨rfl, rfl⟩ := Des.fail.inj h
              exact ih hr
            · nomatch h

/-- The decoding loop fails inside a walk at the end of the stream, or at a full OUT_MEM (45_payload_codec.md R202). -/
theorem decFrom_fail {m : Memory} {e p : Word} {cap : Nat} {t : Trie} {n : Nat} {pos : Word} {w : Writer} {c : ErrCode}
    (h : decFrom m e cap t n pos w = .fail c p) : (c = .corruptStream ∧ p = e) ∨ c = .outOverflow := by
  induction n generalizing pos w with
  | zero => nomatch h
  | succ n ih =>
    rw [decFrom] at h
    split at h
    · next q hw =>
      obtain ⟨rfl, rfl⟩ := Dec.fail.inj h
      exact .inl ⟨rfl, walkDown_none hw⟩
    · split at h
      · exact .inr (Dec.fail.inj h).1.symm
      · exact ih h

/-- The encoding loop fails at a full OUT_MEM or at a byte without a code (45_payload_codec.md R200). -/
theorem encFrom_fail {m : Memory} {codeAt : Nat → CodeEntry} {cap n k : Nat} {w : Writer} {c : ErrCode}
    (h : encFrom m codeAt cap n k w = .fail c) : c = .outOverflow ∨ c = .missingCode := by
  induction n generalizing k w with
  | zero => nomatch h
  | succ n ih =>
    rw [encFrom] at h
    split at h
    · split at h
      · exact .inl (Enc.fail.inj h).symm
      · exact ih h
    · exact .inr (Enc.fail.inj h).symm

section BodyErrors
variable {s u : State} {c : ErrCode}

theorem wrote_error {w : Option Writer} (h : s.wrote w = .error c u) : c = .outOverflow ∧ u = s := by
  cases w with
  | none =>
    obtain ⟨rfl, rfl⟩ := Ran.error.inj h
    exact ⟨rfl, rfl⟩
  | some w => nomatch h

theorem trieSerBody_error (h : trieSerBody s = .error c u) : c = .outOverflow ∧ u = s := by
  unfold trieSerBody at h
  split at h
  · nomatch h
  · exact wrote_error h

theorem payloadEncBody_error (h : payloadEncBody s = .error c u) : c = .outOverflow ∨ c = .missingCode := by
  unfold payloadEncBody at h
  split at h
  · exact .inl (Ran.error.inj h).1.symm
  · split at h
    · next c' he =>
      obtain ⟨rfl, -⟩ := Ran.error.inj h
      exact encFrom_fail he
    · nomatch h

theorem codeBuildBody_error (h : codeBuildBody s = .error c u) : c = .codeTooLong ∧ u.valid.code = false := by
  unfold codeBuildBody at h
  split at h
  · nomatch h
  · split at h
    · obtain ⟨rfl, rfl⟩ := Ran.error.inj h
      exact ⟨rfl, rfl⟩
    · nomatch h

theorem trieDeserBody_error (h : trieDeserBody s = .error c u) :
    (c = .corruptStream ∧ u.ReaderExhausted) ∨ c = .nodeOverflow := by
  unfold trieDeserBody at h
  split at h
  · next hd =>
    obtain ⟨rfl, rfl⟩ := Ran.error.inj h
    refine (desTrie_fail hd).imp_left fun ⟨hc, hp⟩ => ⟨hc, hp, ?_⟩
    simp [hc]
  · nomatch h

theorem payloadDecBody_error (h : payloadDecBody s = .error c u) :
    (c = .corruptStream ∧ u.ReaderExhausted) ∨ c = .outOverflow := by
  unfold payloadDecBody at h
  split at h
  · next hr =>
    obtain ⟨rfl, rfl⟩ := Ran.error.inj h
    exact .inl ⟨rfl, rdBytesFrom_none hr, by simp⟩
  · split at h
    · nomatch h
    · split at h
      · next hd =>
        obtain ⟨rfl, rfl⟩ := Ran.error.inj h
        refine (decFrom_fail hd).imp_left fun ⟨hc, hp⟩ => ⟨hc, hp, ?_⟩
        simp [hc]
      · nomatch h

/-- COMPRESS's PAYLOAD_ENC only writes bits, since every input byte has a code in the input's trie (46_orchestrator.md R220). -/
theorem payloadEncBody_withInputTables {t : Trie} (htrie : s.inputTrie = some t) (w : Writer) :
    payloadEncBody ((s.withInputTables t).setWriter w) = ((s.withInputTables t).setWriter w).wrote
      (wrSeq s.params.outCap (((s.withInputTables t).setWriter w).encodedBits s.inLen.toNat) w) :=
  payloadEncBody_allCoded (s := (s.withInputTables t).setWriter w) fun _ hj =>
    (congrArg CodeEntry.present (s.withInputTables_codeAt t _)).trans (State.inputTrie_codes htrie hj)

/-- COMPRESS makes its tables and can fail only in the writer (46_orchestrator.md R220). -/
theorem compressBody_error (h : compressBody s = .error c u) :
    c = .outOverflow ∧ u.valid.freq = true ∧ u.valid.trie = true ∧ u.valid.code = true := by
  obtain ⟨t, htrie, -⟩ := s.exists_inputTrie
  have htables : (s.withInputTables t).trie? = some t := State.withInputTrie_trie? htrie
  rw [compressBody_tables htrie, trieSerBody_eq htables] at h
  cases hser : wrSeq (s.withInputTables t).params.outCap t.bits (s.withInputTables t).writer with
  | none =>
    rw [hser] at h
    obtain ⟨rfl, rfl⟩ := Ran.error.inj h
    exact ⟨rfl, rfl, rfl, rfl⟩
  | some w =>
    rw [hser, wrote_some] at h
    rcases andThen_error _ _ _ _ h with h | ⟨_, -, h⟩
    · rw [Ran.andThen, payloadEncBody_withInputTables htrie] at h
      obtain ⟨rfl, rfl⟩ := wrote_error h
      exact ⟨rfl, rfl, rfl, rfl⟩
    · nomatch h

theorem extractBody_split (s : State) :
    extractBody s = ((trieDeserBody s.beforeTrie).andThen payloadDecBody).andThen wrDumpBody := rfl

/-- EXTRACT fails inside its trie or inside its payload (46_orchestrator.md R222). -/
theorem extractBody_error (h : extractBody s = .error c u) :
    trieDeserBody s.beforeTrie = .error c u
      ∨ ∃ v, trieDeserBody s.beforeTrie = .ok v ∧ payloadDecBody v = .error c u := by
  rw [extractBody_split] at h
  rcases andThen_error _ _ _ _ h with h | ⟨_, -, h⟩
  · exact andThen_error _ _ _ _ h
  · nomatch h

/-- A body raises only errors of its command, and CORRUPT_STREAM only with the reader exhausted (60_exceptions.md R244,
R248). -/
theorem bodyOf_error {i : Instr} (h : bodyOf i s = .error c u) :
    c ∈ executionErrors i ∧ (c = .corruptStream → u.ReaderExhausted) := by
  have overflow {j : Instr} (hj : .outOverflow ∈ executionErrors j) (hc : c = .outOverflow) :
      c ∈ executionErrors j ∧ (c = .corruptStream → u.ReaderExhausted) := by
    subst hc
    exact ⟨hj, nofun⟩
  cases i with
  | rdInit => nomatch h
  | rdBit => nomatch h
  | rdBits n => nomatch h
  | rdU32be => nomatch h
  | wrInit => nomatch h
  | wrBit imm8 => exact overflow (.head _) (wrote_error h).1
  | wrBits n imm8 => exact overflow (.head _) (wrote_error h).1
  | wrU32be => exact overflow (.head _) (wrote_error h).1
  | wrDump => nomatch h
  | freqCount => nomatch h
  | trieBuild => nomatch h
  | trieSer => exact overflow (.head _) (trieSerBody_error h).1
  | trieDeser =>
    rcases trieDeserBody_error h with ⟨rfl, hend⟩ | rfl
    · exact ⟨.head _, fun _ => hend⟩
    · exact ⟨.tail _ (.head _), nofun⟩
  | codeBuild =>
    obtain ⟨rfl, -⟩ := codeBuildBody_error h
    exact ⟨.head _, nofun⟩
  | payloadEnc =>
    rcases payloadEncBody_error h with rfl | rfl
    · exact ⟨.head _, nofun⟩
    · exact ⟨.tail _ (.head _), nofun⟩
  | payloadDec =>
    rcases payloadDecBody_error h with ⟨rfl, hend⟩ | rfl
    · exact ⟨.head _, fun _ => hend⟩
    · exact ⟨.tail _ (.head _), nofun⟩
  | compress => exact overflow (.head _) (compressBody_error h).1
  | extract =>
    rcases extractBody_error h with h | ⟨_, -, h⟩
    · rcases trieDeserBody_error h with ⟨rfl, hend⟩ | rfl
      · exact ⟨.head _, fun _ => hend⟩
      · exact ⟨.tail _ (.head _), nofun⟩
    · rcases payloadDecBody_error h with ⟨rfl, hend⟩ | rfl
      · exact ⟨.head _, fun _ => hend⟩
      · exact ⟨.tail _ (.tail _ (.head _)), nofun⟩

end BodyErrors

/-! ### How a command ends (60_exceptions.md R241, R244, R245) -/

/-- The error codes command `i` may report from `s` (60_exceptions.md R244). -/
def State.MayReport (s : State) (i : Instr) (c : ErrCode) : Prop :=
  (c = .badState ∧ (needs s i).all id = false)
    ∨ (c = .inRange ∧ checksInLen i = true ∧ s.params.inCap < s.inLen.toNat)
    ∨ c ∈ executionErrors i

/-- No execution error is the mark of success or a failed check. -/
theorem not_mem_executionErrors (i : Instr) :
    .none ∉ executionErrors i ∧ .badState ∉ executionErrors i ∧ .inRange ∉ executionErrors i := by
  cases i <;> simp [executionErrors]

theorem State.MayReport.ne_none {s : State} {i : Instr} {c : ErrCode} (h : s.MayReport i c) : c ≠ .none := by
  rintro rfl
  rcases h with ⟨hc, -⟩ | ⟨hc, -⟩ | hc
  · nomatch hc
  · nomatch hc
  · exact (not_mem_executionErrors i).1 hc

/-- A command that goes on completes or reports one of its errors, in a state that keeps what the host writes. -/
theorem exec_ends {i : Instr} {s t : State} (h : exec i s = .next t) :
    ∃ u : State, u.hostSide = s.hostSide ∧ (t = u.complete ∨ ∃ c, t = u.raise c ∧ s.MayReport i c) := by
  have hbody := bodyOf_hostSide i s
  rcases exec_next i s t h with ⟨hneeds, rfl⟩ | ⟨-, hcheck, hlen, rfl⟩ | ⟨-, -, ⟨u, hu, rfl⟩ | ⟨c, u, hu, rfl⟩⟩
  · exact ⟨s, rfl, .inr ⟨_, rfl, .inl ⟨rfl, hneeds⟩⟩⟩
  · exact ⟨s, rfl, .inr ⟨_, rfl, .inr (.inl ⟨rfl, hcheck, hlen⟩)⟩⟩
  · rw [hu] at hbody
    exact ⟨u, hbody, .inl rfl⟩
  · rw [hu] at hbody
    exact ⟨_, (u.afterError_hostSide i).trans hbody, .inr ⟨c, rfl, .inr (.inr (bodyOf_error hu).1)⟩⟩

/-- Settles O26: completion and `raise` leave what the host writes as the body left it. -/
theorem commandsKeepHostState : Obligations.CommandsKeepHostState := by
  refine ⟨fun _ => rfl, fun i s t h => ?_⟩
  obtain ⟨u, hu, rfl | ⟨c, rfl, -⟩⟩ := exec_ends h
  · exact ⟨rfl, rfl, State.hostSide_inj (u := u) hu⟩
  · exact ⟨rfl, rfl, State.hostSide_inj (u := u) hu⟩

/-- Settles O25: without a report ERR and ERRCODE stay as they were. -/
theorem errorsAreThoseListed : Obligations.ErrorsAreThoseListed := by
  intro i s t herr hcode h
  obtain ⟨u, hu, rfl | ⟨c, rfl, hc⟩⟩ := exec_ends h
  · have hcode' : u.status.errcode = .none := (State.errcode_of_hostSide hu).trans hcode
    have herr' : u.status.err = false := (State.err_of_hostSide hu).trans herr
    exact ⟨by simp [hcode', herr'], .inl hcode'⟩
  · exact ⟨(decide_eq_true hc.ne_none).symm, .inr hc⟩

/-- Settles O24: the checks are `guarded`'s, in its order. -/
theorem checksComeFirst : Obligations.ChecksComeFirst :=
  ⟨fun _ _ => rfl, fun _ _ => ⟨exec_badState, exec_inRange⟩⟩

/-! ### After an execution error (60_exceptions.md R246 to R248) -/

/-- From ERRCODE 0, an execution error in ERRCODE is one the body raised. -/
theorem exec_executionError {i : Instr} {s t : State} (hnone : s.status.errcode = .none) (h : exec i s = .next t)
    (herr : t.status.errcode ∈ executionErrors i) :
    ∃ c u, bodyOf i s = .error c u ∧ t = (u.afterError i).raise c := by
  obtain ⟨hne, hbad, hrange⟩ := not_mem_executionErrors i
  have hbody := bodyOf_hostSide i s
  rcases exec_next i s t h with ⟨-, rfl⟩ | ⟨-, -, -, rfl⟩ | ⟨-, -, ⟨u, hu, rfl⟩ | ⟨c, u, hu, rfl⟩⟩
  · exact absurd herr hbad
  · exact absurd herr hrange
  · rw [hu] at hbody
    have hcode : u.complete.status.errcode = .none := (State.errcode_of_hostSide hbody).trans hnone
    exact absurd (hcode ▸ herr) hne
  · exact ⟨c, u, hu, rfl⟩

/-- Settles O28: the error empties the writer before it completes. -/
theorem executionErrorEmptiesTheWriter : Obligations.ExecutionErrorEmptiesTheWriter := by
  intro i s t hw hnone h herr
  obtain ⟨c, u, -, rfl⟩ := exec_executionError hnone h herr
  rw [State.afterError, if_pos hw]
  exact ⟨rfl, by simp [State.outLen, State.emptyWriter], rfl, rfl, rfl⟩

/-- Settles O30: only a body raises CORRUPT_STREAM, and only with the reader exhausted. -/
theorem corruptStreamLeavesReaderAtEnd : Obligations.CorruptStreamLeavesReaderAtEnd := by
  intro i s t hnone h hcode
  have herr : t.status.errcode ∈ executionErrors i := by
    obtain ⟨u, hu, rfl | ⟨c, rfl, ⟨rfl, -⟩ | ⟨rfl, -⟩ | hc⟩⟩ := exec_ends h
    · exact absurd (hcode.symm.trans ((State.errcode_of_hostSide hu).trans hnone)) nofun
    · nomatch hcode
    · nomatch hcode
    · exact hc
  obtain ⟨c, u, hu, rfl⟩ := exec_executionError hnone h herr
  have hend : u.ReaderExhausted := (bodyOf_error hu).2 hcode
  unfold State.afterError
  split <;> exact hend

/-- An error inside a trie leaves no trie (60_exceptions.md R247). -/
theorem trieDeserBody_error_tables {s u : State} {c : ErrCode} (h : trieDeserBody s = .error c u) :
    u.valid.trie = false ∧ u.valid.code = false ∧ u.nodeCount = 0 ∧ u.root = 0 := by
  have hends := trieDeserBody_ends (P := fun _ => True)
    (Q := fun u => u.valid.trie = false ∧ u.valid.code = false ∧ u.nodeCount = 0 ∧ u.root = 0) s
    (fun _ _ _ _ => trivial) fun _ _ _ => ⟨rfl, rfl, rfl, rfl⟩
  rwa [h] at hends

/-- After `des()` the arena holds the trie read, and CODE no table of it (43_trie_codec.md R172, R173). -/
theorem trieDeserBody_ok {s u : State} (h : trieDeserBody s = .ok u) :
    (∃ t, u.trie? = some t) ∧ u.valid.trie = true ∧ u.valid.code = false := by
  have hends := trieDeserBody_ends
    (P := fun u => (∃ t, u.trie? = some t) ∧ u.valid.trie = true ∧ u.valid.code = false) (Q := fun _ => True) s
    (fun t _ _ _ => ⟨⟨t, readTrie_preorder t⟩, rfl, rfl⟩) fun _ _ _ => trivial
  rwa [h] at hends

theorem payloadDecBody_error_valid {s u : State} {c : ErrCode} (h : payloadDecBody s = .error c u) : u.valid = s.valid := by
  have hends := payloadDecBody_ends (P := fun _ => True) (Q := fun u => u.valid = s.valid) s
    (fun _ _ _ _ _ _ => trivial) fun _ _ _ _ => rfl
  rwa [h] at hends

/-- EXTRACT ends inside its trie, and has none, or inside its payload, and has one; CODE is not valid either way
(60_exceptions.md R247). -/
theorem extractBody_error_tables {s u : State} {c : ErrCode} (h : extractBody s = .error c u) :
    u.valid.code = false ∧ ((c ≠ .outOverflow ∧ u.valid.trie = false ∧ u.nodeCount = 0 ∧ u.root = 0)
      ∨ (c ≠ .nodeOverflow ∧ u.valid.trie = true)) := by
  rcases extractBody_error h with hdes | ⟨v, hdes, hdec⟩
  · obtain ⟨htrie, hcode, hcount, hroot⟩ := trieDeserBody_error_tables hdes
    refine ⟨hcode, .inl ⟨?_, htrie, hcount, hroot⟩⟩
    rcases trieDeserBody_error hdes with ⟨rfl, -⟩ | rfl <;> exact nofun
  · obtain ⟨-, htrie, hcode⟩ := trieDeserBody_ok hdes
    rw [payloadDecBody_error_valid hdec]
    refine ⟨hcode, .inr ⟨?_, htrie⟩⟩
    rcases payloadDecBody_error hdec with ⟨rfl, -⟩ | rfl <;> exact nofun

/-- Settles O29: emptying the writer and `raise` leave the tables as the body left them. -/
theorem tablesAfterAnError : Obligations.TablesAfterAnError := by
  intro s t hnone
  refine ⟨fun h herr => ?_, fun h herr => ?_, fun h hcode => ?_, fun h hcode => ?_⟩
  · obtain ⟨c, u, hu, rfl⟩ := exec_executionError hnone h herr
    exact trieDeserBody_error_tables (u := u) hu
  · obtain ⟨c, u, hu, rfl⟩ := exec_executionError hnone h herr
    obtain ⟨hcode, ⟨hne, hfalse, hzero⟩ | ⟨hne, htrue⟩⟩ := extractBody_error_tables (u := u) hu
    · exact ⟨hcode, fun _ => hfalse, fun hover => absurd hover hne, fun _ => hzero⟩
    · exact ⟨hcode, fun hover => absurd hover hne, fun _ => htrue, fun hfalse => absurd (htrue.symm.trans hfalse) nofun⟩
  · obtain ⟨c, u, hu, rfl⟩ := exec_executionError hnone h (hcode ▸ .head _)
    exact (codeBuildBody_error (u := u) hu).2
  · obtain ⟨c, u, hu, rfl⟩ := exec_executionError hnone h (hcode ▸ .head _)
    exact (compressBody_error (u := u) hu).2

end Sys2Proof.Machine
end

section
/-! PROOFS. Every step keeps STATUS consistent, and where TRIE_VALID promises a trie every step goes on (10_state.md R41;
60_exceptions.md R241, R243, R245). -/

namespace Sys2Proof.Machine

/-! ### STATUS (60_exceptions.md R241, R245) -/

theorem Status.wf_iff (st : Status) : st.wf = true ↔
    (st.busy = true → st.done = false ∧ st.err = false ∧ st.exh = false) ∧ st.err = decide (st.errcode ≠ .none) := by
  cases hb : st.busy <;> simp [Status.wf, hb, and_assoc]

/-- With BUSY = 0 only ERR and ERRCODE have to agree. -/
theorem Status.wf_completed (st : Status) : st.completed.wf = true ↔ st.err = decide (st.errcode ≠ .none) :=
  (Status.wf_iff st.completed).trans (and_iff_right nofun)

theorem Status.wf_issued (st : Status) : st.issued.wf = true := rfl

theorem Status.wf_ovr {st : Status} (h : st.wf = true) (b : Bool) : Status.wf { st with ovr := b } = true := h

theorem Status.wf_writeOneToClear {st : Status} (h : st.wf = true) (w : Word) : (st.writeOneToClear w).wf = true := by
  rw [Status.wf_iff] at h ⊢
  obtain ⟨hbusy, herr⟩ := h
  refine ⟨fun hb => ?_, herr⟩
  obtain ⟨hdone, hrest⟩ := hbusy hb
  exact ⟨by simp [hdone], hrest⟩

/-- An error reported goes with a nonzero ERRCODE (60_exceptions.md R243, R245). -/
theorem State.wf_raise (s : State) {c : ErrCode} (hc : c ≠ .none) : (s.raise c).status.wf = true :=
  (Status.wf_completed _).mpr (decide_eq_true hc).symm

/-- A host write leaves STATUS, sets OVR, issues a command or clears DONE and OVR (10_state.md R23; 20_memory.md R82;
60_exceptions.md R240). -/
theorem State.writeData_status (s : State) (size : Size) (off : Nat) (v : Word) :
    (s.writeData size off v).status = s.status ∨ (s.writeData size off v).status = { s.status with ovr := true }
      ∨ (s.writeData size off v).status = s.status.issued
      ∨ (s.writeData size off v).status = s.status.writeOneToClear v := by
  unfold State.writeData
  split
  · unfold State.writeReg
    split
    · split
      · exact .inr (.inl rfl)
      · exact .inr (.inr (.inl rfl))
    · exact .inr (.inr (.inr rfl))
    · split
      · exact .inr (.inl rfl)
      · exact .inl rfl
    · split
      · exact .inr (.inl rfl)
      · exact .inl rfl
    all_goals exact .inl rfl
  · split
    · unfold State.dropInWrite
      split
      · exact .inr (.inl rfl)
      · exact .inl rfl
    · exact .inl rfl
  all_goals exact .inl rfl

theorem State.wf_writeData {s : State} (h : s.status.wf = true) (size : Size) (off : Nat) (v : Word) :
    (s.writeData size off v).status.wf = true := by
  rcases s.writeData_status size off v with hst | hst | hst | hst <;> rw [hst]
  · exact h
  · exact Status.wf_ovr h true
  · exact s.status.wf_issued
  · exact Status.wf_writeOneToClear h v

theorem State.wf_hostWrite {s : State} (h : s.status.wf = true) (size : Size) (addr v : Word) :
    (s.hostWrite size addr v).status.wf = true := by
  obtain ⟨r, hr | hr⟩ := s.hostWrite_cases size addr v <;> rw [hr]
  · exact h
  · exact State.wf_writeData h size _ v

/-- A command ends with ERR and ERRCODE as they were, or with one of its errors (60_exceptions.md R244, R245). -/
theorem exec_wf {i : Instr} {s t : State} (hs : s.status.wf = true) (h : exec i s = .next t) : t.status.wf = true := by
  obtain ⟨u, hu, rfl | ⟨c, rfl, hc⟩⟩ := exec_ends h
  · obtain ⟨-, herr⟩ := (Status.wf_iff _).mp hs
    rw [← State.err_of_hostSide hu, ← State.errcode_of_hostSide hu] at herr
    exact (Status.wf_completed _).mpr herr
  · exact u.wf_raise hc.ne_none

/-- Settles O57: a case per move of the host and of the Core. -/
theorem stepKeepsStatusConsistent : Obligations.StepKeepsStatusConsistent := by
  intro s t hs h
  obtain ⟨rest, u, hu, hmove⟩ := step_next s t h
  have hwf : u.status.wf = true := hu ▸ hs
  rcases hmove with ⟨size, addr, rfl⟩ | ⟨size, addr, v, rfl⟩ | rfl | rfl | rfl | ⟨i, hi⟩
  · exact hwf
  · exact State.wf_hostWrite hwf size addr v
  · rfl
  · exact hwf
  · exact u.wf_raise nofun
  · exact exec_wf hwf hi

/-! ### No step stops (10_state.md R41; notes/assumptions/8.md) -/

/-- The body ends, well or in an error. -/
def Ran.Goes (r : Ran) : Prop := ∀ f, r ≠ .stuck f

theorem Ran.Goes.andThen {r : Ran} {k : State → Ran} (hr : r.Goes) (hk : ∀ u, r = .ok u → (k u).Goes) :
    (r.andThen k).Goes := by
  intro f h
  rcases andThen_stuck r k f h with h | ⟨u, hu, h⟩
  · exact hr f h
  · exact hk u hu f h

theorem wrote_goes (s : State) (w : Option Writer) : (s.wrote w).Goes := by
  cases w <;> exact nofun

theorem payloadEncBody_goes (s : State) : (payloadEncBody s).Goes := by
  unfold payloadEncBody
  split
  · exact nofun
  · split <;> exact nofun

theorem trieDeserBody_goes (s : State) : (trieDeserBody s).Goes := by
  unfold trieDeserBody
  split <;> exact nofun

section TrieReaders
variable {s : State} {t : Trie} (htrie : s.trie? = some t)
include htrie

theorem trieSerBody_goes : (trieSerBody s).Goes := by
  rw [trieSerBody_eq htrie]
  exact wrote_goes s _

theorem codeBuildBody_goes : (codeBuildBody s).Goes := by
  simp only [codeBuildBody, htrie]
  split <;> exact nofun

theorem payloadDecBody_goes : (payloadDecBody s).Goes := by
  simp only [payloadDecBody, htrie]
  split
  · exact nofun
  · split <;> exact nofun

end TrieReaders

/-- COMPRESS serializes the trie it has built (46_orchestrator.md R220). -/
theorem compressBody_goes (s : State) : (compressBody s).Goes := by
  obtain ⟨t, htrie, -⟩ := s.exists_inputTrie
  have htables : (s.withInputTables t).trie? = some t := State.withInputTrie_trie? htrie
  rw [compressBody_tables htrie]
  exact ((trieSerBody_goes htables).andThen fun u _ => payloadEncBody_goes u).andThen fun _ _ => nofun

/-- EXTRACT decodes with the trie it has read (46_orchestrator.md R222). -/
theorem extractBody_goes (s : State) : (extractBody s).Goes := by
  rw [extractBody_split]
  refine ((trieDeserBody_goes _).andThen fun u hu => ?_).andThen fun _ _ => nofun
  obtain ⟨⟨t, htrie⟩, -, -⟩ := trieDeserBody_ok hu
  exact payloadDecBody_goes htrie

/-- TRIE_VALID = 1 promises a trie below ROOT (10_state.md R31, R41). -/
theorem State.exists_trie {s : State} (hok : s.trieOk = true) (hvalid : s.valid.trie = true) : ∃ t, s.trie? = some t := by
  have harena := s.trieOk_iff.mp hok hvalid
  unfold State.arenaOk at harena
  split at harena
  · nomatch harena
  · next is hvisit =>
    obtain ⟨t, hread, -⟩ := readTrie_of_visit _ _ _ _ hvisit
    exact ⟨t, hread⟩

/-- A command that reads a trie it has not made needs TRIE_VALID (60_exceptions.md R244). -/
theorem bodyOf_goes (i : Instr) {s : State} (hok : s.trieOk = true) (hneeds : (needs s i).all id = true) :
    (bodyOf i s).Goes := by
  cases i with
  | rdInit => exact nofun
  | rdBit => exact nofun
  | rdBits n => exact nofun
  | rdU32be => exact nofun
  | wrInit => exact nofun
  | wrBit imm8 => exact wrote_goes s _
  | wrBits n imm8 => exact wrote_goes s _
  | wrU32be => exact wrote_goes s _
  | wrDump => exact nofun
  | freqCount => exact nofun
  | trieBuild => exact nofun
  | trieSer =>
    obtain ⟨t, htrie⟩ := State.exists_trie hok (List.all_eq_true.mp hneeds _ (.tail _ (.head _)))
    exact trieSerBody_goes htrie
  | trieDeser => exact trieDeserBody_goes s
  | codeBuild =>
    obtain ⟨t, htrie⟩ := State.exists_trie hok (List.all_eq_true.mp hneeds _ (.head _))
    exact codeBuildBody_goes htrie
  | payloadEnc => exact payloadEncBody_goes s
  | payloadDec =>
    obtain ⟨t, htrie⟩ := State.exists_trie hok (List.all_eq_true.mp hneeds _ (.tail _ (.tail _ (.head _))))
    exact payloadDecBody_goes htrie
  | compress => exact compressBody_goes s
  | extract => exact extractBody_goes s

/-- A failed check and a body that goes are both a next state (60_exceptions.md R245). -/
theorem exec_goes (i : Instr) {s : State} (hok : s.trieOk = true) : ∃ t, exec i s = .next t := by
  cases hneeds : (needs s i).all id with
  | false => exact ⟨_, exec_badState hneeds⟩
  | true =>
    by_cases hlen : checksInLen i = true → s.inLen.toNat ≤ s.params.inCap
    · cases hbody : bodyOf i s with
      | ok u => exact ⟨_, exec_ok hneeds hlen hbody⟩
      | error c u => exact ⟨_, exec_error hneeds hlen hbody⟩
      | stuck f => exact absurd hbody (bodyOf_goes i hok hneeds f)
    · obtain ⟨hcheck, hover⟩ := Classical.not_imp.mp hlen
      exact ⟨_, exec_inRange hneeds hcheck (Nat.lt_of_not_le hover)⟩

/-- Settles O60: only a command could stop the machine, and TRIE_VALID's promise outlives the host's move. -/
theorem stepNeverStops : Obligations.StepNeverStops := by
  intro s _ hok
  obtain ⟨rest, u, hu, ⟨size, addr, hm⟩ | ⟨size, addr, v, hm⟩ | hm | hm⟩ := turn_cases s
  · exact ⟨_, step_moved hm⟩
  · exact ⟨_, step_moved hm⟩
  · exact ⟨_, step_moved hm⟩
  · rcases coreTurn_cases u with hc | hc | ⟨i, hc⟩
    · exact ⟨_, step_moved (hm.trans hc)⟩
    · exact ⟨_, step_moved (hm.trans hc)⟩
    · have hoku : u.trieOk = true := hu ▸ hok
      rw [step_run (hm.trans hc)]
      exact exec_goes i hoku

end Sys2Proof.Machine
end

section
/-! PROOFS. The issue of a command, the turns without one, and the interrupt output (30_encoding.md R97, R102;
60_exceptions.md R240, R245, R251, R252, R261). -/

namespace Sys2Proof.Machine

/-! ### The Core's turn without a command (30_encoding.md R97; 60_exceptions.md R261) -/

theorem coreTurn_illegal {s : State} {e : Illegal} (hbusy : s.status.busy = true) (hdec : decode s.cmd = .error e) :
    coreTurn s = .moved (s.raise .illegalCmd) := by
  rw [coreTurn, if_pos hbusy, hdec]

theorem coreTurn_idle {s : State} (hbusy : s.status.busy = false) : coreTurn s = .moved s := by
  rw [coreTurn, hbusy, if_neg nofun]

theorem turn_noHost {s : State} (h : s.host = []) : turn s = coreTurn s := by
  rw [turn, h]

theorem turn_coreTurn {s : State} {rest : List HostEvent} (h : s.host = .coreTurn :: rest) :
    turn s = coreTurn { s with host := rest } := by
  rw [turn, h]

theorem turn_wait_busy {s : State} {rest : List HostEvent} (h : s.host = .wait :: rest) (hbusy : s.status.busy = true) :
    turn s = coreTurn s := by
  rw [turn, h]
  exact if_pos hbusy

/-- A WAIT that finds BUSY = 0 is a read of STATUS (30_encoding.md R102). -/
theorem step_wait_idle {s : State} {rest : List HostEvent} (h : s.host = .wait :: rest) (hbusy : s.status.busy = false) :
    step s = step { s with host := .read .word (s.params.blockBase + 0x008) :: rest } := by
  have hturn : turn s = .moved ({ s with host := rest }.hostRead .word (s.params.blockBase + 0x008)) := by
    rw [turn, h]
    exact if_neg (by simp [hbusy])
  rw [step_moved hturn, step_read { s with host := .read .word (s.params.blockBase + 0x008) :: rest } _ _ rest rfl]

/-- Settles O8: each turn is the Core's, but for the WAIT of an idle block. -/
theorem illegalWordAndIdleTurn : Obligations.IllegalWordAndIdleTurn := by
  intro s rest
  refine ⟨fun e t hbusy hdec hturn => ?_, fun hbusy => ⟨fun h => ?_, fun h => ?_, fun h => ?_⟩⟩
  · rcases hturn with ⟨h, rfl⟩ | ⟨h, rfl⟩ | ⟨h, rfl⟩
    · exact step_moved ((turn_noHost h).trans (coreTurn_illegal hbusy hdec))
    · exact step_moved ((turn_coreTurn h).trans (coreTurn_illegal hbusy hdec))
    · exact step_moved ((turn_wait_busy h hbusy).trans (coreTurn_illegal hbusy hdec))
  · exact step_moved ((turn_noHost h).trans (coreTurn_idle hbusy))
  · exact step_moved ((turn_coreTurn h).trans (coreTurn_idle hbusy))
  · rw [step_wait_idle h hbusy]
    exact step_readReg_value _ rest 0x008 .status rfl (by decide) (by decide) (.inr rfl) rfl

/-! ### The issue (60_exceptions.md R240) -/

theorem State.writeReg_cmd {s : State} (w : Word) (hbusy : s.status.busy = false) : s.writeReg 0x004 w = s.issue w :=
  if_neg (by simp [hbusy])

/-- Settles O10: the write to CMD is the issue. -/
theorem issueAcceptsCommand : Obligations.IssueAcceptsCommand := by
  intro s w rest hbusy h
  refine ⟨some ⟨.okay, none⟩, ?_⟩
  rw [step_writeReg s w rest 0x004 (by decide) (by decide) h]
  have hissue : ({ s with host := rest } : State).writeReg (0x004 : Word).toNat w = ({ s with host := rest } : State).issue w :=
    State.writeReg_cmd w hbusy
  rw [hissue]
  rfl

/-! ### The interrupt output (60_exceptions.md R251, R252) -/

theorem State.irq_of_done {s : State} (hdone : s.status.done = true) (hen : s.irqEn.doneIe = true) : s.irq = true := by
  simp [State.irq, hdone, hen]

theorem eq_of_step {s t u : State} (hu : step s = .next u) (ht : step s = .next t) : t = u :=
  Host.Outcome.next.inj (ht.symm.trans hu)

/-- Settles O21: each write is its register's, and every completion sets DONE and keeps the enables. -/
theorem interruptFollowsStatus : Obligations.InterruptFollowsStatus := by
  intro s
  refine ⟨rfl, fun v rest t h ht => ?_, fun v rest t h ht => ?_, fun w rest t hbusy h ht => ?_, fun rest t h ht => ?_,
    fun i t h => ?_, fun e t h hbusy hdec ht => ?_⟩
  · rw [eq_of_step (step_writeReg s v rest 0x008 (by decide) (by decide) h) ht]
    have hclear : (({ s with host := rest } : State).writeReg (0x008 : Word).toNat v).status
        = s.status.writeOneToClear v := rfl
    rw [State.answered_status, hclear]
    exact ⟨fun h1 => by simp [h1], fun h4 => by simp [h4]⟩
  · rw [eq_of_step (step_writeReg s v rest 0x038 (by decide) (by decide) h) ht]
    exact ⟨id, id⟩
  · obtain ⟨r, hstep⟩ := issueAcceptsCommand s w rest hbusy h
    rw [eq_of_step hstep ht]
  · rw [eq_of_step (step_reset s rest h) ht]
    exact ⟨rfl, rfl⟩
  · obtain ⟨-, hdone, -, -, -, -, -, hirq, -⟩ := commandsKeepHostState.2 i s t h
    exact ⟨hdone, fun hen => State.irq_of_done hdone (hirq ▸ hen)⟩
  · have hstep := step_moved ((turn_noHost h).trans (coreTurn_illegal hbusy hdec))
    rw [eq_of_step hstep ht]
    exact ⟨rfl, State.irq_of_done (s := s.raise .illegalCmd) rfl⟩

end Sys2Proof.Machine
end

section
/-! PROOFS. An issued command is over once the host has made its moves (60_exceptions.md R241; 70_reset_and_hazards.md R293;
notes/assumptions/15.md). -/

namespace Sys2Proof.Machine

/-- With BUSY = 1 the Core's turn ends the command, whatever the word in CMD (60_exceptions.md R241, R245). -/
theorem step_coreTurn_completes {s u : State} (hturn : turn s = coreTurn u) (hbusy : u.status.busy = true)
    (hok : u.trieOk = true) : ∃ t, step s = .next t ∧ t.status.busy = false := by
  cases hdec : decode u.cmd with
  | error e => exact ⟨_, step_moved (hturn.trans (coreTurn_illegal hbusy hdec)), rfl⟩
  | ok i =>
    have hrun : coreTurn u = .run i u := by rw [coreTurn, if_pos hbusy, hdec]
    obtain ⟨t, ht⟩ := exec_goes i hok
    exact ⟨t, (step_run (hturn.trans hrun)).trans ht, (commandsKeepHostState.2 i u t ht).1⟩

/-- No host write reaches the arena or the host's own list (20_memory.md R63). -/
theorem State.hostWrite_keeps (s : State) (size : Size) (addr v : Word) :
    (s.hostWrite size addr v).host = s.host ∧ (s.hostWrite size addr v).trieOk = s.trieOk := by
  obtain ⟨r, hr | hr⟩ := s.hostWrite_cases size addr v <;> rw [hr]
  · exact ⟨rfl, rfl⟩
  · rcases s.writeData_cases size (s.offset addr) v with ⟨_, _, hw⟩ | ⟨_, _, _, _, _, hw⟩ <;> rw [hw]
    · exact ⟨rfl, rfl⟩
    · exact ⟨rfl, rfl⟩

/-- A step of a busy block ends the command, or it is an access of the host, which keeps TRIE_VALID's promise
(10_state.md R41; 60_exceptions.md R241; 70_reset_and_hazards.md R280). -/
theorem step_busy {s : State} (hok : s.trieOk = true) (hbusy : s.status.busy = true) :
    (∃ t, step s = .next t ∧ t.status.busy = false)
      ∨ ∃ t, step s = .next t ∧ t.trieOk = true ∧ t.host.length < s.host.length := by
  cases hhost : s.host with
  | nil => exact .inl (step_coreTurn_completes (turn_noHost hhost) hbusy hok)
  | cons e rest =>
    have htaken : rest.length < (e :: rest).length := Nat.lt_succ_self _
    cases e with
    | read size addr => exact .inr ⟨_, step_read s size addr rest hhost, hok, htaken⟩
    | write size addr v =>
      obtain ⟨hrest, htrie⟩ := State.hostWrite_keeps { s with host := rest } size addr v
      exact .inr ⟨_, step_write s size addr v rest hhost, htrie.trans hok, hrest ▸ htaken⟩
    | reset => exact .inl ⟨_, step_reset s rest hhost, rfl⟩
    | coreTurn => exact .inl (step_coreTurn_completes (turn_coreTurn hhost) hbusy hok)
    | wait => exact .inl (step_coreTurn_completes (turn_wait_busy hhost hbusy) hbusy hok)

theorem run_succ_of_step {M : Host.Core} {s t : M.State} (h : M.step s = .next t) (k : Nat) :
    M.run (k + 1) s = M.run k t := by
  rw [Host.Core.run, h]

/-- With fewer than `n` host events left, `n` steps are enough: each step ends the command or takes an event. -/
theorem run_reaches_idle (n : Nat) {s : State} (hn : s.host.length < n) (hok : s.trieOk = true) :
    ∃ (k : Nat) (t : State), k ≤ n ∧ Host.Core.run Sys2Proof.core k s = .next t ∧ t.status.busy = false := by
  induction n generalizing s with
  | zero => exact absurd hn (Nat.not_lt_zero _)
  | succ n ih =>
    cases hbusy : s.status.busy with
    | false => exact ⟨0, s, Nat.zero_le _, rfl, hbusy⟩
    | true =>
      obtain ⟨t, ht, hdone⟩ | ⟨t, ht, htrie, hlen⟩ := step_busy hok hbusy
      · exact ⟨1, t, Nat.le_add_left 1 n, run_succ_of_step ht 0, hdone⟩
      · obtain ⟨k, u, hk, hrun, hdone⟩ := ih (by omega) htrie
        exact ⟨k + 1, u, Nat.succ_le_succ hk, (run_succ_of_step ht k).trans hrun, hdone⟩

/-- Settles O9: the Core's turn ends the command at the latest when the host's list is empty. -/
theorem issuedCommandCompletes : Obligations.IssuedCommandCompletes :=
  fun s _ hok _ => run_reaches_idle (s.host.length + 1) (Nat.lt_succ_self _) hok

end Sys2Proof.Machine
end
